-- ==== Sys2Proof/Word.lean ====
section
/-!
DEFINITION. The words of the machine: a binary32 pattern, a command word, an operation code and
an array element, each as bits (00_scope R8, R9; 30_encoding R90, R91; 20_memory R60).
-/

namespace Sys2Proof

/-- A float of the machine, as its IEEE 754 binary32 pattern (00_scope R9). -/
abbrev F := BitVec 32

/-- A command word of format CMD, `op` in bits 39:32 and `arg` in bits 31:0 (30_encoding R90). -/
abbrev CmdWord := BitVec 40

/-- A unit-operation select code of format UOP (30_encoding R91). -/
abbrev UopCode := BitVec 8

/-- One array element, wide enough for every array: 64 bits of a complex value, 40 of a command
word, 32 of a sample in the low bits (20_memory R60). -/
abbrev Elem := BitVec 64

end Sys2Proof
end

