-- ==== Sys2Proof/Syntax.lean ====
section
/-!
DEFINITION. The instructions: the seven command words and the seventeen unit operations of
spec/opcode_table.json (30_encoding R92, R97), and the two forms in which they are encoded.

A command carries its whole 32-bit `arg` field, ignored bits included (R90, R93). A unit operation
carries nothing: its operands and results travel on the ports of R98 (R91).
-/

namespace Sys2Proof

/-- One constructor per row of the opcode table (30_encoding R92, R97). -/
inductive Instr where
  /-- START, op 00 (46_sequencer_commands R263). -/
  | start (arg : BitVec 32)
  /-- STOP, op 01 (R264). -/
  | stop (arg : BitVec 32)
  /-- CHANGE_FREQUENCY, op 02 (R265). -/
  | changeFrequency (arg : BitVec 32)
  /-- CHANGE_OSCILLATOR, op 03 (R266). -/
  | changeOscillator (arg : BitVec 32)
  /-- CHANGE_NOISE, op 04 (R267). -/
  | changeNoise (arg : BitVec 32)
  /-- PRESSED, op 05 (R268). -/
  | pressed (arg : BitVec 32)
  /-- RELEASED, op 06 (R269). -/
  | released (arg : BitVec 32)
  /-- OSC.SET_FREQUENCY, code 00 (40_oscillator R121). -/
  | oscSetFrequency
  /-- OSC.SET_WAVE_TYPE, code 01 (R122). -/
  | oscSetWaveType
  /-- OSC.RUN, code 02 (R123). -/
  | oscRun
  /-- NOISE.UNIFORM, code 10 (41_noise R151). -/
  | noiseUniform
  /-- NOISE.GAUSSIAN, code 11 (R152). -/
  | noiseGaussian
  /-- ENV.PRESS, code 20 (42_envelope R162, R163). -/
  | envPress
  /-- ENV.RELEASE, code 21 (R164). -/
  | envRelease
  /-- ENV.UPDATE, code 22 (R165 to R170). -/
  | envUpdate
  /-- MET.UPDATE, code 30 (43_metronome R192). -/
  | metUpdate
  /-- MET.GET_BEAT_INDEX, code 31 (R193). -/
  | metGetBeatIndex
  /-- TS.ACCENT, code 32 (R194). -/
  | tsAccent
  /-- Q.TRY_PUSH, code 40 (44_fifo R206, R207). -/
  | qTryPush
  /-- Q.TRY_POP, code 41 (R208, R209). -/
  | qTryPop
  /-- Q.FILL, code 42 (R210). -/
  | qFill
  /-- FFT.TRANSFORM, code 50 (45_fft R231 to R236). -/
  | fftTransform
  /-- FFT.MAG, code 51 (R238). -/
  | fftMag
  /-- CTR.READ, code 60 (60_exceptions R312). -/
  | ctrRead
deriving DecidableEq, Repr

/-- The bits of an instruction in its format (30_encoding R90, R91). -/
inductive Encoded where
  | cmd (w : CmdWord)
  | uop (c : UopCode)
deriving DecidableEq, Repr

end Sys2Proof
end

