-- ==== Sys2Proof/WellFormed.lean ====
section
/-!
DEFINITION. Well-formed instructions: those an encoder writes. "An encoder writes ignored bits as 0"
(30_encoding R93), so the bits of `arg` that a command ignores are 0. A command word with other
ignored bits still decodes and runs (R100): well-formedness is about writing, not about running.
-/

namespace Sys2Proof

/-- The bits of `arg` that the instruction reads (30_encoding R92, R93). -/
def Instr.argMask : Instr → BitVec 32
  | .changeFrequency _ => 0xFFFFFFFF#32
  | .changeOscillator _ => 0x000000FF#32
  | .changeNoise _ => 0x000000FF#32
  | .start _ => 0#32
  | .stop _ => 0#32
  | .pressed _ => 0#32
  | .released _ => 0#32
  | .oscSetFrequency => 0#32
  | .oscSetWaveType => 0#32
  | .oscRun => 0#32
  | .noiseUniform => 0#32
  | .noiseGaussian => 0#32
  | .envPress => 0#32
  | .envRelease => 0#32
  | .envUpdate => 0#32
  | .metUpdate => 0#32
  | .metGetBeatIndex => 0#32
  | .tsAccent => 0#32
  | .qTryPush => 0#32
  | .qTryPop => 0#32
  | .qFill => 0#32
  | .fftTransform => 0#32
  | .fftMag => 0#32
  | .ctrRead => 0#32

/-- The `arg` field the instruction carries; 0 for a unit operation, which has none. -/
def Instr.arg : Instr → BitVec 32
  | .start a => a
  | .stop a => a
  | .changeFrequency a => a
  | .changeOscillator a => a
  | .changeNoise a => a
  | .pressed a => a
  | .released a => a
  | .oscSetFrequency => 0#32
  | .oscSetWaveType => 0#32
  | .oscRun => 0#32
  | .noiseUniform => 0#32
  | .noiseGaussian => 0#32
  | .envPress => 0#32
  | .envRelease => 0#32
  | .envUpdate => 0#32
  | .metUpdate => 0#32
  | .metGetBeatIndex => 0#32
  | .tsAccent => 0#32
  | .qTryPush => 0#32
  | .qTryPop => 0#32
  | .qFill => 0#32
  | .fftTransform => 0#32
  | .fftMag => 0#32
  | .ctrRead => 0#32

/-- The instruction is one an encoder writes: every ignored bit of `arg` is 0 (30_encoding R93). -/
def Instr.wf (i : Instr) : Bool := (i.arg &&& ~~~i.argMask) == 0#32

end Sys2Proof
end

