-- ==== Sys2Proof/Decode.lean ====
section
/-!
DEFINITION. The decoders of the two formats, total and rejecting by name, and the encoder
(30_encoding R90 to R93, R97, R100, R101).
-/

namespace Sys2Proof

/-- Why a word decodes to no instruction. -/
inductive DecodeError where
  /-- A command word whose `op` is 07 to FF: SYN pops it and ignores it (30_encoding R100). -/
  | unknownCommand (op : BitVec 8)
  /-- An 8-bit code that R97 does not list (30_encoding R101). -/
  | reservedCode (c : UopCode)
deriving DecidableEq, Repr

/-- The `op` field, bits 39:32 (30_encoding R90). -/
def cmdOp (w : CmdWord) : BitVec 8 := w.extractLsb' 32 8

/-- The `arg` field, bits 31:0 (30_encoding R90). -/
def cmdArg (w : CmdWord) : BitVec 32 := w.extractLsb' 0 32

/-- The command word with the given fields, `op` in the more significant bits (30_encoding R90). -/
def cmdWord (op : BitVec 8) (arg : BitVec 32) : CmdWord := op ++ arg

/-- The decoder of command words (30_encoding R92, R100). -/
def decodeCmd (w : CmdWord) : Except DecodeError Instr :=
  match (cmdOp w).toNat with
  | 0x00 => .ok (.start (cmdArg w))
  | 0x01 => .ok (.stop (cmdArg w))
  | 0x02 => .ok (.changeFrequency (cmdArg w))
  | 0x03 => .ok (.changeOscillator (cmdArg w))
  | 0x04 => .ok (.changeNoise (cmdArg w))
  | 0x05 => .ok (.pressed (cmdArg w))
  | 0x06 => .ok (.released (cmdArg w))
  | _ => .error (.unknownCommand (cmdOp w))

/-- The decoder of unit-operation codes (30_encoding R97, R101). -/
def decodeUop (c : UopCode) : Except DecodeError Instr :=
  match c.toNat with
  | 0x00 => .ok .oscSetFrequency
  | 0x01 => .ok .oscSetWaveType
  | 0x02 => .ok .oscRun
  | 0x10 => .ok .noiseUniform
  | 0x11 => .ok .noiseGaussian
  | 0x20 => .ok .envPress
  | 0x21 => .ok .envRelease
  | 0x22 => .ok .envUpdate
  | 0x30 => .ok .metUpdate
  | 0x31 => .ok .metGetBeatIndex
  | 0x32 => .ok .tsAccent
  | 0x40 => .ok .qTryPush
  | 0x41 => .ok .qTryPop
  | 0x42 => .ok .qFill
  | 0x50 => .ok .fftTransform
  | 0x51 => .ok .fftMag
  | 0x60 => .ok .ctrRead
  | _ => .error (.reservedCode c)

/-- The decoder over both formats. -/
def decode : Encoded → Except DecodeError Instr
  | .cmd w => decodeCmd w
  | .uop c => decodeUop c

/-- The encoder (30_encoding R92, R97); it writes ignored argument bits as 0 (R93). -/
def encode (i : Instr) : Encoded :=
  match i with
  | .start a => .cmd (cmdWord 0x00#8 (a &&& i.argMask))
  | .stop a => .cmd (cmdWord 0x01#8 (a &&& i.argMask))
  | .changeFrequency a => .cmd (cmdWord 0x02#8 (a &&& i.argMask))
  | .changeOscillator a => .cmd (cmdWord 0x03#8 (a &&& i.argMask))
  | .changeNoise a => .cmd (cmdWord 0x04#8 (a &&& i.argMask))
  | .pressed a => .cmd (cmdWord 0x05#8 (a &&& i.argMask))
  | .released a => .cmd (cmdWord 0x06#8 (a &&& i.argMask))
  | .oscSetFrequency => .uop 0x00#8
  | .oscSetWaveType => .uop 0x01#8
  | .oscRun => .uop 0x02#8
  | .noiseUniform => .uop 0x10#8
  | .noiseGaussian => .uop 0x11#8
  | .envPress => .uop 0x20#8
  | .envRelease => .uop 0x21#8
  | .envUpdate => .uop 0x22#8
  | .metUpdate => .uop 0x30#8
  | .metGetBeatIndex => .uop 0x31#8
  | .tsAccent => .uop 0x32#8
  | .qTryPush => .uop 0x40#8
  | .qTryPop => .uop 0x41#8
  | .qFill => .uop 0x42#8
  | .fftTransform => .uop 0x50#8
  | .fftMag => .uop 0x51#8
  | .ctrRead => .uop 0x60#8

/-- The instruction read from the bits `w` of a table row `nbits` wide: 40 bits are a command word,
8 bits a unit-operation code; no row has another width. A command word is one word moved whole
(20_memory R62), so bit 0 of `w` is bit 0 of the word. -/
def decodeTableWord (nbits w : Nat) : Option Instr :=
  if nbits = 40 then (decodeCmd (BitVec.ofNat 40 w)).toOption
  else if nbits = 8 then (decodeUop (BitVec.ofNat 8 w)).toOption
  else none

end Sys2Proof
end

