-- ==== Sys2Proof/Config.lean ====
section
/-!
DEFINITION. What is fixed from outside a step: the construction parameters (00_scope R7), the agents
and the events of the outside world (R15), and the FREE VALUES, opaque constants with no body, of
which nothing can be proved but what the rule that uses them imposes (R11, R12).
-/

namespace Sys2Proof

/-- The agents that issue operations (00_scope R15). -/
inductive Agent where
  | syn
  | aud
  | vis
deriving DecidableEq, Repr

/-- The three queues; on the selector port 0, 1, 2 (30_encoding R98). -/
inductive QueueId where
  | out
  | viz
  | cmd
deriving DecidableEq, Repr

/-- The five storage arrays (20_memory R60). -/
inductive ArrayId where
  /-- The ring storage of a queue. -/
  | ring (q : QueueId)
  /-- `fft.A`. -/
  | fftA
  /-- `fft.B`. -/
  | fftB
deriving DecidableEq, Repr

/-- Which lagging copy a SYNC agent advances (44_fifo R212, R213). -/
inductive SyncSide where
  /-- SYNC(q,R): `q.r_sync` follows `q.r` (R212). -/
  | read
  /-- SYNC(q,W): `q.w_sync` follows `q.w` (R213). -/
  | write
deriving DecidableEq, Repr

/-- One of the six SYNC agents (00_scope R15). -/
structure SyncAgent where
  queue : QueueId
  side : SyncSide
deriving DecidableEq, Repr

/-- `ENV_RELEASE_MODE` (00_scope R7, 42_envelope R164). -/
inductive ReleaseMode where
  | noOp
  | forced
deriving DecidableEq, Repr, Inhabited

/-- The construction parameters (00_scope R7) that R7 does not fix to one value. `NUM` and
`NOISE_SOURCE` are the opaque constants below; the four fixed gains are `attackStart`, `attackEnd`,
`decayStart`, `releaseEnd` of Machine/Operands.lean. -/
structure Params where
  /-- `SAMPLE_RATE`. -/
  sampleRate : F
  /-- `A_SQ`. -/
  aSq : F
  /-- `DEFAULT_DUTY`. -/
  defaultDuty : F
  /-- `ATTACK_DUR`. -/
  attackDur : F
  /-- `DECAY_DUR`. -/
  decayDur : F
  /-- `RELEASE_DUR`. -/
  releaseDur : F
  /-- `SUSTAIN_LEVEL`. -/
  sustainLevel : F
  /-- `ENV_RELEASE_MODE`. -/
  releaseMode : ReleaseMode
  /-- `ENV_GATE`. -/
  envGate : Bool
  /-- `TICK_PERIOD`. -/
  tickPeriod : BitVec 64
  /-- `CLICK_WINDOW`. -/
  clickWindow : BitVec 64
  /-- `TS_NUMERATOR`. -/
  tsNumerator : BitVec 32
  /-- `TS_DENOMINATOR`; stored, read only by the construction check. -/
  tsDenominator : BitVec 32
  /-- `OUT_CAP`. -/
  outCap : Nat
  /-- `VIZ_CAP`. -/
  vizCap : Nat
  /-- `CMD_CAP`. -/
  cmdCap : Nat
  /-- `BLOCK_SIZE`. -/
  blockSize : Nat
  /-- `FFT_MAX_N`. -/
  fftMaxN : Nat
deriving DecidableEq, Repr, Inhabited

/-- The capacity `C` of a queue (00_scope R7, 10_state R36). -/
def Params.cap (p : Params) : QueueId → Nat
  | .out => p.outCap
  | .viz => p.vizCap
  | .cmd => p.cmdCap

/-- The operand ports of a unit operation (30_encoding R98); an operation ignores the ports R98 does
not list for it. -/
structure Operands where
  /-- `f`: the frequency of OSC.SET_FREQUENCY. -/
  f : F := 0#32
  /-- `w`: the waveform id of OSC.SET_WAVE_TYPE. -/
  w : BitVec 8 := 0#8
  /-- `d`: the duty of OSC.SET_WAVE_TYPE. -/
  d : F := 0#32
  /-- `e`: the elapsed sample count of MET.UPDATE. -/
  e : BitVec 64 := 0#64
  /-- `q`: the queue selector. -/
  q : BitVec 2 := 0#2
  /-- `v`: the element to push; OUT and VIZ take bits 31:0, CMD bits 39:0. -/
  v : BitVec 40 := 0#40
  /-- `n`: the block length of Q.FILL. -/
  n : Nat := 0
  /-- `x[0 .. L-1]` of FFT.TRANSFORM; the list's length is the operand `L`. -/
  x : List Elem := []
  /-- `c`: the counter selector of CTR.READ. -/
  c : BitVec 2 := 0#2
deriving DecidableEq, Repr, Inhabited

/-- One step of one agent, or a reset: what can happen next (00_scope R15, 70_reset_and_hazards
R330). -/
inductive Event where
  /-- SYN takes the next step of its own sequence (46_sequencer_commands R260). -/
  | syn
  /-- SYNC(q,R) or SYNC(q,W) steps, its draw being `d` (44_fifo R212, R213). -/
  | sync (q : QueueId) (side : SyncSide) (d : Nat)
  /-- An agent presents a code and its operands on the ports of a unit (30_encoding R91, R98). -/
  | uop (a : Agent) (code : UopCode) (ops : Operands)
  /-- AUD does the next slot of the Q.FILL it has in progress (44_fifo R210). -/
  | fillSlot
  /-- A reset, released with the given construction parameters (70_reset_and_hazards R330, R331). -/
  | reset (p : Params)
deriving DecidableEq, Repr, Inhabited

/-- The float operations that can be invalid in the sense of IEEE 754 (00_scope R10). -/
inductive FOp where
  | add
  | sub
  | mul
  | div
deriving DecidableEq, Repr

namespace Config

/-- FREE VALUE: `NUM.fsin` (00_scope R10; only the properties of R11 may be assumed, by name). -/
opaque fsin : F → F

/-- FREE VALUE: `NUM.fcos` (00_scope R10). -/
opaque fcos : F → F

/-- FREE VALUE: `NUM.fsqrt` (00_scope R10). -/
opaque fsqrt : F → F

/-- FREE VALUE: the pattern an operation gives where its result is a NaN; the spec states only that
NaNs propagate (93_implementation_defined U31). -/
opaque nanResult : FOp → F → F → F

/-- FREE VALUE: `fmod1` where 00_scope R10 does not define it (an argument that is not finite or is
negative). -/
opaque fmod1Open : F → F

/-- FREE VALUE: the draw of NOISE.UNIFORM (41_noise R151). -/
opaque uniformDraw : Nat → F

/-- FREE VALUE: the draw of NOISE.GAUSSIAN (41_noise R152). -/
opaque gaussianDraw : Nat → F

/-- FREE VALUE: the `data` port of a Q.TRY_POP that finds nothing (44_fifo R209). -/
opaque popData : Nat → BitVec 40

/-- FREE VALUE: the draw of CTR.READ (60_exceptions R312). -/
opaque counterDraw : Nat → Nat

/-- FREE VALUE: the schedule, "the spec fixes no schedule and no relative speed" (00_scope R15). -/
opaque schedule : Nat → Event

/-- FREE VALUE: how many free events pass before the next SYNC agent's turn; any number, so no speed is
fixed, but a finite one (20_memory R66 (d); entry 20). -/
opaque syncDelay : Nat → Nat

/-- FREE VALUE: the draw of a SYNC agent at its turn, brought into the range of 44_fifo R212, R213. -/
opaque syncDraw : Nat → Nat

end Config

end Sys2Proof
end

