-- ==== Sys2Proof/Machine/Float.lean ====
section
/-!
DEFINITION. The float primitives of the numerics record `NUM`, for binary32 (00_scope R9, R10), and
the helpers built from them (R13, R14).

Every finite pattern is an integer multiple of 2^-149. An operation computes its exact result as a
quotient of naturals in that unit and rounds it once (R10: one rounding per primitive).
-/

namespace Sys2Proof.Machine

/-! ## Patterns (00_scope R9) -/

/-- `+0.0`. -/
def posZero : F := 0x00000000#32
/-- `0.5`. -/
def half : F := 0x3F000000#32
/-- `1.0`. -/
def one : F := 0x3F800000#32
/-- `-1.0`. -/
def minusOne : F := 0xBF800000#32
/-- `2.0`. -/
def two : F := 0x40000000#32
/-- `4.0`. -/
def four : F := 0x40800000#32
/-- `16777216.0`, the longest envelope duration (60_exceptions R301 code 3). -/
def maxDur : F := 0x4B800000#32
/-- `PI`, the binary32 value nearest to pi (00_scope R10). -/
def piF : F := 0x40490FDB#32
/-- `TWO_PI`, the binary32 value nearest to 2 pi (00_scope R10). -/
def twoPi : F := 0x40C90FDB#32
/-- The quiet NaN with no other fraction bit. -/
def quietNaN : F := 0x7FC00000#32

/-- The magnitude pattern of infinity; finite magnitudes lie below it, NaNs above. -/
def infMag : Nat := 0x7F800000

/-- The sign bit, bit 31. -/
def isNeg (a : F) : Bool := a.msb

/-- The magnitude pattern, bits 30:0. -/
def fmag (a : F) : Nat := a.toNat % 0x80000000

/-- The value is a NaN. -/
def isNaN (a : F) : Bool := decide (infMag < fmag a)

/-- The value is an infinity. -/
def isInf (a : F) : Bool := decide (fmag a = infMag)

/-- The value is finite. -/
def isFinite (a : F) : Bool := decide (fmag a < infMag)

/-- The pattern with the given sign and magnitude. -/
def ofMag (neg : Bool) (m : Nat) : F := BitVec.ofNat 32 (if neg then 0x80000000 + m else m)

/-- The unit: 2^149 of them make 1.0. -/
def unitScale : Nat := 0x20000000000000000000000000000000000000

/-- The magnitude of a finite value as a number of units 2^-149 (exponent bits 30:23 with bias 127,
fraction bits 22:0). -/
def scaled (a : F) : Nat :=
  let e := fmag a / 0x800000
  let f := fmag a % 0x800000
  if e = 0 then f else (0x800000 + f) <<< (e - 1)

/-! ## Rounding: to nearest, ties to even (00_scope R10) -/

/-- `n / d` rounded to the nearest natural, ties to even. -/
def divNearestEven (n d : Nat) : Nat :=
  let q := n / d
  let r := n % d
  if d < 2 * r then q + 1
  else if 2 * r = d then q + q % 2
  else q

/-- The magnitude pattern nearest to `n / d` units of 2^-149, ties to even; infinity where the
rounded value does not fit. With `sh` the number of bits of the quotient past 24, the result is a
multiple of `2^sh` units, and its pattern is `sh` binades above that of the quotient. -/
def roundMag (n d : Nat) : Nat :=
  let sh := Nat.log2 (n / d) - 23
  min (sh * 0x800000 + divNearestEven n (d <<< sh)) infMag

/-! ## NaN results: a NaN, otherwise free -/

/-- The free value as a NaN: every NaN can result and nothing else can. -/
def asNaN (raw : F) : F := if isNaN raw then raw else quietNaN

/-- The result of an invalid operation, or of one with a NaN operand. -/
def nanOf (op : FOp) (a b : F) : F := asNaN (Config.nanResult op a b)

/-! ## Arithmetic (00_scope R10) -/

/-- `fneg`: the sign bit operation. -/
def fneg (a : F) : F := a ^^^ 0x80000000#32

/-- `fabs`: the sign bit operation. -/
def fabs (a : F) : F := a &&& 0x7FFFFFFF#32

/-- A finite value as an integer number of units. -/
def scaledInt (a : F) : Int := if isNeg a then -(scaled a : Int) else scaled a

/-- The exact sum of two finite values, rounded once. An exact zero is `+0.0` unless both terms are
`-0.0` (IEEE 754, to nearest). -/
def addFinite (a b : F) : F :=
  let z := scaledInt a + scaledInt b
  if z = 0 then ofMag (isNeg a && isNeg b) 0
  else ofMag (decide (z < 0)) (roundMag z.natAbs 1)

/-- The sum of `a` and `b`, for `fadd` and, with `b` negated, for `fsub`; `nan` is its result where
that is a NaN. -/
def addWith (nan a b : F) : F :=
  if isNaN a || isNaN b then nan
  else if isInf a then (if isInf b && isNeg a != isNeg b then nan else a)
  else if isInf b then b
  else addFinite a b

/-- `fadd(a,b)` (00_scope R10). -/
def fadd (a b : F) : F := addWith (nanOf .add a b) a b

/-- `fsub(a,b)` (00_scope R10). -/
def fsub (a b : F) : F := addWith (nanOf .sub a b) a (fneg b)

/-- `fmul(a,b)` (00_scope R10). -/
def fmul (a b : F) : F :=
  let neg := isNeg a != isNeg b
  if isNaN a || isNaN b then nanOf .mul a b
  else if isInf a || isInf b then
    (if fmag a = 0 || fmag b = 0 then nanOf .mul a b else ofMag neg infMag)
  else ofMag neg (roundMag (scaled a * scaled b) unitScale)

/-- `fdiv(a,b)` (00_scope R10). -/
def fdiv (a b : F) : F :=
  let neg := isNeg a != isNeg b
  if isNaN a || isNaN b then nanOf .div a b
  else if isInf a then (if isInf b then nanOf .div a b else ofMag neg infMag)
  else if isInf b then ofMag neg 0
  else if fmag b = 0 then (if fmag a = 0 then nanOf .div a b else ofMag neg infMag)
  else ofMag neg (roundMag (scaled a * unitScale) (scaled b))

/-! ## Comparisons (00_scope R10: any comparison with a NaN returns 0) -/

/-- The value's place in the order of the patterns that are no NaN; both zeros have place 0. -/
def orderKey (a : F) : Int := if isNeg a then -(fmag a : Int) else fmag a

/-- Neither operand is a NaN. -/
def ordered (a b : F) : Bool := !isNaN a && !isNaN b

/-- `flt(a,b)`. -/
def flt (a b : F) : Bool := ordered a b && decide (orderKey a < orderKey b)

/-- `fle(a,b)`. -/
def fle (a b : F) : Bool := ordered a b && decide (orderKey a ≤ orderKey b)

/-- `fge(a,b)`. -/
def fge (a b : F) : Bool := ordered a b && decide (orderKey b ≤ orderKey a)

/-- `feq(a,b)`; `feq(+0.0, -0.0) = 1`. -/
def feq (a b : F) : Bool := ordered a b && decide (orderKey a = orderKey b)

/-- `fmin(a,b)`. -/
def fmin (a b : F) : F := if flt a b then a else b

/-! ## Integer parts (00_scope R10) -/

/-- `itof(n)`: the unsigned integer `n` rounded to F. -/
def itof (n : Nat) : F := ofMag false (roundMag (n * unitScale) 1)

/-- `ffloor(a)`: the largest integer-valued F not above `a`. From magnitude 2^23 on every finite
value is an integer; the rules apply it to finite values only. -/
def ffloor (a : F) : F :=
  if !isFinite a || decide (0x4B000000 ≤ fmag a) then a
  else if isNeg a then
    (if fmag a = 0 then a else fneg (itof ((scaled a + (unitScale - 1)) / unitScale)))
  else itof (scaled a / unitScale)

/-- The value is an integer (60_exceptions R301 code 3). -/
def isInteger (a : F) : Bool := isFinite a && feq (ffloor a) a

/-- The free value of `fmod1` outside its domain, kept in `[0,1)` as 10_state R25 and 40_oscillator
R129 say of every phase. -/
def asPhase (raw : F) : F := if fge raw posZero && flt raw one then raw else posZero

/-- `fmod1(a)`: `fsub(a, ffloor(a))` for finite `a >= 0` (00_scope R10); free in `[0,1)` elsewhere. -/
def fmod1 (a : F) : F :=
  if isFinite a && fge a posZero then fsub a (ffloor a) else asPhase (Config.fmod1Open a)

/-! ## Open functions (00_scope R10, R11) -/

/-- `fsin(a)`. -/
def fsin (a : F) : F := Config.fsin a
/-- `fcos(a)`. -/
def fcos (a : F) : F := Config.fcos a
/-- `fsqrt(a)`. -/
def fsqrt (a : F) : F := Config.fsqrt a

/-! ## Interpolation (00_scope R14) -/

/-- `lerp(a,b,t)`. -/
def lerp (a b t : F) : F := fadd a (fmul (fsub b a) t)

/-- `inverse_lerp(a,b,v)`. -/
def inverseLerp (a b v : F) : F := fdiv (fsub v a) (fsub b a)

/-! ## Complex values (00_scope R13, 20_memory R60) -/

/-- A complex value. -/
structure Complex where
  re : F
  im : F
deriving DecidableEq, Repr, Inhabited

/-- The 64-bit element: `re` in bits 63:32, `im` in bits 31:0 (20_memory R60). -/
def Complex.pack (z : Complex) : Elem := z.re ++ z.im

/-- The complex value of a 64-bit element. -/
def Complex.unpack (e : Elem) : Complex := ⟨e.extractLsb' 32 32, e.extractLsb' 0 32⟩

/-- `cadd`. -/
def cadd (x y : Complex) : Complex := ⟨fadd x.re y.re, fadd x.im y.im⟩

/-- `csub`. -/
def csub (x y : Complex) : Complex := ⟨fsub x.re y.re, fsub x.im y.im⟩

/-- `cmul`: four multiplies, one subtract, one add, no fusing. -/
def cmul (x y : Complex) : Complex :=
  ⟨fsub (fmul x.re y.re) (fmul x.im y.im), fadd (fmul x.re y.im) (fmul x.im y.re)⟩

end Sys2Proof.Machine
end

