-- ==== Sys2Proof/Machine/Operands.lean ====
section
/-!
DEFINITION. The operand forms: the fields of a command argument (30_encoding R93), the selectors of
the operation ports (R98), the owners of the queue sides (60_exceptions R320), and the gains that
00_scope R7 fixes.
-/

namespace Sys2Proof.Machine

/-! ## The command argument (30_encoding R93) -/

/-- `f = floatF(arg[31:0])`: the float whose pattern is the whole argument. -/
def argFloat (arg : BitVec 32) : F := arg

/-- `id = arg[7:0]`; `arg[31:8]` is ignored. -/
def argId (arg : BitVec 32) : BitVec 8 := arg.extractLsb' 0 8

/-! ## Selectors (30_encoding R98; 3 is reserved, R101) -/

/-- The queue a 2-bit selector names. -/
def queueOf (q : BitVec 2) : Option QueueId :=
  match q.toNat with
  | 0 => some .out
  | 1 => some .viz
  | 2 => some .cmd
  | _ => none

/-- The counters of 10_state R42. -/
inductive CounterId where
  | outDrops
  | vizDrops
  | outUnderflows
deriving DecidableEq, Repr

/-- The counter a 2-bit selector names. -/
def counterOf (c : BitVec 2) : Option CounterId :=
  match c.toNat with
  | 0 => some .outDrops
  | 1 => some .vizDrops
  | 2 => some .outUnderflows
  | _ => none

/-! ## Owners (60_exceptions R320; 10_state R36) -/

/-- The one agent that may push on a queue. -/
def producer : QueueId → Agent
  | .out => .syn
  | .viz => .syn
  | .cmd => .vis

/-- The one agent that may pop from a queue. -/
def consumer : QueueId → Agent
  | .out => .aud
  | .viz => .vis
  | .cmd => .syn

/-! ## Elements (10_state R38, 20_memory R60) -/

/-- The element an agent drives on the 40-bit `v` port; the array keeps as many low bits as its
elements have (30_encoding R98: `v` has the element width of the queue). -/
def portElem (v : BitVec 40) : Elem := v.setWidth 64

/-- A sample as an element. -/
def sampleElem (y : F) : Elem := y.setWidth 64

/-- The sample in an element: bits 31:0. -/
def elemSample (e : Elem) : F := e.extractLsb' 0 32

/-- The command word in an element: bits 39:0. -/
def elemCmd (e : Elem) : CmdWord := e.extractLsb' 0 40

/-! ## Gains fixed by 00_scope R7 -/

/-- `ATTACK_START`. -/
def attackStart : F := posZero
/-- `ATTACK_END`. -/
def attackEnd : F := one
/-- `DECAY_START`. -/
def decayStart : F := one
/-- `RELEASE_END`. -/
def releaseEnd : F := posZero

/-! ## Lengths -/

/-- The smallest power of two at or above `L`; 0 for 0 (45_fft R231). -/
def paddedLength (L : Nat) : Nat :=
  if L = 0 then 0 else if L = 1 then 1 else 2 ^ (Nat.log2 (L - 1) + 1)

end Sys2Proof.Machine
end

