-- ==== Sys2Proof/Machine/Construction.lean ====
section
/-!
DEFINITION. The construction check (60_exceptions R301, 70_reset_and_hazards R331): which fault, if
any, a parameter set raises at the release of reset.
-/

namespace Sys2Proof.Machine

/-- The causes of `ConfigFault`, in the order in which they are tested (60_exceptions R301). -/
inductive ConfigFault where
  | badSampleRate
  | badTickPeriod
  | badEnvDuration
  | badSustainLevel
  | badQueueCapacity
  | badTsNumerator
  | badBlockSize
  | badFftMaxN
  | badSquareAmplitude
deriving DecidableEq, Repr

/-- The cause code that `cfg.fault` records (60_exceptions R301). -/
def ConfigFault.code : ConfigFault → BitVec 8
  | .badSampleRate => 1#8
  | .badTickPeriod => 2#8
  | .badEnvDuration => 3#8
  | .badSustainLevel => 4#8
  | .badQueueCapacity => 5#8
  | .badTsNumerator => 6#8
  | .badBlockSize => 7#8
  | .badFftMaxN => 8#8
  | .badSquareAmplitude => 9#8

/-- Finite and above zero (codes 1 and 9; false of a NaN). -/
def finitePositive (a : F) : Bool := isFinite a && flt posZero a

/-- A legal envelope duration: integer-valued, `1.0 .. 16777216.0` (code 3). -/
def legalDuration (a : F) : Bool := isInteger a && fge a one && fle a maxDur

/-- A legal sustain level (code 4). -/
def legalSustain (p : Params) : Bool :=
  fge p.sustainLevel posZero && fle p.sustainLevel one &&
    !(decide (p.releaseMode = .forced) && feq p.sustainLevel posZero)

/-- A power of two (code 8). -/
def isPowerOfTwo (n : Nat) : Bool := decide (n ≠ 0) && decide (2 ^ Nat.log2 n = n)

/-- The construction check: "tests the conditions in the order of the table and raises the first
that holds" (60_exceptions R301). -/
def firstFault (p : Params) : Option ConfigFault :=
  if !finitePositive p.sampleRate then some .badSampleRate
  else if p.tickPeriod = 0#64 then some .badTickPeriod
  else if !(legalDuration p.attackDur && legalDuration p.decayDur && legalDuration p.releaseDur) then
    some .badEnvDuration
  else if !legalSustain p then some .badSustainLevel
  else if p.outCap = 0 ∨ p.vizCap = 0 ∨ p.cmdCap = 0 then some .badQueueCapacity
  else if p.tsNumerator = 0#32 ∨ p.tsDenominator = 0#32 then some .badTsNumerator
  else if p.blockSize = 0 then some .badBlockSize
  else if !isPowerOfTwo p.fftMaxN then some .badFftMaxN
  else if !finitePositive p.aSq then some .badSquareAmplitude
  else none

/-- The value `cfg.fault` takes at the release of reset: 0 if the check passes, else the fault code
(10_state R43, R45). -/
def faultCode (p : Params) : BitVec 8 :=
  match firstFault p with
  | none => 0#8
  | some c => c.code

/-- Parameter set G of 95_test_vectors V-X1, with `DEFAULT_DUTY` and `ENV_GATE` at the defaults of
00_scope R7. DESIGN CHOICE (entry 1): the set from which `State.reset` is released. -/
def Params.setG : Params where
  sampleRate := 0x472C4400#32
  aSq := one
  defaultDuty := half
  attackDur := four
  decayDur := two
  releaseDur := four
  sustainLevel := half
  releaseMode := .noOp
  envGate := true
  tickPeriod := 4#64
  clickWindow := 1#64
  tsNumerator := 2#32
  tsDenominator := 4#32
  outCap := 8
  vizCap := 8
  cmdCap := 4
  blockSize := 4
  fftMaxN := 1024

end Sys2Proof.Machine
end

