-- ==== Sys2Proof/Machine/Memory.lean ====
section
/-!
DEFINITION. The storage arrays (20_memory R60, R61): five element-addressed arrays, each a list of
(index, element) pairs with the indices strictly rising. An unlisted index reads as no value: no write
to it has happened since reset, and "a model treats it as a fault" (R61).
-/

namespace Sys2Proof.Machine

/-- An array's written elements, indices strictly rising. -/
abbrev Arr (α : Type) := List (Nat × α)

/-- The element at an index, none where nothing was written. -/
def Arr.get {α : Type} : Arr α → Nat → Option α
  | [], _ => none
  | (j, v) :: rest, i => if i = j then some v else Arr.get rest i

/-- The array after a write; the indices stay strictly rising. -/
def Arr.put {α : Type} : Arr α → Nat → α → Arr α
  | [], i, v => [(i, v)]
  | (j, u) :: rest, i, v =>
    if i < j then (i, v) :: (j, u) :: rest
    else if i = j then (i, v) :: rest
    else (j, u) :: Arr.put rest i v

/-- The canonical form: indices strictly rising. -/
def Arr.wf {α : Type} : Arr α → Bool
  | [] => true
  | [_] => true
  | (i, _) :: (j, v) :: rest => decide (i < j) && Arr.wf ((j, v) :: rest)

/-- The five arrays (20_memory R60). -/
structure Memory where
  /-- `OUT.mem`, 32-bit elements. -/
  out : List (Nat × BitVec 32)
  /-- `VIZ.mem`, 32-bit elements. -/
  viz : List (Nat × BitVec 32)
  /-- `CMD.mem`, 40-bit elements. -/
  cmd : List (Nat × BitVec 40)
  /-- `fft.A`, 64-bit elements. -/
  fftA : List (Nat × BitVec 64)
  /-- `fft.B`, 64-bit elements. -/
  fftB : List (Nat × BitVec 64)
deriving DecidableEq, Repr

/-- Nothing written: the arrays after reset (10_state R38, R41, R45). -/
def Memory.unwritten : Memory := ⟨[], [], [], [], []⟩

/-- The canonical form of all five arrays. -/
def Memory.wf (m : Memory) : Bool :=
  Arr.wf m.out && Arr.wf m.viz && Arr.wf m.cmd && Arr.wf m.fftA && Arr.wf m.fftB

/-- The element at an index, in the low bits of an `Elem`. -/
def Memory.get (m : Memory) (a : ArrayId) (i : Nat) : Option Elem :=
  match a with
  | .ring .out => (Arr.get m.out i).map (BitVec.setWidth 64)
  | .ring .viz => (Arr.get m.viz i).map (BitVec.setWidth 64)
  | .ring .cmd => (Arr.get m.cmd i).map (BitVec.setWidth 64)
  | .fftA => Arr.get m.fftA i
  | .fftB => Arr.get m.fftB i

/-- The arrays after one whole element is written (20_memory R60, R64). -/
def Memory.put (m : Memory) (a : ArrayId) (i : Nat) (v : Elem) : Memory :=
  match a with
  | .ring .out => { m with out := Arr.put m.out i (v.setWidth 32) }
  | .ring .viz => { m with viz := Arr.put m.viz i (v.setWidth 32) }
  | .ring .cmd => { m with cmd := Arr.put m.cmd i (v.setWidth 40) }
  | .fftA => { m with fftA := Arr.put m.fftA i v }
  | .fftB => { m with fftB := Arr.put m.fftB i v }

/-- The bits of an array's element (20_memory R60). -/
def elemMask : ArrayId → Elem
  | .ring .out => 0x00000000FFFFFFFF#64
  | .ring .viz => 0x00000000FFFFFFFF#64
  | .ring .cmd => 0x000000FFFFFFFFFF#64
  | .fftA => 0xFFFFFFFFFFFFFFFF#64
  | .fftB => 0xFFFFFFFFFFFFFFFF#64

/-- The number of elements of an array (20_memory R60). -/
def arraySize (p : Params) : ArrayId → Nat
  | .ring q => p.cap q
  | .fftA => p.fftMaxN
  | .fftB => p.fftMaxN

end Sys2Proof.Machine
end

