-- ==== Sys2Proof/Machine/Units.lean ====
section
/-!
DEFINITION. The registers of each unit (10_state R22 to R43), their encodings, and their values after
reset (R45), given a parameter set.
-/

namespace Sys2Proof.Machine

/-! ## Oscillator (10_state R22 to R25) -/

/-- `osc.wave_type`: the values a rule can write (10_state R23, 30_encoding R94, R95). -/
inductive WaveType where
  | sine
  | sawtooth
  | square
  | triangle
  | fastSine
deriving DecidableEq, Repr

/-- The 3-bit code of a waveform (10_state R23). -/
def WaveType.code : WaveType → BitVec 3
  | .sine => 0#3
  | .sawtooth => 1#3
  | .square => 2#3
  | .triangle => 3#3
  | .fastSine => 4#3

/-- The waveform of an id; ids 5 to 255 are unknown (30_encoding R94, R95). -/
def waveOf (id : BitVec 8) : Option WaveType :=
  match id.toNat with
  | 0 => some .sine
  | 1 => some .sawtooth
  | 2 => some .square
  | 3 => some .triangle
  | 4 => some .fastSine
  | _ => none

/-- The oscillator registers. -/
structure Osc where
  /-- `osc.frequency` (R22). -/
  frequency : F
  /-- `osc.wave_type` (R23). -/
  waveType : WaveType
  /-- `osc.duty` (R24). -/
  duty : F
  /-- `osc.phase` (R25), in turns. -/
  phase : F
deriving DecidableEq, Repr

/-- Reset values (R45). -/
def oscAtReset (p : Params) : Osc := ⟨posZero, .sine, p.defaultDuty, posZero⟩

/-! ## Envelope (10_state R28 to R30) -/

/-- `env.state`: the values with an encoding (10_state R28). -/
inductive EnvState where
  | idle
  | attack
  | decay
  | sustain
  | release
deriving DecidableEq, Repr

/-- The 3-bit code of an envelope state (10_state R28). -/
def EnvState.code : EnvState → BitVec 3
  | .idle => 0#3
  | .attack => 1#3
  | .decay => 2#3
  | .sustain => 3#3
  | .release => 4#3

/-- The envelope registers. -/
structure Env where
  /-- `env.state` (R28). -/
  state : EnvState
  /-- `env.volume` (R29). -/
  volume : F
  /-- `env.tick` (R30). -/
  tick : F
deriving DecidableEq, Repr

/-- Reset values (R45). -/
def envAtReset : Env := ⟨.idle, posZero, posZero⟩

/-! ## Metronome and time signature (10_state R32 to R35) -/

/-- The metronome and time-signature registers. -/
structure Met where
  /-- `met.sample_count` (R32). -/
  sampleCount : BitVec 64
  /-- `met.beat_index` (R33). -/
  beatIndex : BitVec 64
  /-- `met.show_beat` (R34). -/
  showBeat : Bool
  /-- `ts.accent` (R35). -/
  accent : Bool
deriving DecidableEq, Repr

/-- Reset values (R45). -/
def metAtReset : Met := ⟨0#64, 0#64, false, false⟩

/-! ## Queue cursors (10_state R36) -/

/-- The four cursors of a queue, each counting modulo `2·C` (R36, 44_fifo R211). -/
structure Cursors where
  /-- `q.w`. -/
  w : Nat
  /-- `q.r`. -/
  r : Nat
  /-- `q.w_sync`, the consumer's copy of `q.w`. -/
  wSync : Nat
  /-- `q.r_sync`, the producer's copy of `q.r`. -/
  rSync : Nat
deriving DecidableEq, Repr

/-- Reset values: "every queue empty" (R45). -/
def cursorsAtReset : Cursors := ⟨0, 0, 0, 0⟩

/-! ## Sequencer (10_state R39, R40) -/

/-- `syn.noise_sel`: the values a rule can write (R39, 30_encoding R96). -/
inductive NoiseSel where
  | none
  | uniform
  | gaussian
deriving DecidableEq, Repr

/-- The 2-bit code of a noise selection (R39). -/
def NoiseSel.code : NoiseSel → BitVec 2
  | .none => 0#2
  | .uniform => 1#2
  | .gaussian => 2#2

/-- The noise of an id; ids 3 to 255 are unknown (30_encoding R96). -/
def noiseOf (id : BitVec 8) : Option NoiseSel :=
  match id.toNat with
  | 0 => some .none
  | 1 => some .uniform
  | 2 => some .gaussian
  | _ => Option.none

/-- `syn.phase` (R40). -/
inductive SynPhase where
  | drain
  | gen
deriving DecidableEq, Repr

/-- The 1-bit code of a sequencer phase (R40). -/
def SynPhase.code : SynPhase → BitVec 1
  | .drain => 0#1
  | .gen => 1#1

/-- Where SYN stands inside a sample step. MODEL's own (entry 4): "each push is one atomic step in
the order shown (steps of other agents may fall between them)" (46_sequencer_commands R270). -/
inductive GenStage where
  /-- The units are to be advanced next. -/
  | compute
  /-- `y` is to be pushed on OUT next. -/
  | pushOut (y : F)
  /-- `y` is to be pushed on VIZ next. -/
  | pushViz (y : F)
deriving DecidableEq, Repr

/-- The sequencer registers. -/
structure Syn where
  /-- `syn.running` (R39). -/
  running : Bool
  /-- `syn.noise_sel` (R39). -/
  noiseSel : NoiseSel
  /-- `syn.phase` (R40). -/
  phase : SynPhase
  /-- `syn.pos` (R40), `0 .. BLOCK_SIZE`. -/
  pos : Nat
  /-- `syn.drained` (R40), `0 .. CMD_CAP`. -/
  drained : Nat
  /-- `syn.sample_count` (R40). -/
  sampleCount : BitVec 64
  /-- MODEL's own (entry 4). -/
  stage : GenStage
deriving DecidableEq, Repr

/-- Reset values (R45); the stage is a DESIGN CHOICE (entry 4). -/
def synAtReset : Syn := ⟨false, .none, .drain, 0, 0, 0#64, .compute⟩

/-! ## Counters (10_state R42, 60_exceptions R312) -/

/-- One value per instrumentation counter: the counters themselves (R42), or what one reader last
got for each, `last_v` (60_exceptions R312). -/
structure Counters where
  outDrops : BitVec 32
  vizDrops : BitVec 32
  outUnderflows : BitVec 32
deriving DecidableEq, Repr

/-- Reset values (R45); a reader that has read nothing has `last_v = 0` (R312). -/
def countersAtReset : Counters := ⟨0#32, 0#32, 0#32⟩

/-- The value for one counter. -/
def Counters.get (c : Counters) : CounterId → BitVec 32
  | .outDrops => c.outDrops
  | .vizDrops => c.vizDrops
  | .outUnderflows => c.outUnderflows

/-- The record with the value for one counter replaced. -/
def Counters.set (c : Counters) (k : CounterId) (v : BitVec 32) : Counters :=
  match k with
  | .outDrops => { c with outDrops := v }
  | .vizDrops => { c with vizDrops := v }
  | .outUnderflows => { c with outUnderflows := v }

/-! ## Configuration (10_state R43, 70_reset_and_hazards R331) -/

/-- What construction leaves: the sampled parameters (R331) and `cfg.fault` (R43). -/
structure Cfg where
  params : Params
  fault : BitVec 8
deriving DecidableEq, Repr

/-! ## Q.FILL in progress (44_fifo R210) -/

/-- AUD's Q.FILL: the slots still to do and the slots done. MODEL's own (entry 5): "Q.FILL is not
atomic: it is `n` separate pop steps". -/
structure AudFill where
  left : Nat
  block : List F
deriving DecidableEq, Repr

/-- No fill in progress. -/
def audAtReset : AudFill := ⟨0, []⟩

/-! ## The turns of the SYNC agents (20_memory R66 (d)) -/

/-- Whose turn among the SYNC agents comes next, and how many free events pass before it. MODEL's own
(entry 20). -/
structure Rota where
  wait : Nat
  turn : SyncAgent
deriving DecidableEq, Repr

/-- DESIGN CHOICE (entry 20). -/
def rotaAtReset : Rota := ⟨0, ⟨.out, .read⟩⟩

/-! ## Ports (30_encoding R98) -/

/-- The issuing agent and the operand ports of the operation last presented. MODEL's own (entry 6); an
operation performed within an agent's own sequence leaves them as they are (entry 28). -/
structure Port where
  agent : Agent
  ops : Operands
deriving DecidableEq, Repr

/-- DESIGN CHOICE (entry 6). -/
def portAtReset : Port := ⟨.syn, {}⟩

/-- The result ports of one queue. -/
structure QResults where
  /-- `accepted` of Q.TRY_PUSH. -/
  accepted : Bool
  /-- `valid` of Q.TRY_POP. -/
  valid : Bool
  /-- `data` of Q.TRY_POP. -/
  data : BitVec 40
deriving DecidableEq, Repr

/-- The result ports (R98), each holding what was last driven on it. MODEL's own (entry 6). -/
structure Results where
  /-- `sample` of OSC.RUN. -/
  oscSample : F
  /-- `sample` of NOISE.UNIFORM and NOISE.GAUSSIAN. -/
  noiseSample : F
  /-- `volume` of ENV.UPDATE. -/
  volume : F
  /-- `beat` of MET.GET_BEAT_INDEX. -/
  beat : BitVec 32
  /-- `accent` of TS.ACCENT. -/
  accent : Bool
  /-- OUT's ports. -/
  outQ : QResults
  /-- VIZ's ports. -/
  vizQ : QResults
  /-- CMD's ports. -/
  cmdQ : QResults
  /-- `status` of FFT.TRANSFORM. -/
  fftStatus : BitVec 1
  /-- `N` of FFT.TRANSFORM. -/
  fftLength : Nat
  /-- `X[0 .. N-1]` of FFT.TRANSFORM. -/
  fftX : List Elem
  /-- `bins[0 .. N/2-1]` of FFT.MAG, pairs (freq, mag). -/
  bins : List (F × F)
  /-- `count` of CTR.READ as AUD sees it. -/
  audCount : BitVec 32
  /-- `count` of CTR.READ as VIS sees it. -/
  visCount : BitVec 32
deriving DecidableEq, Repr

/-- DESIGN CHOICE (entry 6). -/
def qResultsAtReset : QResults := ⟨false, false, 0#40⟩

/-- DESIGN CHOICE (entry 6). -/
def resultsAtReset : Results where
  oscSample := posZero
  noiseSample := posZero
  volume := posZero
  beat := 0#32
  accent := false
  outQ := qResultsAtReset
  vizQ := qResultsAtReset
  cmdQ := qResultsAtReset
  fftStatus := 0#1
  fftLength := 0
  fftX := []
  bins := []
  audCount := 0#32
  visCount := 0#32

/-- The result ports of a queue. -/
def Results.queue (r : Results) : QueueId → QResults
  | .out => r.outQ
  | .viz => r.vizQ
  | .cmd => r.cmdQ

/-- The result ports with those of one queue replaced. -/
def Results.setQueue (r : Results) (q : QueueId) (x : QResults) : Results :=
  match q with
  | .out => { r with outQ := x }
  | .viz => { r with vizQ := x }
  | .cmd => { r with cmdQ := x }

end Sys2Proof.Machine
end

