-- ==== Sys2Proof/Machine/State.lean ====
section
/-!
DEFINITION. The state of the machine, as plain data (10_state R20 to R45, 20_memory R60), why a step
can stop, and the state after reset. INVENTORY.md lists every piece with its rule.
-/

namespace Sys2Proof.Machine

/-- Why the machine stops. -/
inductive Fault where
  /-- Raised by `step` for every event but a reset while `cfg.fault` is not 0: "no step of SYN, AUD,
  VIS or a SYNC agent is enabled" (60_exceptions R302). Safe: the hardware is stuck too. -/
  | held (code : BitVec 8)
  /-- Raised by the memory operations on an element that nothing has written since reset: "a model
  treats it as a fault" (20_memory R61). Safe: the value is not defined. -/
  | unwrittenElement (a : ArrayId) (i : Nat)
  /-- Raised by the memory operations on an index outside the array, which no rule produces
  (20_memory R61). Safe: no such element exists. -/
  | outsideArray (a : ArrayId) (i : Nat)
deriving DecidableEq, Repr

/-- What the model gives no meaning: the out-of-contract inputs of 60_exceptions R305, which "a model
refuses". All are safe: the spec defines no behaviour there. -/
inductive Refusal where
  /-- Raised by an arm of `exec` whose instruction has no meaning yet. Safe. -/
  | notModelled (mnemonic : String)
  /-- Raised by every unit operation when an agent that does not own it issues it (60_exceptions
  R320). Safe. -/
  | notOwner (a : Agent)
  /-- Raised by the step that presents a unit with a code R97 does not list (30_encoding R101). Safe. -/
  | reservedCode (c : UopCode)
  /-- Raised by Q.TRY_PUSH, Q.TRY_POP and CTR.READ on selector value 3 (30_encoding R101). Safe. -/
  | reservedSelector
  /-- Raised by Q.FILL when the queue selector names another queue than OUT (30_encoding R101). Safe. -/
  | fillNotOnOut
  /-- Raised by OSC.SET_FREQUENCY and CHANGE_FREQUENCY on a frequency that is negative, NaN or
  infinite (40_oscillator R133). Safe. -/
  | badFrequency (f : F)
  /-- Raised by OSC.SET_WAVE_TYPE on a NaN duty (40_oscillator R133). Safe. -/
  | nanDuty (d : F)
  /-- Raised by MET.GET_BEAT_INDEX when the beat index needs more than 32 bits (43_metronome R193).
  Safe. -/
  | beatIndexTooWide (b : BitVec 64)
deriving DecidableEq, Repr

/-- The machine's state. -/
structure State where
  /-- `osc.*` (10_state R22 to R25). -/
  osc : Osc
  /-- `env.*` (R28 to R30). -/
  env : Env
  /-- `met.*` and `ts.accent` (R32 to R35). -/
  met : Met
  /-- The cursors of OUT (R36). -/
  outQ : Cursors
  /-- The cursors of VIZ (R36). -/
  vizQ : Cursors
  /-- The cursors of CMD (R36). -/
  cmdQ : Cursors
  /-- The five storage arrays (R38, R41, 20_memory R60). -/
  mem : Memory
  /-- `syn.*` (R39, R40). -/
  syn : Syn
  /-- `fft.n` (R41). -/
  fftN : Nat
  /-- `ctr.*` (R42). -/
  ctr : Counters
  /-- `last_v` of AUD (60_exceptions R312). -/
  audSeen : Counters
  /-- `last_v` of VIS (60_exceptions R312). -/
  visSeen : Counters
  /-- The sampled construction parameters (70_reset_and_hazards R331) and `cfg.fault` (R43). -/
  cfg : Cfg
  /-- AUD's Q.FILL in progress (44_fifo R210; entry 5). -/
  aud : AudFill
  /-- MODEL's own: the issuing agent and the operand ports (30_encoding R98; entries 6, 28). -/
  port : Port
  /-- MODEL's own: the result ports (30_encoding R98; entry 6). -/
  res : Results
  /-- MODEL's own: the events already fixed from outside, oldest first (00_scope R15; entry 2). -/
  agenda : List Event
  /-- MODEL's own: steps taken, the argument of the free schedule (entry 2). -/
  ticks : Nat
  /-- MODEL's own: the turns of the SYNC agents (20_memory R66 (d); entry 20). -/
  rota : Rota
  /-- MODEL's own: free values used, the argument of the free draws (entry 7). -/
  draws : Nat
deriving DecidableEq, Repr

/-! ## Named updates: one per field -/

def State.withOsc (s : State) (x : Osc) : State := { s with osc := x }
def State.withEnv (s : State) (x : Env) : State := { s with env := x }
def State.withMet (s : State) (x : Met) : State := { s with met := x }
def State.withMem (s : State) (x : Memory) : State := { s with mem := x }
def State.withSyn (s : State) (x : Syn) : State := { s with syn := x }
def State.withFftN (s : State) (x : Nat) : State := { s with fftN := x }
def State.withCtr (s : State) (x : Counters) : State := { s with ctr := x }
def State.withAudSeen (s : State) (x : Counters) : State := { s with audSeen := x }
def State.withVisSeen (s : State) (x : Counters) : State := { s with visSeen := x }
def State.withCfg (s : State) (x : Cfg) : State := { s with cfg := x }
def State.withAud (s : State) (x : AudFill) : State := { s with aud := x }
def State.withPort (s : State) (x : Port) : State := { s with port := x }
def State.withRes (s : State) (x : Results) : State := { s with res := x }
def State.withAgenda (s : State) (x : List Event) : State := { s with agenda := x }
def State.withTicks (s : State) (x : Nat) : State := { s with ticks := x }
def State.withRota (s : State) (x : Rota) : State := { s with rota := x }
def State.withDraws (s : State) (x : Nat) : State := { s with draws := x }

/-- The cursors of a queue. -/
def State.cur (s : State) : QueueId → Cursors
  | .out => s.outQ
  | .viz => s.vizQ
  | .cmd => s.cmdQ

/-- The state with the cursors of a queue replaced. -/
def State.withCur (s : State) (q : QueueId) (c : Cursors) : State :=
  match q with
  | .out => { s with outQ := c }
  | .viz => { s with vizQ := c }
  | .cmd => { s with cmdQ := c }

/-- The capacity `C` of a queue. -/
def State.cap (s : State) (q : QueueId) : Nat := s.cfg.params.cap q

/-! ## Reset -/

/-- The reset table (10_state R45) for a parameter set, with no construction fault recorded. -/
def State.atReset (p : Params) : State where
  osc := oscAtReset p
  env := envAtReset
  met := metAtReset
  outQ := cursorsAtReset
  vizQ := cursorsAtReset
  cmdQ := cursorsAtReset
  mem := Memory.unwritten
  syn := synAtReset
  fftN := 0
  ctr := countersAtReset
  audSeen := countersAtReset
  visSeen := countersAtReset
  cfg := ⟨p, 0#8⟩
  aud := audAtReset
  port := portAtReset
  res := resultsAtReset
  agenda := []
  ticks := 0
  rota := rotaAtReset
  draws := 0

/-- The machine right after a reset that was released with parameter set G, which passes the
construction check (10_state R45, 95_test_vectors V-X2; DESIGN CHOICE, entry 1). -/
def State.reset : State := State.atReset Params.setG

end Sys2Proof.Machine
end

