-- ==== Sys2Proof/Machine/Flags.lean ====
section
/-!
DEFINITION. The one-bit status values (10_state R44) and the arithmetic of cursors and counters from
which they come (44_fifo R211, 10_state R37, R42).
-/

namespace Sys2Proof.Machine

/-! ## Metronome flags (43_metronome R192) -/

/-- `met.show_beat`: `(e mod TICK_PERIOD) < CLICK_WINDOW`. -/
def showBeatFlag (p : Params) (e : BitVec 64) : Bool :=
  decide (e.toNat % p.tickPeriod.toNat < p.clickWindow.toNat)

/-- `met.beat_index`: `e div TICK_PERIOD`. -/
def beatOf (p : Params) (e : BitVec 64) : BitVec 64 :=
  BitVec.ofNat 64 (e.toNat / p.tickPeriod.toNat)

/-- `ts.accent`: `(b mod TS_NUMERATOR) = 0`. -/
def accentFlag (p : Params) (b : BitVec 64) : Bool :=
  decide (b.toNat % p.tsNumerator.toNat = 0)

/-! ## Queue conditions (10_state R37, R44, 44_fifo R211) -/

/-- `(a - b) mod m`, for cursors of any value. -/
def modSub (a b m : Nat) : Nat := (a + (m - b % m)) % m

/-- `occ(q) = (q.w - q.r) mod 2C`, the true occupancy. -/
def occ (C : Nat) (c : Cursors) : Nat := modSub c.w c.r (2 * C)

/-- `occ_p(q) = (q.w - q.r_sync) mod 2C`, the occupancy the producer sees. -/
def occP (C : Nat) (c : Cursors) : Nat := modSub c.w c.rSync (2 * C)

/-- `avail_c(q) = (q.w_sync - q.r) mod 2C`, the availability the consumer sees. -/
def availC (C : Nat) (c : Cursors) : Nat := modSub c.wSync c.r (2 * C)

/-- `full_p(q)`: `occ_p(q) = C` (R44). A larger value is not reachable (R37) and counts as full. -/
def fullP (C : Nat) (c : Cursors) : Bool := decide (C ≤ occP C c)

/-- `empty_c(q)`: `avail_c(q) = 0` (R44). -/
def emptyC (C : Nat) (c : Cursors) : Bool := decide (availC C c = 0)

/-- The value of a cursor `k` places on, counting modulo `2·C` (44_fifo R211). -/
def advance (C x k : Nat) : Nat := (x + k) % (2 * C)

/-! ## Counters (10_state R42) -/

/-- `min(c + 1, 0xFFFFFFFF)`: saturating increment. -/
def satInc (c : BitVec 32) : BitVec 32 := if c = 0xFFFFFFFF#32 then c else c + 1#32

/-! ## Construction (10_state R43, R44) -/

/-- `cfg.fault != 0`: the core is held. -/
def isHeld (s : State) : Bool := decide (s.cfg.fault ≠ 0#8)

end Sys2Proof.Machine
end

