-- ==== Sys2Proof/Machine/Ops.lean ====
section
/-!
DEFINITION. The named operations over memory and registers that the meanings share: reading and
writing an array element (20_memory R61), taking the one exception and leaving it
(60_exceptions R300 to R303), ownership (R320), and the result ports (30_encoding R98).
-/

namespace Sys2Proof.Machine

/-- The outcome of a step. -/
abbrev Result := Host.Outcome State Fault Refusal

/-- The outcome of an operation that ends in a next state or in a fault. -/
def done (r : Except Fault State) : Result :=
  match r with
  | .ok s => .next s
  | .error f => .fault f

/-! ## Memory (20_memory R60, R61) -/

/-- `MemRead(S[i], 1)`: the element last written; a fault where nothing was written or no element
exists. -/
def readElem (p : Params) (m : Memory) (a : ArrayId) (i : Nat) : Except Fault Elem :=
  if i < arraySize p a then
    match m.get a i with
    | some e => .ok e
    | none => .error (.unwrittenElement a i)
  else .error (.outsideArray a i)

/-- `MemWrite(S[i], 1, v)`. -/
def writeElem (p : Params) (m : Memory) (a : ArrayId) (i : Nat) (v : Elem) : Except Fault Memory :=
  if i < arraySize p a then .ok (m.put a i v) else .error (.outsideArray a i)

/-! ## The construction fault (60_exceptions R300 to R303) -/

/-- `raise ConfigFault(code)`: fault entry. `cfg.fault <- code`; there is no handler, no vector and no
saved state (R302). -/
def raiseConfigFault (c : ConfigFault) (s : State) : State :=
  s.withCfg { s.cfg with fault := c.code }

/-- Reset released with a parameter set: every register at its reset value, the parameters sampled,
the construction check run and its fault, if any, taken (70_reset_and_hazards R330, R331). -/
def construct (p : Params) : State :=
  match firstFault p with
  | none => State.atReset p
  | some c => raiseConfigFault c (State.atReset p)

/-- A reset while the machine runs or is held: the only way out of a fault (60_exceptions R303). What
lies outside the core goes on: the agenda, the turns of the SYNC agents, and the counts that number
the free values (entry 18). -/
def resetWith (p : Params) (s : State) : State :=
  ((((construct p).withAgenda s.agenda).withTicks s.ticks).withRota s.rota).withDraws s.draws

/-! ## Ownership (60_exceptions R320, R305) -/

/-- The outcome of an operation that only agent `a` may issue: refused for another agent. -/
def ifOwner (a : Agent) (s : State) (r : Result) : Result :=
  if s.port.agent = a then r else .refused (.notOwner s.port.agent)

/-! ## Result ports (30_encoding R98) -/

/-- Drive `accepted` of a queue. -/
def driveAccepted (q : QueueId) (b : Bool) (s : State) : State :=
  s.withRes (s.res.setQueue q { s.res.queue q with accepted := b })

/-- Drive `valid` and `data` of a queue. -/
def drivePopped (q : QueueId) (b : Bool) (d : BitVec 40) (s : State) : State :=
  s.withRes (s.res.setQueue q { s.res.queue q with valid := b, data := d })

/-- Count one more free value as used (entry 7). -/
def spendDraw (s : State) : State := s.withDraws (s.draws + 1)

end Sys2Proof.Machine
end

