-- ==== Sys2Proof/Machine/Envelope.lean ====
section
/-!
DEFINITION. The envelope state machine: ENV.PRESS, ENV.RELEASE, ENV.UPDATE
(42_envelope R160 to R172).
-/

namespace Sys2Proof.Machine

/-- A segment: gains at its ends, duration, and the state after it (R161). -/
structure Segment where
  a : F
  b : F
  dur : F
  next : EnvState
deriving DecidableEq, Repr

/-- The segment of a state; Idle and Sustain have none (R161, R169, R170). -/
def segmentOf (p : Params) : EnvState → Option Segment
  | .attack => some ⟨attackStart, attackEnd, p.attackDur, .decay⟩
  | .decay => some ⟨decayStart, p.sustainLevel, p.decayDur, .release⟩
  | .release => some ⟨p.sustainLevel, releaseEnd, p.releaseDur, .idle⟩
  | .idle => none
  | .sustain => none

/-- ENV.PRESS on the registers: from Idle (R162), from any other state (R163). -/
def pressEnv (p : Params) (e : Env) : Env :=
  match e.state with
  | .idle => { e with state := .attack, tick := posZero }
  | .attack | .decay | .sustain | .release =>
    { e with
      state := .attack
      tick := fmul (inverseLerp attackStart attackEnd e.volume) p.attackDur }

/-- The tick at which the release line has the given volume (R164, Forced). -/
def releaseTick (p : Params) (volume : F) : F :=
  fmul (inverseLerp p.sustainLevel releaseEnd volume) p.releaseDur

/-- ENV.RELEASE on the registers (R164). -/
def releaseEnv (p : Params) (e : Env) : Env :=
  match p.releaseMode with
  | .noOp => e
  | .forced =>
    match e.state with
    | .attack | .decay | .sustain =>
      { e with state := .release, tick := releaseTick p e.volume }
    | .idle | .release => e

/-- One update along a segment (R165): advance, interpolate with the parameter clamped to 1, then the
transition that is due. -/
def updateAlong (g : Segment) (e : Env) : Env :=
  let k := fadd e.tick one
  let v := lerp g.a g.b (fmin (fdiv k g.dur) one)
  if fge k g.dur then
    { state := g.next, tick := posZero, volume := if g.next = .idle then posZero else v }
  else { e with tick := k, volume := v }

/-- ENV.UPDATE on the registers (R165 to R170). -/
def updateEnv (p : Params) (e : Env) : Env :=
  match segmentOf p e.state with
  | some g => updateAlong g e
  | none => e

/-- The result of ENV.UPDATE, given the registers after it: the new volume (R165), `+0.0` in Idle
(R169). -/
def updateResult (before after : Env) : F :=
  if before.state = .idle then posZero else after.volume

/-! ## Unit operations -/

/-- ENV.PRESS (R162, R163). -/
def envPress (s : State) : State := s.withEnv (pressEnv s.cfg.params s.env)

/-- ENV.RELEASE (R164). -/
def envRelease (s : State) : State := s.withEnv (releaseEnv s.cfg.params s.env)

/-- ENV.UPDATE (R165 to R170). -/
def envUpdate (s : State) : State :=
  (s.withEnv (updateEnv s.cfg.params s.env)).withRes
    { s.res with volume := updateResult s.env (updateEnv s.cfg.params s.env) }

/-! ## Meanings -/

/-- ENV.PRESS (R162, R163). -/
def execEnvPress (s : State) : Result := ifOwner .syn s (.next (envPress s))

/-- ENV.RELEASE (R164). -/
def execEnvRelease (s : State) : Result := ifOwner .syn s (.next (envRelease s))

/-- ENV.UPDATE (R165 to R170). -/
def execEnvUpdate (s : State) : Result := ifOwner .syn s (.next (envUpdate s))

end Sys2Proof.Machine
end

