-- ==== Sys2Proof/Machine/Oscillator.lean ====
section
/-!
DEFINITION. The waveform oscillator: OSC.SET_FREQUENCY, OSC.SET_WAVE_TYPE, OSC.RUN
(40_oscillator R120 to R133).
-/

namespace Sys2Proof.Machine

/-! ## Waveforms over the phase in turns (R124 to R128) -/

/-- SINE (R124). -/
def sineWave (p : F) : F := fsin (fmul twoPi p)

/-- FASTSINE (R125); the sign is that of the formula (90_conflicts C2). -/
def fastSineWave (p : F) : F :=
  let x := fsub (fmul two p) one
  fmul (fmul four x) (fsub one (fabs x))

/-- SAWTOOTH (R126). -/
def sawtoothWave (p : F) : F := fsub (fmul two p) one

/-- SQUARE (R127). -/
def squareWave (amp p duty : F) : F := if flt p duty then amp else fneg amp

/-- TRIANGLE (R128). -/
def triangleWave (p : F) : F := fsub one (fmul four (fabs (fsub p half)))

/-- The sample of the selected waveform at the phase held (R123). -/
def waveSample (prm : Params) (o : Osc) : F :=
  match o.waveType with
  | .sine => sineWave o.phase
  | .fastSine => fastSineWave o.phase
  | .sawtooth => sawtoothWave o.phase
  | .square => squareWave prm.aSq o.phase o.duty
  | .triangle => triangleWave o.phase

/-- ADVANCE (R129). -/
def advancePhase (prm : Params) (o : Osc) : F :=
  fmod1 (fadd o.phase (fdiv o.frequency prm.sampleRate))

/-! ## Unit operations -/

/-- The frequency is in contract: finite and not below zero (R121, R133). -/
def legalFrequency (f : F) : Bool := isFinite f && fge f posZero

/-- OSC.SET_FREQUENCY (R121); out of contract it is refused (R133). -/
def setFrequency (f : F) (s : State) : Result :=
  if legalFrequency f then .next (s.withOsc { s.osc with frequency := f })
  else .refused (.badFrequency f)

/-- The duty clamped to `[0,1]` (R122). -/
def clampDuty (d : F) : F :=
  if flt d posZero then posZero else if flt one d then one else d

/-- OSC.SET_WAVE_TYPE (R122): unknown ids are ignored (30_encoding R95), `d` is read only for Square
and a NaN there is refused (R133). -/
def setWaveType (w : BitVec 8) (d : F) (s : State) : Result :=
  match waveOf w with
  | none => .next s
  | some .square =>
    if isNaN d then .refused (.nanDuty d)
    else .next (s.withOsc { s.osc with waveType := .square, duty := clampDuty d })
  | some .sine => .next (s.withOsc { s.osc with waveType := .sine })
  | some .sawtooth => .next (s.withOsc { s.osc with waveType := .sawtooth })
  | some .triangle => .next (s.withOsc { s.osc with waveType := .triangle })
  | some .fastSine => .next (s.withOsc { s.osc with waveType := .fastSine })

/-- OSC.RUN (R123): the sample of the phase held before the call, then one advance; silence with the
phase kept at frequency zero (R130). -/
def oscRun (s : State) : State :=
  if feq s.osc.frequency posZero then s.withRes { s.res with oscSample := posZero }
  else
    (s.withOsc { s.osc with phase := advancePhase s.cfg.params s.osc }).withRes
      { s.res with oscSample := waveSample s.cfg.params s.osc }

/-! ## Meanings -/

/-- OSC.SET_FREQUENCY (R121). -/
def execOscSetFrequency (s : State) : Result := ifOwner .syn s (setFrequency s.port.ops.f s)

/-- OSC.SET_WAVE_TYPE (R122). -/
def execOscSetWaveType (s : State) : Result :=
  ifOwner .syn s (setWaveType s.port.ops.w s.port.ops.d s)

/-- OSC.RUN (R123). -/
def execOscRun (s : State) : Result := ifOwner .syn s (.next (oscRun s))

end Sys2Proof.Machine
end

