-- ==== Sys2Proof/Machine/Commands.lean ====
section
/-!
DEFINITION. What the seven command words do when SYN executes them (46_sequencer_commands R263 to
R269). The pop and the drain bound are the sequencer's (R261). The unit operation
that a command stands for takes its operands from the word and leaves the issuing agent and the
operand ports (`port`) alone: DESIGN CHOICE (entry 28).
-/

namespace Sys2Proof.Machine

/-- START (R263). -/
def execStart (_arg : BitVec 32) (s : State) : Result :=
  .next (s.withSyn { s.syn with running := true })

/-- STOP (R264). -/
def execStop (_arg : BitVec 32) (s : State) : Result :=
  .next (s.withSyn { s.syn with running := false })

/-- CHANGE_FREQUENCY (R265): `OSC.SET_FREQUENCY(f)`. -/
def execChangeFrequency (arg : BitVec 32) (s : State) : Result := setFrequency (argFloat arg) s

/-- CHANGE_OSCILLATOR (R266): `OSC.SET_WAVE_TYPE(id, osc.duty)`. -/
def execChangeOscillator (arg : BitVec 32) (s : State) : Result :=
  setWaveType (argId arg) s.osc.duty s

/-- CHANGE_NOISE (R267); unknown ids are ignored (30_encoding R96). -/
def execChangeNoise (arg : BitVec 32) (s : State) : Result :=
  match noiseOf (argId arg) with
  | some k => .next (s.withSyn { s.syn with noiseSel := k })
  | none => .next s

/-- PRESSED (R268): `ENV.PRESS()`. -/
def execPressed (_arg : BitVec 32) (s : State) : Result := .next (envPress s)

/-- RELEASED (R269): `ENV.RELEASE()`. -/
def execReleased (_arg : BitVec 32) (s : State) : Result := .next (envRelease s)

end Sys2Proof.Machine
end

