-- ==== Sys2Proof/Machine/CounterRead.lean ====
section
/-!
DEFINITION. The instrumentation counters as a host reads them: CTR.READ (60_exceptions R310, R312).
-/

namespace Sys2Proof.Machine

/-- The free value as a draw `v` with `last <= v <= now`: every such value can result and, where
`last <= now`, no other (R312). -/
def staleCount (raw : Nat) (last now : BitVec 32) : BitVec 32 :=
  BitVec.ofNat 32 (last.toNat + raw % (now.toNat - last.toNat + 1))

/-- CTR.READ by AUD: the count is driven and becomes AUD's `last_v` (R312). -/
def readByAud (k : CounterId) (s : State) : State :=
  let v := staleCount (Config.counterDraw s.draws) (s.audSeen.get k) (s.ctr.get k)
  spendDraw ((s.withAudSeen (s.audSeen.set k v)).withRes { s.res with audCount := v })

/-- CTR.READ by VIS: the count is driven and becomes VIS's `last_v` (R312). -/
def readByVis (k : CounterId) (s : State) : State :=
  let v := staleCount (Config.counterDraw s.draws) (s.visSeen.get k) (s.ctr.get k)
  spendDraw ((s.withVisSeen (s.visSeen.set k v)).withRes { s.res with visCount := v })

/-! ## Meaning -/

/-- CTR.READ (R312): AUD or VIS may issue it (R320). -/
def execCtrRead (s : State) : Result :=
  match counterOf s.port.ops.c with
  | none => .refused .reservedSelector
  | some k =>
    match s.port.agent with
    | .aud => .next (readByAud k s)
    | .vis => .next (readByVis k s)
    | .syn => .refused (.notOwner .syn)

end Sys2Proof.Machine
end

