-- ==== Sys2Proof/Machine/Fft.lean ====
section
/-!
DEFINITION. The spectral analyzer: FFT.TRANSFORM and FFT.MAG (45_fft R230 to R240).
-/

namespace Sys2Proof.Machine

/-- The twiddle factor `exp(-j*pi*i/n)` (R235): `PI * i`, then divided by `n`. -/
def twiddle (i n : Nat) : Complex :=
  let ang := fdiv (fmul piF (itof i)) (itof n)
  ⟨fcos ang, fneg (fsin ang)⟩

/-- One butterfly (R235): reads from `out`, writes the sum and the difference to `buf`. -/
def butterfly (p : Params) (buf out : ArrayId) (off n step i : Nat) (m : Memory) :
    Except Fault Memory :=
  match readElem p m out (off + i + step) with
  | .error f => .error f
  | .ok o =>
    match readElem p m out (off + i) with
    | .error f => .error f
    | .ok e =>
      let t := cmul (twiddle i n) (Complex.unpack o)
      match writeElem p m buf (off + i / 2) (cadd (Complex.unpack e) t).pack with
      | .error f => .error f
      | .ok m => writeElem p m buf (off + (i + n) / 2) (csub (Complex.unpack e) t).pack

/-- `k` butterflies from index `i` on, `2·step` apart (R235: `i = 0, 2*step, 4*step, ...`). -/
def sweep (p : Params) (buf out : ArrayId) (off n step : Nat) :
    Nat → Nat → Memory → Except Fault Memory
  | 0, _, m => .ok m
  | k + 1, i, m =>
    match butterfly p buf out off n step i m with
    | .error f => .error f
    | .ok m => sweep p buf out off n step k (i + 2 * step) m

/-- The number of indices `0, 2*step, 4*step, ...` below `n`. -/
def sweepCount (n step : Nat) : Nat := (n + (2 * step - 1)) / (2 * step)

/-- REC (R235). `step` doubles at each level, so `log2 n + 1` levels of fuel reach the base case
(R236); with none left nothing is done. -/
def fftRec (p : Params) : Nat → ArrayId → ArrayId → Nat → Nat → Nat → Memory → Except Fault Memory
  | 0, _, _, _, _, _, m => .ok m
  | fuel + 1, buf, out, off, n, step, m =>
    if n ≤ step then .ok m
    else
      match fftRec p fuel out buf off n (2 * step) m with
      | .error f => .error f
      | .ok m =>
        match fftRec p fuel out buf (off + step) n (2 * step) m with
        | .error f => .error f
        | .ok m => sweep p buf out off n step (sweepCount n step) 0 m

/-- Buffer initialisation (R233): both buffers receive the padded input, from index `k` on. -/
def loadInput (p : Params) (x : List Elem) : Nat → Nat → Memory → Except Fault Memory
  | 0, _, m => .ok m
  | c + 1, k, m =>
    let v := x.getD k (Complex.pack ⟨posZero, posZero⟩)
    match writeElem p m .fftA k v with
    | .error f => .error f
    | .ok m =>
      match writeElem p m .fftB k v with
      | .error f => .error f
      | .ok m => loadInput p x c (k + 1) m

/-- The `c` elements of an array from index `k` on. -/
def readRun (p : Params) (m : Memory) (a : ArrayId) : Nat → Nat → Except Fault (List Elem)
  | 0, _ => .ok []
  | c + 1, k =>
    match readElem p m a k with
    | .error f => .error f
    | .ok e =>
      match readRun p m a c (k + 1) with
      | .error f => .error f
      | .ok es => .ok (e :: es)

/-- FFT.TRANSFORM (R231 to R236): empty input, oversize input (R232), or the transform. -/
def transform (x : List Elem) (s : State) : Except Fault State :=
  let p := s.cfg.params
  let N := paddedLength x.length
  if x.length = 0 then
    .ok ((s.withFftN 0).withRes { s.res with fftStatus := 0#1, fftLength := 0, fftX := [] })
  else if p.fftMaxN < N then .ok (s.withRes { s.res with fftStatus := 1#1 })
  else
    match loadInput p x N 0 s.mem with
    | .error f => .error f
    | .ok m =>
      match fftRec p (Nat.log2 N + 1) .fftA .fftB 0 N 1 m with
      | .error f => .error f
      | .ok m =>
        match readRun p m .fftA N 0 with
        | .error f => .error f
        | .ok xs =>
          .ok (((s.withMem m).withFftN N).withRes
            { s.res with fftStatus := 0#1, fftLength := N, fftX := xs })

/-- One bin of FFT.MAG (R238): frequency and magnitude. -/
def binOf (p : Params) (N k : Nat) (e : Elem) : F × F :=
  let z := Complex.unpack e
  (fdiv (fmul (itof k) p.sampleRate) (itof N), fsqrt (fadd (fmul z.re z.re) (fmul z.im z.im)))

/-- The bins of a run of elements, the first being bin `k`. -/
def binsFrom (p : Params) (N : Nat) : Nat → List Elem → List (F × F)
  | _, [] => []
  | k, e :: es => binOf p N k e :: binsFrom p N (k + 1) es

/-- FFT.MAG (R238). -/
def magnitudes (s : State) : Except Fault State :=
  match readRun s.cfg.params s.mem .fftA (s.fftN / 2) 0 with
  | .error f => .error f
  | .ok es =>
    .ok (s.withRes { s.res with bins := binsFrom s.cfg.params s.fftN 0 es })

/-! ## Meanings -/

/-- FFT.TRANSFORM (R231 to R236). -/
def execFftTransform (s : State) : Result := ifOwner .vis s (done (transform s.port.ops.x s))

/-- FFT.MAG (R238). -/
def execFftMag (s : State) : Result := ifOwner .vis s (done (magnitudes s))

end Sys2Proof.Machine
end

