-- ==== Sys2Proof/Machine/Metronome.lean ====
section
/-!
DEFINITION. The metronome and the time signature: MET.UPDATE, MET.GET_BEAT_INDEX, TS.ACCENT
(43_metronome R190 to R195).
-/

namespace Sys2Proof.Machine

/-- MET.UPDATE on the registers (R192). -/
def updateMet (p : Params) (e : BitVec 64) : Met where
  sampleCount := e
  beatIndex := beatOf p e
  showBeat := showBeatFlag p e
  accent := accentFlag p (beatOf p e)

/-- MET.UPDATE (R192). -/
def metUpdate (e : BitVec 64) (s : State) : State := s.withMet (updateMet s.cfg.params e)

/-! ## Meanings -/

/-- MET.UPDATE (R192). -/
def execMetUpdate (s : State) : Result := ifOwner .syn s (.next (metUpdate s.port.ops.e s))

/-- MET.GET_BEAT_INDEX (R193): out of contract, and refused, where the index needs more than 32
bits. -/
def execMetGetBeatIndex (s : State) : Result :=
  ifOwner .syn s
    (if s.met.beatIndex.toNat < 2 ^ 32 then
      .next (s.withRes { s.res with beat := s.met.beatIndex.setWidth 32 })
    else .refused (.beatIndexTooWide s.met.beatIndex))

/-- TS.ACCENT (R194). -/
def execTsAccent (s : State) : Result :=
  ifOwner .syn s (.next (s.withRes { s.res with accent := s.met.accent }))

end Sys2Proof.Machine
end

