-- ==== Sys2Proof/Machine/Noise.lean ====
section
/-!
DEFINITION. The noise generator: NOISE.UNIFORM, NOISE.GAUSSIAN (41_noise R150 to R154). Each output
is a draw; `noise.rng` is not represented (10_state R27).
-/

namespace Sys2Proof.Machine

/-- The draws R151 admits: finite, from `-1.0` to `1.0` with both ends. -/
def legalUniform (d : F) : Bool := isFinite d && fle minusOne d && fle d one

/-- The free value as a draw of NOISE.UNIFORM: every admitted value can result and no other. -/
def uniformOf (raw : F) : F := if legalUniform raw then raw else posZero

/-- The free value as a draw of NOISE.GAUSSIAN: every finite value can result and no other (R152). -/
def gaussianOf (raw : F) : F := if isFinite raw then raw else posZero

/-- NOISE.UNIFORM (R151). -/
def noiseUniform (s : State) : State :=
  spendDraw (s.withRes { s.res with noiseSample := uniformOf (Config.uniformDraw s.draws) })

/-- NOISE.GAUSSIAN (R152). -/
def noiseGaussian (s : State) : State :=
  spendDraw (s.withRes { s.res with noiseSample := gaussianOf (Config.gaussianDraw s.draws) })

/-! ## Meanings -/

/-- NOISE.UNIFORM (R151). -/
def execNoiseUniform (s : State) : Result := ifOwner .syn s (.next (noiseUniform s))

/-- NOISE.GAUSSIAN (R152). -/
def execNoiseGaussian (s : State) : Result := ifOwner .syn s (.next (noiseGaussian s))

end Sys2Proof.Machine
end

