-- ==== Sys2Proof/Machine/Queue.lean ====
section
/-!
DEFINITION. The asynchronous queues: Q.TRY_PUSH, Q.TRY_POP, Q.FILL and the cursor synchronisers
(44_fifo R205 to R216).
-/

namespace Sys2Proof.Machine

/-! ## Unit operations -/

/-- Q.TRY_PUSH by the producer: accepted (R206), or refused with nothing changed (R207). -/
def tryPush (q : QueueId) (v : Elem) (s : State) : Except Fault State :=
  let C := s.cap q
  let c := s.cur q
  if fullP C c then .ok (driveAccepted q false s)
  else
    match writeElem s.cfg.params s.mem (.ring q) (c.w % C) v with
    | .error f => .error f
    | .ok m => .ok (driveAccepted q true ((s.withMem m).withCur q { c with w := advance C c.w 1 }))

/-- Q.TRY_POP by the consumer: the oldest element (R208), or None with the data port free (R209). -/
def tryPop (q : QueueId) (s : State) : Except Fault State :=
  let C := s.cap q
  let c := s.cur q
  if emptyC C c then .ok (spendDraw (drivePopped q false (Config.popData s.draws) s))
  else
    match readElem s.cfg.params s.mem (.ring q) (c.r % C) with
    | .error f => .error f
    | .ok e => .ok (drivePopped q true (e.setWidth 40) (s.withCur q { c with r := advance C c.r 1 }))

/-- Q.FILL begins: `n` slots to do, none done (R210). -/
def startFill (n : Nat) (s : State) : State := s.withAud ⟨n, []⟩

/-- The slot's value once its pop is done: the sample popped, or silence (R210). -/
def slotSample (s : State) : F := if s.res.outQ.valid then s.res.outQ.data.setWidth 32 else posZero

/-- One slot of Q.FILL: one pop on OUT, and the underflow counted where it found nothing (R210,
60_exceptions R310). The pop drives the result ports and leaves `port` alone (entry 28). -/
def fillSlot (s : State) : Except Fault State :=
  match tryPop .out s with
  | .error f => .error f
  | .ok t =>
    let t := if t.res.outQ.valid then t
      else t.withCtr { t.ctr with outUnderflows := satInc t.ctr.outUnderflows }
    .ok (t.withAud ⟨t.aud.left - 1, t.aud.block ++ [slotSample t]⟩)

/-- How far a lagging copy is behind its cursor (R212, R213). -/
def lagOf (C : Nat) (c : Cursors) : SyncSide → Nat
  | .read => modSub c.r c.rSync (2 * C)
  | .write => modSub c.w c.wSync (2 * C)

/-- The cursors with a lagging copy moved on by `d` (R212, R213). -/
def moveCopy (C : Nat) (c : Cursors) (side : SyncSide) (d : Nat) : Cursors :=
  match side with
  | .read => { c with rSync := advance C c.rSync d }
  | .write => { c with wSync := advance C c.wSync d }

/-- SYNC(q,R) and SYNC(q,W) with the draw `d`. A draw outside `1 .. lag` is none that the rule
admits: the step is not enabled and nothing changes (entry 8). -/
def syncStep (q : QueueId) (side : SyncSide) (d : Nat) (s : State) : State :=
  if 1 ≤ d ∧ d ≤ lagOf (s.cap q) (s.cur q) side then
    s.withCur q (moveCopy (s.cap q) (s.cur q) side d)
  else s

/-! ## Meanings -/

/-- Q.TRY_PUSH (R206, R207). -/
def execQTryPush (s : State) : Result :=
  match queueOf s.port.ops.q with
  | none => .refused .reservedSelector
  | some q => ifOwner (producer q) s (done (tryPush q (portElem s.port.ops.v) s))

/-- Q.TRY_POP (R208, R209). -/
def execQTryPop (s : State) : Result :=
  match queueOf s.port.ops.q with
  | none => .refused .reservedSelector
  | some q => ifOwner (consumer q) s (done (tryPop q s))

/-- Q.FILL (R210): the operation begins, and its slots are AUD's next steps, one pop each. On another
queue than OUT it is out of contract (30_encoding R101; entry 15). -/
def execQFill (s : State) : Result :=
  ifOwner .aud s
    (if queueOf s.port.ops.q = some .out then .next (startFill s.port.ops.n s)
    else .refused .fillNotOnOut)

end Sys2Proof.Machine
end

