-- ==== Sys2Proof/Machine/Dispatch.lean ====
section
/-!
DEFINITION. The meaning of every instruction, one arm each.
-/

namespace Sys2Proof.Machine

def exec (i : Instr) (s : State) : Host.Outcome State Fault Refusal :=
  match i with
  | .start arg => Sys2Proof.Machine.execStart arg s
  | .stop arg => Sys2Proof.Machine.execStop arg s
  | .changeFrequency arg => Sys2Proof.Machine.execChangeFrequency arg s
  | .changeOscillator arg => Sys2Proof.Machine.execChangeOscillator arg s
  | .changeNoise arg => Sys2Proof.Machine.execChangeNoise arg s
  | .pressed arg => Sys2Proof.Machine.execPressed arg s
  | .released arg => Sys2Proof.Machine.execReleased arg s
  | .oscSetFrequency => Sys2Proof.Machine.execOscSetFrequency s
  | .oscSetWaveType => Sys2Proof.Machine.execOscSetWaveType s
  | .oscRun => Sys2Proof.Machine.execOscRun s
  | .noiseUniform => Sys2Proof.Machine.execNoiseUniform s
  | .noiseGaussian => Sys2Proof.Machine.execNoiseGaussian s
  | .envPress => Sys2Proof.Machine.execEnvPress s
  | .envRelease => Sys2Proof.Machine.execEnvRelease s
  | .envUpdate => Sys2Proof.Machine.execEnvUpdate s
  | .metUpdate => Sys2Proof.Machine.execMetUpdate s
  | .metGetBeatIndex => Sys2Proof.Machine.execMetGetBeatIndex s
  | .tsAccent => Sys2Proof.Machine.execTsAccent s
  | .qTryPush => Sys2Proof.Machine.execQTryPush s
  | .qTryPop => Sys2Proof.Machine.execQTryPop s
  | .qFill => Sys2Proof.Machine.execQFill s
  | .fftTransform => Sys2Proof.Machine.execFftTransform s
  | .fftMag => Sys2Proof.Machine.execFftMag s
  | .ctrRead => Sys2Proof.Machine.execCtrRead s

end Sys2Proof.Machine
end

