-- ==== Sys2Proof/Machine/Sequencer.lean ====
section
/-!
DEFINITION. The steps of the agents: SYN's sequence (46_sequencer_commands R260 to R274), the unit
operations that agents present (30_encoding R97 to R101), the synchronisers, and reset
(00_scope R15, 60_exceptions R302, 70_reset_and_hazards R330).

DESIGN CHOICE (entry 28): an operation that SYN performs in its own sequence drives the result ports
(`res`), and leaves the issuing agent and the operand ports (`port`) as the last presented operation
left them. The spec does not say what the operand ports hold there; no effect depends on it.
-/

namespace Sys2Proof.Machine

/-! ## Drain (R261, R262) -/

/-- END_DRAIN (R262). -/
def endDrain (s : State) : State := s.withSyn { s.syn with phase := .gen, pos := 0, drained := 0 }

/-- EXECUTE(c): a command, or an unknown word, which does nothing (R272, 30_encoding R100). The
operations of a command take their operands from the word and leave `port` alone (entry 28). -/
def executeWord (w : CmdWord) (s : State) : Result :=
  match decodeCmd w with
  | .ok i => exec i s
  | .error _ => .next s

/-- SYN in Drain (R261): one pop of CMD, and the word popped is executed. The pop drives the
result ports and leaves `port` alone (entry 28). -/
def drainStep (s : State) : Result :=
  if s.syn.drained = s.cfg.params.cmdCap then .next (endDrain s)
  else
    match tryPop .cmd s with
    | .error f => .fault f
    | .ok t =>
      if t.res.cmdQ.valid then
        executeWord t.res.cmdQ.data (t.withSyn { t.syn with drained := t.syn.drained + 1 })
      else .next (endDrain t)

/-! ## Gen (R270) -/

/-- The noise term, one operation of NOISE or none (41_noise R154); `port` is left alone
(entry 28). -/
def noiseStep (s : State) : State :=
  match s.syn.noiseSel with
  | .none => s
  | .uniform => noiseUniform s
  | .gaussian => noiseGaussian s

/-- The noise term's value once `noiseStep` is done. -/
def noiseTerm (s : State) : F :=
  match s.syn.noiseSel with
  | .none => posZero
  | .uniform => s.res.noiseSample
  | .gaussian => s.res.noiseSample

/-- The three units advanced once, in the order oscillator, noise, envelope (R270, 60_exceptions
R307); `port` is left alone (entry 28). -/
def advanceUnits (s : State) : State := envUpdate (noiseStep (oscRun s))

/-- The mix `y = (o + n) * g` from the result ports (R270); no clipping (R271). -/
def mix (s : State) : F :=
  fmul (fadd s.res.oscSample (noiseTerm s)) (if s.cfg.params.envGate then s.res.volume else one)

/-- First part of the sample step: the units and the metronome; the sample waits to be pushed. While
stopped no unit is advanced and the sample is `+0.0` (R270). The operations take their operands
directly and leave `port` alone, MET.UPDATE's `e` included (entry 28). -/
def genCompute (s : State) : State :=
  let t := if s.syn.running then advanceUnits s else s
  let y := if s.syn.running then mix t else posZero
  let u := metUpdate s.syn.sampleCount t
  u.withSyn { u.syn with stage := .pushOut y }

/-- Second part: the push on OUT; a refused push is counted (R270). The selector and the value are not
driven on `port` (entry 28). -/
def genPushOut (y : F) (s : State) : Except Fault State :=
  match tryPush .out (sampleElem y) s with
  | .error f => .error f
  | .ok t =>
    let u := if t.res.outQ.accepted then t
      else t.withCtr { t.ctr with outDrops := satInc t.ctr.outDrops }
    .ok (u.withSyn { u.syn with stage := .pushViz y })

/-- The sequencing registers at the end of a sample step (R270). -/
def nextSlot (p : Params) (x : Syn) : Syn :=
  { x with
    sampleCount := x.sampleCount + 1#64
    phase := if x.pos + 1 = p.blockSize then .drain else x.phase
    pos := if x.pos + 1 = p.blockSize then 0 else x.pos + 1
    stage := .compute }

/-- Third part: the push on VIZ, a refused push counted, and the step's end (R270). The selector and
the value are not driven on `port` (entry 28). -/
def genPushViz (y : F) (s : State) : Except Fault State :=
  match tryPush .viz (sampleElem y) s with
  | .error f => .error f
  | .ok t =>
    let u := if t.res.vizQ.accepted then t
      else t.withCtr { t.ctr with vizDrops := satInc t.ctr.vizDrops }
    .ok (u.withSyn (nextSlot u.cfg.params u.syn))

/-- SYN in Gen: the next part of the sample step (R270; entry 4). -/
def genStep (s : State) : Result :=
  match s.syn.stage with
  | .compute => .next (genCompute s)
  | .pushOut y => done (genPushOut y s)
  | .pushViz y => done (genPushViz y s)

/-- One step of SYN (R260). -/
def synStep (s : State) : Result :=
  match s.syn.phase with
  | .drain => drainStep s
  | .gen => genStep s

/-! ## Events -/

/-- An agent presents a code and its operands: the operation the code selects, or a refusal for a
reserved code (30_encoding R97, R101). It drives the issuing agent and every operand port (entry 6). -/
def present (a : Agent) (code : UopCode) (ops : Operands) (s : State) : Result :=
  match decodeUop code with
  | .ok i => exec i (s.withPort ⟨a, ops⟩)
  | .error _ => .refused (.reservedCode code)

/-- AUD has a Q.FILL in progress. -/
def audBusy (s : State) : Bool := decide (s.aud.left ≠ 0)

/-- An agent's operation in program order (20_memory R65): AUD finishes the Q.FILL it has begun, one
slot a step, before an operation it presents after it; that operation waits (entry 5). -/
def presentInOrder (a : Agent) (code : UopCode) (ops : Operands) (s : State) : Result :=
  if decide (a = .aud) && audBusy s then
    done (fillSlot (s.withAgenda (.uop a code ops :: s.agenda)))
  else present a code ops s

/-- One event at a core that is not held. -/
def runAgent (e : Event) (s : State) : Result :=
  match e with
  | .syn => synStep s
  | .sync q side d => .next (syncStep q side d s)
  | .uop a code ops => presentInOrder a code ops s
  | .fillSlot => if audBusy s then done (fillSlot s) else .next s
  | .reset p => .next (resetWith p s)

/-- One event: a reset is possible at any time (70_reset_and_hazards R330); no other step is enabled
while a construction fault holds the core (60_exceptions R302). -/
def runEvent (e : Event) (s : State) : Result :=
  match e with
  | .reset p => .next (resetWith p s)
  | .syn | .sync _ _ _ | .uop _ _ _ | .fillSlot =>
    if isHeld s then .fault (.held s.cfg.fault) else runAgent e s

/-! ## The schedule (00_scope R15, 20_memory R66 (d); entries 2, 3 and 20) -/

/-- A free event: any step of any agent, or a reset. SYN issues operations only in its own sequence
(40_oscillator R120, 46_sequencer_commands R270), so the free schedule presents none for it. -/
def freeEvent : Event → Event
  | .uop .syn _ _ => .syn
  | e => e

/-- The SYNC agent whose turn follows: the six take turns. -/
def syncAfter (a : SyncAgent) : SyncAgent :=
  match a.queue, a.side with
  | .out, .read => ⟨.out, .write⟩
  | .out, .write => ⟨.viz, .read⟩
  | .viz, .read => ⟨.viz, .write⟩
  | .viz, .write => ⟨.cmd, .read⟩
  | .cmd, .read => ⟨.cmd, .write⟩
  | .cmd, .write => ⟨.out, .read⟩

/-- The draw of a SYNC agent at its turn: any that 44_fifo R212, R213 admit, and no other, where its
step is enabled. -/
def turnDraw (a : SyncAgent) (s : State) : Nat :=
  1 + Config.syncDraw s.ticks % lagOf (s.cap a.queue) (s.cur a.queue) a.side

/-- What happens where nothing is fixed from outside: a SYNC agent's turn, or a free event. A turn comes
after finitely many free events, which is the weak fairness of 20_memory R66 (d). -/
def openEvent (s : State) : Event :=
  if s.rota.wait = 0 then .sync s.rota.turn.queue s.rota.turn.side (turnDraw s.rota.turn s)
  else freeEvent (Config.schedule s.ticks)

/-- The turns once an event that was not fixed from outside is taken. -/
def rotaAfter (s : State) : Rota :=
  if s.rota.wait = 0 then ⟨Config.syncDelay s.ticks, syncAfter s.rota.turn⟩
  else { s.rota with wait := s.rota.wait - 1 }

/-- What happens next: the oldest event of the agenda, or an open one. -/
def nextEvent (s : State) : Event :=
  match s.agenda with
  | e :: _ => e
  | [] => openEvent s

/-- The turns once the next event is taken. -/
def nextRota (s : State) : Rota :=
  match s.agenda with
  | _ :: _ => s.rota
  | [] => rotaAfter s

/-- The state once the event is taken from the agenda. -/
def takeEvent (s : State) : State :=
  ((s.withAgenda s.agenda.tail).withTicks (s.ticks + 1)).withRota (nextRota s)

/-- The agent that may issue a code when its selector names OUT (60_exceptions R320). -/
def issuerOf (c : UopCode) : Agent :=
  match c.toNat with
  | 0x41 => .aud
  | 0x42 => .aud
  | 0x50 => .vis
  | 0x51 => .vis
  | 0x60 => .vis
  | _ => .syn

/-- The state with a command word at the read cursor of CMD, visible to SYN, and SYN about to pop
it. -/
def placeCommand (w : CmdWord) (s : State) : State :=
  let C := s.cap .cmd
  let c := s.cmdQ
  let t := (s.withMem (s.mem.put (.ring .cmd) (c.r % C) (w.setWidth 64))).withCur .cmd
    { c with w := advance C c.r 1, wSync := advance C c.r 1 }
  (t.withSyn { t.syn with phase := .drain, drained := 0 }).withAgenda (.syn :: t.agenda)

/-- The state with a unit operation about to be presented by its owner, every operand port 0. -/
def placeOperation (c : UopCode) (s : State) : State :=
  (s.withAud { s.aud with left := 0 }).withAgenda (.uop (issuerOf c) c {} :: s.agenda)

end Sys2Proof.Machine
end

