-- ==== Sys2Proof/Machine/Step.lean ====
section
/-!
DEFINITION. The step of the machine, and the placing of one instruction where the next step takes it.
-/

namespace Sys2Proof.Machine

/-- One step: the next event is taken and run (00_scope R15). -/
def step (s : State) : Host.Outcome State Fault Refusal := runEvent (nextEvent s) (takeEvent s)

/-- The state in which the next step fetches and runs the instruction of `nbits` bits `w`: 40 bits are
a command word, popped by SYN from CMD (46_sequencer_commands R261); 8 bits are a code, presented by
the operation's owner (30_encoding R91, R97) with operand ports of zeros. -/
def State.withFetchWord (s : State) (nbits w : Nat) : State :=
  if nbits = 40 then placeCommand (BitVec.ofNat 40 w) s
  else if nbits = 8 then placeOperation (BitVec.ofNat 8 w) s
  else s

end Sys2Proof.Machine
end

