-- ==== Sys2Proof/Machine/Numerics.lean ====
section
/-!
DEFINITION. The named properties of the open numerics fields (00_scope R11). "A proof may assume a
property only by its name": each is a proposition about the opaque constants, never a fact.
-/

namespace Sys2Proof.Machine

/-- The rational value of a finite pattern. -/
def toRat (a : F) : ℚ := (scaledInt a : ℚ) / (unitScale : ℚ)

/-- `SIN_RANGE`: for every finite `a`, `-1 <= fsin(a) <= 1` and `-1 <= fcos(a) <= 1`. -/
def SinRange : Prop :=
  ∀ a : F, isFinite a = true →
    (fle minusOne (fsin a) = true ∧ fle (fsin a) one = true) ∧
    (fle minusOne (fcos a) = true ∧ fle (fcos a) one = true)

/-- `SIN_ZERO`: `fsin(+0.0) = +0.0` and `fcos(+0.0) = 1.0`. -/
def SinZero : Prop := fsin posZero = posZero ∧ fcos posZero = one

/-- `SIN_ACCURACY(eps)`: for every finite `a`, `fsin(a)` and `fcos(a)` are finite and within `eps` of
the sine and cosine of the value of `a`. -/
def SinAccuracy (eps : ℝ) : Prop :=
  ∀ a : F, isFinite a = true →
    (isFinite (fsin a) = true ∧ |(toRat (fsin a) : ℝ) - Real.sin (toRat a : ℝ)| ≤ eps) ∧
    (isFinite (fcos a) = true ∧ |(toRat (fcos a) : ℝ) - Real.cos (toRat a : ℝ)| ≤ eps)

/-- `SQRT_EXACT`: `fsqrt(a)` is the correctly rounded square root for `a >= 0`: of the finite values
none is nearer to the root (the root of a binary32 value is never half way between two of them, so
the nearest is one value); the root of a zero is that zero and the root of infinity is infinity. -/
def SqrtExact : Prop :=
  ∀ a : F, fge a posZero = true →
    (fmag a = 0 → fsqrt a = a) ∧
    (isInf a = true → fsqrt a = a) ∧
    (isFinite a = true → isFinite (fsqrt a) = true ∧
      ∀ b : F, isFinite b = true →
        |(toRat (fsqrt a) : ℝ) - Real.sqrt (toRat a : ℝ)| ≤
          |(toRat b : ℝ) - Real.sqrt (toRat a : ℝ)|)

end Sys2Proof.Machine
end

