-- ==== Sys2Proof/Safety.lean ====
section
/-!
DEFINITION. What holds of the machine in every state it reaches, as predicates on one state, and what
a step must never do. Each predicate formalises an invariant the spec names.
-/

namespace Sys2Proof.Machine

/-! ## Storage (20_memory R60, R61) -/

/-- The arrays are in their canonical form. -/
def MemInv (s : State) : Prop := s.mem.wf = true

/-! ## Queues (10_state R36, R37, R38) -/

/-- The cursors count modulo `2C`, and `0 <= avail_c(q) <= occ(q) <= occ_p(q) <= C` (10_state R37). -/
structure CursorsOk (C : Nat) (c : Cursors) : Prop where
  w_lt : c.w < 2 * C
  r_lt : c.r < 2 * C
  wSync_lt : c.wSync < 2 * C
  rSync_lt : c.rSync < 2 * C
  avail_le : availC C c ≤ occ C c
  occ_le : occ C c ≤ occP C c
  occP_le : occP C c ≤ C

/-- The ring index of the `k`-th element not yet popped (44_fifo R211). -/
def slotIndex (C : Nat) (c : Cursors) (k : Nat) : Nat := advance C c.r k % C

/-- Every element not yet popped was written: "no rule reads an entry that no push has written"
(10_state R38). -/
def RingWritten (C : Nat) (c : Cursors) (m : Memory) (q : QueueId) : Prop :=
  ∀ k < occ C c, (m.get (.ring q) (slotIndex C c k)).isSome = true

/-- The elements not yet popped, oldest first (20_memory R67). -/
def contents (s : State) (q : QueueId) : List (Option Elem) :=
  (List.range (occ (s.cap q) (s.cur q))).map
    (fun k => s.mem.get (.ring q) (slotIndex (s.cap q) (s.cur q) k))

/-- `cfg.fault` holds the result of the construction check (10_state R43). -/
def CfgInv (s : State) : Prop := s.cfg.fault = faultCode s.cfg.params

/-- The queue invariants of a core that is not held (10_state R37, R38). -/
def QueueInv (s : State) : Prop :=
  CfgInv s ∧ (s.cfg.fault = 0#8 → ∀ q : QueueId,
    CursorsOk (s.cap q) (s.cur q) ∧ RingWritten (s.cap q) (s.cur q) s.mem q)

/-! ## Units (10_state R25, R29, 42_envelope R170) -/

/-- `0.0 <= osc.phase < 1.0` (10_state R25). -/
def PhaseInv (s : State) : Prop :=
  fge s.osc.phase posZero = true ∧ flt s.osc.phase one = true

/-- The duty lies in `[0,1]` (10_state R24). -/
def dutyInRange (d : F) : Bool := fge d posZero && fle d one

/-- `osc.duty` stays in `[0,1]`, given a default duty in `[0,1]` (10_state R24, 00_scope R7). -/
def DutyInv (s : State) : Prop :=
  dutyInRange s.cfg.params.defaultDuty = true → dutyInRange s.osc.duty = true

/-- `env.state = Idle` implies `env.volume = +0.0` (10_state R29). -/
def IdleSilent (s : State) : Prop := s.env.state = .idle → s.env.volume = posZero

/-- Sustain is not reached (42_envelope R170). -/
def NeverSustain (s : State) : Prop := s.env.state ≠ .sustain

/-! ## Sequencer (10_state R40) -/

/-- `syn.pos` and `syn.drained` stay in their ranges, and SYN is inside a sample step only in Gen. -/
structure SynInv (s : State) : Prop where
  cfg : CfgInv s
  pos_le : s.syn.pos ≤ s.cfg.params.blockSize
  pos_lt : s.cfg.fault = 0#8 → s.syn.pos < s.cfg.params.blockSize
  drained_le : s.syn.drained ≤ s.cfg.params.cmdCap
  stage : s.syn.phase = .drain → s.syn.stage = .compute

/-! ## Counters (60_exceptions R312) -/

/-- No reader has got a value newer than the counter's. -/
def ReaderInv (s : State) : Prop :=
  ∀ k : CounterId, (s.audSeen.get k).toNat ≤ (s.ctr.get k).toNat ∧
    (s.visSeen.get k).toNat ≤ (s.ctr.get k).toNat

/-! ## FFT (10_state R41) -/

/-- `fft.n` fits the buffers, and the result `fft.A[0 .. fft.n-1]` was written. -/
def FftInv (s : State) : Prop :=
  s.fftN ≤ s.cfg.params.fftMaxN ∧ ∀ k < s.fftN, (s.mem.get .fftA k).isSome = true

/-! ## Safe steps -/

/-- The one fault of the machine, the stuck core (60_exceptions R300, R302); every other fault of the
model is a read or a write that "no rule of this spec performs" (20_memory R61). -/
def NoStrayFault (r : Result) : Prop := ∀ f, r = .fault f → ∃ c, f = .held c

/-- The registers that only SYN reads and writes (10_state R21, 60_exceptions R321). -/
structure SynUnits where
  osc : Osc
  env : Env
  met : Met
  syn : Syn

/-- The state with SYN's own registers replaced. -/
def State.withUnits (s : State) (u : SynUnits) : State :=
  { s with osc := u.osc, env := u.env, met := u.met, syn := u.syn }

/-- A function on the next state of a step. -/
def mapNext (f : State → State) : Result → Result
  | .next s => .next (f s)
  | .fault x => .fault x
  | .refused x => .refused x

/-! ## What a step puts into a queue and takes from it (44_fifo R206 to R210) -/

/-- The step taken next pushes element `v` on a queue: SYN's sample on OUT or VIZ
(46_sequencer_commands R270), or a Q.TRY_PUSH of the queue's producer with `v` in its port
(44_fifo R206). -/
def pushesNext (s : State) (q : QueueId) (v : Elem) : Prop :=
  (nextEvent s = .syn ∧ s.syn.phase = .gen ∧
    ∃ y : F, v = y.setWidth 64 ∧
      ((q = .out ∧ s.syn.stage = .pushOut y) ∨ (q = .viz ∧ s.syn.stage = .pushViz y))) ∨
  ∃ ops : Operands, nextEvent s = .uop (producer q) 0x40#8 ops ∧ queueOf ops.q = some q ∧
    v = ops.v.setWidth 64 &&& elemMask (.ring q)

/-- The step taken next does a slot of AUD's Q.FILL: of itself, or because an operation of AUD waits
for it (44_fifo R210, 20_memory R65; entry 5). -/
def fillsNext (s : State) : Prop :=
  s.aud.left ≠ 0 ∧ (nextEvent s = .fillSlot ∨ ∃ c ops, nextEvent s = .uop .aud c ops)

/-- The step taken next pops from a queue: SYN in Drain (46_sequencer_commands R261), a Q.TRY_POP of
the queue's consumer (44_fifo R208), or a slot of Q.FILL (R210). -/
def popsNext (s : State) (q : QueueId) : Prop :=
  (q = .cmd ∧ nextEvent s = .syn ∧ s.syn.phase = .drain ∧ s.syn.drained ≠ s.cfg.params.cmdCap) ∨
  (∃ ops : Operands, nextEvent s = .uop (consumer q) 0x41#8 ops ∧ queueOf ops.q = some q ∧
    (q = .out → s.aud.left = 0)) ∨
  (q = .out ∧ fillsNext s)

/-! ## Schedules, fairness and delivery (00_scope R15, 20_memory R66 (d), 44_fifo R212, R213) -/

/-- The states `σ` are a run under the schedule `e`: event `e n` leads from `σ n` to `σ (n + 1)`. The
schedule is any; the model's own is `nextEvent` (entries 2, 20). -/
def IsRun (e : Nat → Event) (σ : Nat → State) : Prop :=
  ∀ n, runEvent (e n) (takeEvent (σ n)) = .next (σ (n + 1))

/-- The cursor that a SYNC agent shows to the other side. -/
def trueCursor (s : State) (q : QueueId) : SyncSide → Nat
  | .read => (s.cur q).r
  | .write => (s.cur q).w

/-- The lagging copy that a SYNC agent owns. -/
def copiedCursor (s : State) (q : QueueId) : SyncSide → Nat
  | .read => (s.cur q).rSync
  | .write => (s.cur q).wSync

/-- A SYNC agent's step is enabled: the copy differs from the cursor, and the core is not held
(44_fifo R212, R213, 60_exceptions R302). -/
def SyncEnabled (s : State) (q : QueueId) (side : SyncSide) : Prop :=
  s.cfg.fault = 0#8 ∧ copiedCursor s q side ≠ trueCursor s q side

/-- The event is a SYNC agent's step, with a draw that its rule admits in the state. -/
def SyncTaken (e : Event) (s : State) (q : QueueId) (side : SyncSide) : Prop :=
  ∃ d, e = .sync q side d ∧ 1 ≤ d ∧ d ≤ lagOf (s.cap q) (s.cur q) side

/-- Weak fairness of a SYNC agent: enabled from some step on without end, it takes a step. -/
def WeaklyFair (e : Nat → Event) (σ : Nat → State) (q : QueueId) (side : SyncSide) : Prop :=
  ∀ n, (∀ m ≥ n, SyncEnabled (σ m) q side) → ∃ m ≥ n, SyncTaken (e m) (σ m) q side

/-- Eventual delivery: where a cursor stops changing, its copy equals it from some step on. -/
def Delivers (σ : Nat → State) (q : QueueId) (side : SyncSide) : Prop :=
  ∀ n, (∀ m ≥ n, trueCursor (σ m) q side = trueCursor (σ n) q side) →
    ∃ k ≥ n, ∀ m ≥ k, copiedCursor (σ m) q side = trueCursor (σ m) q side

/-- The state after a step, or the same state where the step ends in a fault or a refusal. -/
def follow (s : State) : State :=
  match step s with
  | .next t => t
  | .fault _ => s
  | .refused _ => s

/-- The machine's own run from a state. -/
def runFrom (s : State) : Nat → State
  | 0 => s
  | n + 1 => follow (runFrom s n)

/-! ## Runs and reference forms, for claims -/

/-- `n` steps in a row; the first fault or refusal ends them. -/
def runSteps : Nat → State → Result
  | 0, s => .next s
  | n + 1, s =>
    match step s with
    | .next t => runSteps n t
    | .fault f => .fault f
    | .refused r => .refused r

/-- The elements of even place. -/
def evens {α : Type} : List α → List α
  | [] => []
  | [x] => [x]
  | x :: _ :: rest => x :: evens rest

/-- The elements of odd place. -/
def odds {α : Type} : List α → List α
  | [] => []
  | [_] => []
  | _ :: y :: rest => y :: odds rest

/-- The twiddled odd-half values of a node of stride `step`, from butterfly `j` on (45_fft R235: the
butterfly index is `i = 2*step*j`). -/
def twiddled (n step : Nat) : Nat → List Complex → List Complex
  | _, [] => []
  | j, o :: rest => cmul (twiddle (2 * step * j) n) o :: twiddled n step (j + 1) rest

/-- The recursion of 45_fft R235 over lists instead of two buffers: `levels` halvings of the sequence
of stride `step`; "`even + twiddle` to the left output half and `even - twiddle` to the right output
half". -/
def fftOfList (n : Nat) : Nat → Nat → List Complex → List Complex
  | 0, _, xs => xs
  | levels + 1, step, xs =>
    let e := fftOfList n levels (2 * step) (evens xs)
    let t := twiddled n step 0 (fftOfList n levels (2 * step) (odds xs))
    List.zipWith cadd e t ++ List.zipWith csub e t

/-- The input padded with zeros to `n` elements (45_fft R233). -/
def padded (n : Nat) (x : List Elem) : List Elem :=
  x ++ List.replicate (n - x.length) (Complex.pack ⟨posZero, posZero⟩)

end Sys2Proof.Machine
end

