-- ==== Sys2Proof/Certificates/Slice0/Obligations.lean ====
section
/-!
DEFINITION. The statements for the provers. Each cites the rules of spec/ that it formalises; where a
clause is the model's choice its docstring says so and names the log entry (notes/assumptions).

A next state is written as the state before with the changed fields named, so that the frame of an
instruction is every field that is not named. Where a form stores to an array, the arrays after are
described through `Memory.get`: the element stored, and every other element as it was.
-/

section
open Sys2Proof Sys2Proof.Machine

/-! ## Encodings -/

/-- Decoding what the encoder writes gives the instruction back, and a word that decodes to a
well-formed instruction is the word the encoder writes (30_encoding R92, R93, R97). -/
def Obligations.EncodeDecodeAgree : Prop :=
  (∀ i : Instr, i.wf = true → decode (encode i) = .ok i) ∧
  (∀ (e : Encoded) (i : Instr), decode e = .ok i → i.wf = true → encode i = e)

/-- "a word `w` selects a command when `w AND mask = match`" (30_encoding R92), and `arg` is bits 31:0
(R90). -/
def Obligations.CommandWordsSelect : Prop :=
  ∀ w : CmdWord,
    (decodeCmd w = .ok (.start (w.setWidth 32)) ↔ w &&& 0xFF00000000#40 = 0x0000000000#40) ∧
    (decodeCmd w = .ok (.stop (w.setWidth 32)) ↔ w &&& 0xFF00000000#40 = 0x0100000000#40) ∧
    (decodeCmd w = .ok (.changeFrequency (w.setWidth 32)) ↔
      w &&& 0xFF00000000#40 = 0x0200000000#40) ∧
    (decodeCmd w = .ok (.changeOscillator (w.setWidth 32)) ↔
      w &&& 0xFF00000000#40 = 0x0300000000#40) ∧
    (decodeCmd w = .ok (.changeNoise (w.setWidth 32)) ↔ w &&& 0xFF00000000#40 = 0x0400000000#40) ∧
    (decodeCmd w = .ok (.pressed (w.setWidth 32)) ↔ w &&& 0xFF00000000#40 = 0x0500000000#40) ∧
    (decodeCmd w = .ok (.released (w.setWidth 32)) ↔ w &&& 0xFF00000000#40 = 0x0600000000#40) ∧
    (0x07 ≤ (w >>> 32).toNat →
      decodeCmd w = .error (.unknownCommand ((w >>> 32).setWidth 8)))

/-- Words written out from the encodings decode to the instructions they stand for (46 R264 to R266,
30_encoding R97). A sanity statement. -/
def Obligations.SampleWordsDecode : Prop :=
  decodeCmd 0x0000000000#40 = .ok (.start 0#32) ∧
  decodeCmd 0x0100000000#40 = .ok (.stop 0#32) ∧
  decodeCmd 0x0243DC0000#40 = .ok (.changeFrequency 0x43DC0000#32) ∧
  decodeCmd 0x0300000002#40 = .ok (.changeOscillator 2#32) ∧
  decodeCmd 0x0500000000#40 = .ok (.pressed 0#32) ∧
  decodeUop 0b00000010#8 = .ok .oscRun ∧
  decodeUop 0b00010001#8 = .ok .noiseGaussian ∧
  decodeUop 0b00100010#8 = .ok .envUpdate ∧
  decodeUop 0b00110000#8 = .ok .metUpdate ∧
  decodeUop 0b01000010#8 = .ok .qFill ∧
  decodeUop 0b01010001#8 = .ok .fftMag ∧
  decodeUop 0b01100000#8 = .ok .ctrRead

/-- "Every 8-bit code not in rule R97 is reserved": a step that presents one is refused
(30_encoding R101). -/
def Obligations.ReservedCodesRefused : Prop :=
  ∀ (s : State) (a : Agent) (c : UopCode) (ops : Operands),
    c ∉ [0x00#8, 0x01#8, 0x02#8, 0x10#8, 0x11#8, 0x20#8, 0x21#8, 0x22#8, 0x30#8, 0x31#8, 0x32#8,
      0x40#8, 0x41#8, 0x42#8, 0x50#8, 0x51#8, 0x60#8] →
    s.cfg.fault = 0#8 → nextEvent s = .uop a c ops → (a = .aud → s.aud.left = 0) →
    step s = .refused (.reservedCode c)

/-! ## A step runs the decoded instruction -/

/-- Taking an event takes it from the agenda, counts it and moves the SYNC agents' turns on, and nothing
else; an operation presented
at a core that is not held is decoded from its code and run with the agent and its operands on the
ports (00_scope R15, 30_encoding R91, R98; the agenda is the model's, entry 2, and so are the turns,
entry 20). -/
def Obligations.StepRunsPresentedOperation : Prop :=
  (∀ s : State, takeEvent s =
    { s with agenda := s.agenda.tail, ticks := s.ticks + 1, rota := nextRota s }) ∧
  ∀ (s : State) (a : Agent) (c : UopCode) (ops : Operands) (i : Instr),
    s.cfg.fault = 0#8 → nextEvent s = .uop a c ops → (a = .aud → s.aud.left = 0) →
    decodeUop c = .ok i →
    step s = exec i { takeEvent s with port := ⟨a, ops⟩ }

/-- In Drain, below the bound, with a command visible to SYN: one pop of CMD, then the command popped
is executed (46_sequencer_commands R261, 44_fifo R208). That the field `port` is kept is the model's
choice (entry 28). -/
def Obligations.StepRunsPoppedCommand : Prop :=
  ∀ (s : State) (e : Elem) (i : Instr),
    s.cfg.fault = 0#8 → nextEvent s = .syn → s.syn.phase = .drain →
    s.syn.drained ≠ s.cfg.params.cmdCap → 0 < s.cfg.params.cmdCap →
    availC s.cfg.params.cmdCap s.cmdQ ≠ 0 →
    s.mem.get (.ring .cmd) (s.cmdQ.r % s.cfg.params.cmdCap) = some e →
    decodeCmd (e.setWidth 40) = .ok i →
    step s = exec i { takeEvent s with
      cmdQ := { s.cmdQ with r := (s.cmdQ.r + 1) % (2 * s.cfg.params.cmdCap) }
      res := { s.res with
        cmdQ := { s.res.cmdQ with valid := true, data := e.setWidth 40 } }
      syn := { s.syn with drained := s.syn.drained + 1 } }

/-- "Any word whose `op` is 0x07 to 0xFF is an unknown command: SYN pops it and ignores it (no state
changes other than the pop itself and `syn.drained`)" (30_encoding R100, 46 R272). That the field
`port` is kept is the model's choice (entry 28). -/
def Obligations.UnknownCommandIgnored : Prop :=
  ∀ (s : State) (e : Elem),
    s.cfg.fault = 0#8 → nextEvent s = .syn → s.syn.phase = .drain →
    s.syn.drained ≠ s.cfg.params.cmdCap → 0 < s.cfg.params.cmdCap →
    availC s.cfg.params.cmdCap s.cmdQ ≠ 0 →
    s.mem.get (.ring .cmd) (s.cmdQ.r % s.cfg.params.cmdCap) = some e →
    0x07 ≤ ((e.setWidth 40 : CmdWord) >>> 32).toNat →
    step s = .next { takeEvent s with
      cmdQ := { s.cmdQ with r := (s.cmdQ.r + 1) % (2 * s.cfg.params.cmdCap) }
      res := { s.res with
        cmdQ := { s.res.cmdQ with valid := true, data := e.setWidth 40 } }
      syn := { s.syn with drained := s.syn.drained + 1 } }

/-! ## The sequencer -/

/-- Drain ends at the bound or on a pop that finds nothing: "`syn.phase <- 1`, `syn.pos <- 0`,
`syn.drained <- 0`" (46_sequencer_commands R261, R262; the data port of the empty pop is free,
44_fifo R209). That the field `port` is kept is the model's choice (entry 28). -/
def Obligations.DrainEnds : Prop :=
  ∀ s : State, s.cfg.fault = 0#8 → nextEvent s = .syn → s.syn.phase = .drain →
    (s.syn.drained = s.cfg.params.cmdCap →
      step s = .next { takeEvent s with
        syn := { s.syn with phase := .gen, pos := 0, drained := 0 } }) ∧
    (s.syn.drained ≠ s.cfg.params.cmdCap → availC s.cfg.params.cmdCap s.cmdQ = 0 →
      ∃ d, step s = .next { takeEvent s with
        res := { s.res with cmdQ := { s.res.cmdQ with valid := false, data := d } }
        draws := s.draws + 1
        syn := { s.syn with phase := .gen, pos := 0, drained := 0 } })

/-- The sample of a running sequencer: the oscillator, the noise and the envelope each advanced once,
`y = (o + n) * g`, and the metronome given `syn.sample_count` (46_sequencer_commands R270). The
sample then waits to be pushed (the micro-steps are entry 4). Every register not named is kept. That
the field `port` is kept is the model's choice (entry 28). -/
def Obligations.RunningSampleIsMixed : Prop :=
  ∀ s : State, s.cfg.fault = 0#8 → nextEvent s = .syn → s.syn.phase = .gen →
    s.syn.stage = .compute → s.syn.running = true →
    let p := s.cfg.params
    let silent := feq s.osc.frequency posZero
    let o := if silent then posZero else waveSample p s.osc
    let env := updateEnv p s.env
    let vol := if s.env.state = .idle then posZero else env.volume
    let b := s.syn.sampleCount.toNat / p.tickPeriod.toNat
    ∃ n drawn, step s = .next { takeEvent s with
        osc := { s.osc with phase := if silent then s.osc.phase else advancePhase p s.osc }
        env := env
        met := ⟨s.syn.sampleCount, BitVec.ofNat 64 b,
          decide (s.syn.sampleCount.toNat % p.tickPeriod.toNat < p.clickWindow.toNat),
          decide (b % p.tsNumerator.toNat = 0)⟩
        res := { s.res with
          oscSample := o
          noiseSample := if s.syn.noiseSel = .none then s.res.noiseSample else n
          volume := vol }
        draws := drawn
        syn := { s.syn with
          stage := .pushOut (fmul (fadd o n) (if p.envGate then vol else one)) } } ∧
      (s.syn.noiseSel = .none → n = posZero) ∧
      (s.syn.noiseSel = .uniform →
        isFinite n = true ∧ fle minusOne n = true ∧ fle n one = true) ∧
      (s.syn.noiseSel = .gaussian → isFinite n = true)

/-- The sample of a stopped sequencer is `+0.0`, no unit is advanced, and the metronome goes on
(46_sequencer_commands R270). That the field `port` is kept is the model's choice (entry 28). -/
def Obligations.StoppedSampleIsSilent : Prop :=
  ∀ s : State, s.cfg.fault = 0#8 → nextEvent s = .syn → s.syn.phase = .gen →
    s.syn.stage = .compute → s.syn.running = false →
    let p := s.cfg.params
    let b := s.syn.sampleCount.toNat / p.tickPeriod.toNat
    step s = .next { takeEvent s with
      met := ⟨s.syn.sampleCount, BitVec.ofNat 64 b,
        decide (s.syn.sampleCount.toNat % p.tickPeriod.toNat < p.clickWindow.toNat),
        decide (b % p.tsNumerator.toNat = 0)⟩
      syn := { s.syn with stage := .pushOut posZero } }

/-- The sample goes to OUT first: pushed where OUT has room, else dropped and counted, saturating
(46_sequencer_commands R270, 60_exceptions R310). That the field `port` is kept is the model's
choice (entry 28). -/
def Obligations.SampleGoesToOut : Prop :=
  ∀ (s : State) (y : F), s.cfg.fault = 0#8 → nextEvent s = .syn → s.syn.phase = .gen →
    s.syn.stage = .pushOut y → 0 < s.cfg.params.outCap →
    let C := s.cfg.params.outCap
    (occP C s.outQ < C → ∃ m : Memory,
      m.get (.ring .out) (s.outQ.w % C) = some (y.setWidth 64) ∧
      (∀ a i, ¬(a = .ring .out ∧ i = s.outQ.w % C) → m.get a i = s.mem.get a i) ∧
      step s = .next { takeEvent s with
        mem := m
        outQ := { s.outQ with w := (s.outQ.w + 1) % (2 * C) }
        res := { s.res with outQ := { s.res.outQ with accepted := true } }
        syn := { s.syn with stage := .pushViz y } }) ∧
    (occP C s.outQ = C →
      step s = .next { takeEvent s with
        res := { s.res with outQ := { s.res.outQ with accepted := false } }
        ctr := { s.ctr with
          outDrops := BitVec.ofNat 32 (min (s.ctr.outDrops.toNat + 1) 0xFFFFFFFF) }
        syn := { s.syn with stage := .pushViz y } })

/-- The sample then goes to VIZ, and the sample step ends: the sample count goes on by one modulo
2^64, and the block goes on or SYN goes back to Drain (46_sequencer_commands R270). That the field
`port` is kept is the model's choice (entry 28). -/
def Obligations.SampleGoesToVizAndStepEnds : Prop :=
  ∀ (s : State) (y : F), s.cfg.fault = 0#8 → nextEvent s = .syn → s.syn.phase = .gen →
    s.syn.stage = .pushViz y → 0 < s.cfg.params.vizCap →
    let C := s.cfg.params.vizCap
    let syn' : Syn :=
      if s.syn.pos + 1 = s.cfg.params.blockSize then
        { s.syn with
          sampleCount := s.syn.sampleCount + 1#64, phase := .drain, pos := 0, stage := .compute }
      else
        { s.syn with
          sampleCount := s.syn.sampleCount + 1#64, pos := s.syn.pos + 1, stage := .compute }
    (occP C s.vizQ < C → ∃ m : Memory,
      m.get (.ring .viz) (s.vizQ.w % C) = some (y.setWidth 64) ∧
      (∀ a i, ¬(a = .ring .viz ∧ i = s.vizQ.w % C) → m.get a i = s.mem.get a i) ∧
      step s = .next { takeEvent s with
        mem := m
        vizQ := { s.vizQ with w := (s.vizQ.w + 1) % (2 * C) }
        res := { s.res with vizQ := { s.res.vizQ with accepted := true } }
        syn := syn' }) ∧
    (occP C s.vizQ = C →
      step s = .next { takeEvent s with
        res := { s.res with vizQ := { s.res.vizQ with accepted := false } }
        ctr := { s.ctr with
          vizDrops := BitVec.ofNat 32 (min (s.ctr.vizDrops.toNat + 1) 0xFFFFFFFF) }
        syn := syn' })

/-- In Gen no step but a reset changes a commanded parameter, and `env.state` changes only by
ENV.UPDATE (46_sequencer_commands R274). The premise that no operation is presented for SYN from the
agenda is the model's (entry 3): the spec's SYN issues its operations in its own sequence only. -/
def Obligations.BlockHasOneSetting : Prop :=
  ∀ s t : State, step s = .next t → s.syn.phase = .gen →
    (∀ p, nextEvent s ≠ .reset p) → (∀ c ops, nextEvent s ≠ .uop .syn c ops) →
    t.osc.frequency = s.osc.frequency ∧ t.osc.waveType = s.osc.waveType ∧
    t.osc.duty = s.osc.duty ∧ t.syn.noiseSel = s.syn.noiseSel ∧ t.syn.running = s.syn.running ∧
    (t.env = s.env ∨ t.env = updateEnv s.cfg.params s.env)

/-! ## Reset, construction and the one exception -/

/-- A reset, released with any parameter set, may come at any time, at a held core too; every register
takes the value of the reset table and the check's result is recorded (70_reset_and_hazards R330,
R331, 60_exceptions R302, R303). That the agenda, the turns of the SYNC agents and the two counts go on
is the model's (entries 18, 20). -/
def Obligations.ResetConstructs : Prop :=
  ∀ (s : State) (p : Params), nextEvent s = .reset p →
    step s = .next { State.atReset p with
      cfg := ⟨p, faultCode p⟩
      agenda := s.agenda.tail
      ticks := s.ticks + 1
      rota := nextRota s
      draws := s.draws }

/-- The reset table (10_state R45), for a parameter set with the default duty 0.5 of 00_scope R7; an
array element reads as nothing written. -/
def Obligations.ResetTable : Prop :=
  ∀ p : Params, p.defaultDuty = 0x3F000000#32 →
    let s := construct p
    s.osc = ⟨0#32, .sine, 0x3F000000#32, 0#32⟩ ∧
    s.osc.waveType.code = 0#3 ∧ s.env = ⟨.idle, 0#32, 0#32⟩ ∧ s.env.state.code = 0#3 ∧
    s.met = ⟨0#64, 0#64, false, false⟩ ∧
    (∀ q, s.cur q = ⟨0, 0, 0, 0⟩) ∧ (∀ a i, s.mem.get a i = none) ∧
    s.syn.running = false ∧ s.syn.noiseSel = .none ∧ s.syn.phase = .drain ∧ s.syn.pos = 0 ∧
    s.syn.drained = 0 ∧ s.syn.sampleCount = 0#64 ∧ s.fftN = 0 ∧ s.ctr = ⟨0#32, 0#32, 0#32⟩ ∧
    s.cfg = ⟨p, faultCode p⟩

/-- "The check tests the conditions in the order of the table and raises the first that holds"
(60_exceptions R301): the code is the place of the first condition that holds, 0 where none does. -/
def Obligations.FirstCauseIsRecorded : Prop :=
  ∀ p : Params,
    let badDuration := fun d : F =>
      isNaN d || !feq (ffloor d) d || flt d one || flt maxDur d
    (construct p).cfg.fault =
      match [isNaN p.sampleRate || isInf p.sampleRate || !flt posZero p.sampleRate,
          decide (p.tickPeriod = 0#64),
          badDuration p.attackDur || badDuration p.decayDur || badDuration p.releaseDur,
          isNaN p.sustainLevel || flt p.sustainLevel posZero || flt one p.sustainLevel ||
            (decide (p.releaseMode = .forced) && feq p.sustainLevel posZero),
          decide (p.outCap = 0) || decide (p.vizCap = 0) || decide (p.cmdCap = 0),
          decide (p.tsNumerator = 0#32) || decide (p.tsDenominator = 0#32),
          decide (p.blockSize = 0),
          decide (p.fftMaxN = 0) || decide (2 ^ Nat.log2 p.fftMaxN ≠ p.fftMaxN),
          isNaN p.aSq || isInf p.aSq || !flt posZero p.aSq].findIdx? id with
      | none => 0#8
      | some k => BitVec.ofNat 8 (k + 1)

/-- A held core is stuck: no step but a reset is enabled (60_exceptions R302). -/
def Obligations.HeldCoreIsStuck : Prop :=
  ∀ s : State, s.cfg.fault ≠ 0#8 → (∀ p, nextEvent s ≠ .reset p) →
    step s = .fault (.held s.cfg.fault)

/-! ## Ownership -/

/-- "an operation issued by any other agent is out of contract and a model refuses it"
(60_exceptions R320); so is the reserved selector value 3 (30_encoding R101). -/
def Obligations.OtherAgentsAreRefused : Prop :=
  ∀ s : State,
    (s.port.agent ≠ .syn → ∀ i ∈ [Instr.oscSetFrequency, .oscSetWaveType, .oscRun, .noiseUniform,
        .noiseGaussian, .envPress, .envRelease, .envUpdate, .metUpdate, .metGetBeatIndex, .tsAccent],
      exec i s = .refused (.notOwner s.port.agent)) ∧
    ((s.port.ops.q = 0#2 ∨ s.port.ops.q = 1#2) → s.port.agent ≠ .syn →
      exec .qTryPush s = .refused (.notOwner s.port.agent)) ∧
    (s.port.ops.q = 2#2 → s.port.agent ≠ .vis →
      exec .qTryPush s = .refused (.notOwner s.port.agent)) ∧
    (s.port.ops.q = 0#2 → s.port.agent ≠ .aud →
      exec .qTryPop s = .refused (.notOwner s.port.agent)) ∧
    (s.port.ops.q = 1#2 → s.port.agent ≠ .vis →
      exec .qTryPop s = .refused (.notOwner s.port.agent)) ∧
    (s.port.ops.q = 2#2 → s.port.agent ≠ .syn →
      exec .qTryPop s = .refused (.notOwner s.port.agent)) ∧
    (s.port.agent ≠ .aud → exec .qFill s = .refused (.notOwner s.port.agent)) ∧
    (s.port.agent ≠ .vis → exec .fftTransform s = .refused (.notOwner s.port.agent) ∧
      exec .fftMag s = .refused (.notOwner s.port.agent)) ∧
    (s.port.ops.c ≠ 3#2 → s.port.agent = .syn →
      exec .ctrRead s = .refused (.notOwner .syn)) ∧
    (s.port.ops.q = 3#2 → exec .qTryPush s = .refused .reservedSelector ∧
      exec .qTryPop s = .refused .reservedSelector) ∧
    (s.port.ops.c = 3#2 → exec .ctrRead s = .refused .reservedSelector)

/-- "A host cannot reach unit state except through commands: no host operation reads or writes
`osc.*`, `env.*`, `met.*`, `ts.*`, `syn.*`" (60_exceptions R321): a step of AUD, of VIS or of a SYNC
agent does the same whatever these registers hold, and keeps them. -/
def Obligations.HostsNeitherReadNorWriteUnits : Prop :=
  ∀ (s : State) (u : SynUnits),
    ((∃ c ops, nextEvent s = .uop .aud c ops) ∨ (∃ c ops, nextEvent s = .uop .vis c ops) ∨
      nextEvent s = .fillSlot ∨ (∃ q side d, nextEvent s = .sync q side d)) →
    step (s.withUnits u) = mapNext (fun t => t.withUnits u) (step s) ∧
    ∀ t, step s = .next t →
      t.osc = s.osc ∧ t.env = s.env ∧ t.met = s.met ∧ t.syn = s.syn

/-! ## The command words -/

/-- "`syn.running <- 1`" and "`syn.running <- 0`", whatever `arg` holds; "no unit is reset"
(46_sequencer_commands R263, R264). -/
def Obligations.StartAndStopSetRunning : Prop :=
  ∀ (s : State) (arg : BitVec 32),
    exec (.start arg) s = .next { s with syn := { s.syn with running := true } } ∧
    exec (.stop arg) s = .next { s with syn := { s.syn with running := false } }

/-- CHANGE_FREQUENCY and OSC.SET_FREQUENCY write a frequency that is finite and not below zero, the
patterns 00000000 to 7F7FFFFF and 80000000, and nothing else; any other pattern is refused
(46_sequencer_commands R265, 40_oscillator R121, R133). That a command keeps the field `port` is the
model's choice (entry 28). -/
def Obligations.FrequencyIsWrittenOrRefused : Prop :=
  ∀ (s : State) (f : F),
    ((f.toNat < 0x7F800000 ∨ f = 0x80000000#32) →
      exec (.changeFrequency f) s = .next { s with osc := { s.osc with frequency := f } } ∧
      (s.port.agent = .syn → s.port.ops.f = f →
        exec .oscSetFrequency s = .next { s with osc := { s.osc with frequency := f } })) ∧
    (¬(f.toNat < 0x7F800000 ∨ f = 0x80000000#32) →
      exec (.changeFrequency f) s = .refused (.badFrequency f) ∧
      (s.port.agent = .syn → s.port.ops.f = f →
        exec .oscSetFrequency s = .refused (.badFrequency f)))

/-- OSC.SET_WAVE_TYPE (40_oscillator R122, R133): an id above 4 changes nothing; an id from 0 to 4 is
the new `osc.wave_type`; Square also takes the duty, clamped to `[0,1]`, and refuses a NaN. -/
def Obligations.WaveTypeIsSet : Prop :=
  ∀ s : State, s.port.agent = .syn →
    let w := s.port.ops.w
    let d := s.port.ops.d
    (4 < w.toNat → exec .oscSetWaveType s = .next s) ∧
    (w.toNat ≤ 4 → w ≠ 2#8 → ∃ k : WaveType, k.code = w.setWidth 3 ∧
      exec .oscSetWaveType s = .next { s with osc := { s.osc with waveType := k } }) ∧
    (w = 2#8 → isNaN d = false →
      exec .oscSetWaveType s = .next { s with osc := { s.osc with
        waveType := .square
        duty := if flt d 0x00000000#32 then 0x00000000#32
          else if flt 0x3F800000#32 d then 0x3F800000#32 else d } }) ∧
    (w = 2#8 → isNaN d = true → exec .oscSetWaveType s = .refused (.nanDuty d))

/-- CHANGE_OSCILLATOR takes the id from bits 7:0, sets the waveform and keeps the duty; "Unknown ids
are ignored" (46_sequencer_commands R266, 30_encoding R93, R95). The duty kept is the one held,
clamped again, which changes no duty from 0 to 1. That a command keeps the field `port` is the
model's choice (entry 28). -/
def Obligations.ChangeOscillatorSetsTheWave : Prop :=
  ∀ (s : State) (arg : BitVec 32),
    let id := arg.toNat % 256
    (4 < id → exec (.changeOscillator arg) s = .next s) ∧
    (id ≤ 4 → (id = 2 → dutyInRange s.osc.duty = true) → ∃ k : WaveType, k.code.toNat = id ∧
      exec (.changeOscillator arg) s = .next { s with osc := { s.osc with waveType := k } })

/-- CHANGE_NOISE takes the id from bits 7:0 and sets `syn.noise_sel`; ids above 2 are ignored
(46_sequencer_commands R267, 30_encoding R96). -/
def Obligations.ChangeNoiseSetsTheSelection : Prop :=
  ∀ (s : State) (arg : BitVec 32),
    let id := arg.toNat % 256
    (2 < id → exec (.changeNoise arg) s = .next s) ∧
    (id ≤ 2 → ∃ k : NoiseSel, k.code.toNat = id ∧
      exec (.changeNoise arg) s = .next { s with syn := { s.syn with noiseSel := k } })

/-! ## The units of SYN -/

/-- OSC.RUN (40_oscillator R123 to R130): the sample of the phase held before the call, by the formula
of the waveform, then one advance of the phase; at frequency zero `+0.0` and the phase kept. -/
def Obligations.OscRunGivesTheWaveform : Prop :=
  ∀ s : State, s.port.agent = .syn →
    let p := s.osc.phase
    let x := fsub (fmul 0x40000000#32 p) 0x3F800000#32
    (feq s.osc.frequency 0x00000000#32 = true →
      exec .oscRun s = .next { s with res := { s.res with oscSample := 0x00000000#32 } }) ∧
    (feq s.osc.frequency 0x00000000#32 = false →
      exec .oscRun s = .next { s with
        osc := { s.osc with
          phase := fmod1 (fadd p (fdiv s.osc.frequency s.cfg.params.sampleRate)) }
        res := { s.res with
          oscSample := match s.osc.waveType with
            | .sine => fsin (fmul 0x40C90FDB#32 p)
            | .fastSine => fmul (fmul 0x40800000#32 x) (fsub 0x3F800000#32 (fabs x))
            | .sawtooth => x
            | .square => if flt p s.osc.duty then s.cfg.params.aSq else fneg s.cfg.params.aSq
            | .triangle =>
              fsub 0x3F800000#32 (fmul 0x40800000#32 (fabs (fsub p 0x3F000000#32))) } })

/-- NOISE.UNIFORM and NOISE.GAUSSIAN drive a draw of the admitted set and change no register of the
spec (41_noise R151, R152). The count of draws is the model's (entry 7), and so is the way a free
value is kept in the set: an admitted value is taken as it is. -/
def Obligations.NoiseDrawsAreAdmitted : Prop :=
  (∀ s : State, s.port.agent = .syn →
    (∃ d, exec .noiseUniform s =
        .next { s with res := { s.res with noiseSample := d }, draws := s.draws + 1 } ∧
      isFinite d = true ∧ fle 0xBF800000#32 d = true ∧ fle d 0x3F800000#32 = true) ∧
    (∃ d, exec .noiseGaussian s =
        .next { s with res := { s.res with noiseSample := d }, draws := s.draws + 1 } ∧
      isFinite d = true)) ∧
  (∀ d : F, isFinite d = true → gaussianOf d = d ∧
    (fle 0xBF800000#32 d = true → fle d 0x3F800000#32 = true → uniformOf d = d))

/-- ENV.PRESS and PRESSED: from Idle to Attack with tick `+0.0`; from any other state to Attack with
the tick re-derived from the volume; the volume is kept (42_envelope R162, R163, 46 R268). That a
command keeps the field `port` is the model's choice (entry 28). -/
def Obligations.PressGoesToAttack : Prop :=
  ∀ (s : State) (arg : BitVec 32),
    let e : Env := { s.env with
      state := .attack
      tick := if s.env.state = .idle then 0x00000000#32
        else fmul (fdiv (fsub s.env.volume 0x00000000#32) (fsub 0x3F800000#32 0x00000000#32))
          s.cfg.params.attackDur }
    exec (.pressed arg) s = .next { s with env := e } ∧
    (s.port.agent = .syn → exec .envPress s = .next { s with env := e })

/-- ENV.RELEASE and RELEASED: nothing in mode NoOp; in mode Forced, from Attack, Decay and Sustain to
Release at the tick where the release line has the volume, and nothing in Idle and in Release
(42_envelope R164, 46 R269). That a command keeps the field `port` is the model's choice (entry 28). -/
def Obligations.ReleaseFollowsTheMode : Prop :=
  ∀ (s : State) (arg : BitVec 32),
    let e : Env :=
      if s.cfg.params.releaseMode = .forced ∧ s.env.state ≠ .idle ∧ s.env.state ≠ .release then
        { s.env with
          state := .release
          tick := fmul (fdiv (fsub s.env.volume s.cfg.params.sustainLevel)
            (fsub 0x00000000#32 s.cfg.params.sustainLevel)) s.cfg.params.releaseDur }
      else s.env
    exec (.released arg) s = .next { s with env := e } ∧
    (s.port.agent = .syn → exec .envRelease s = .next { s with env := e })

/-- ENV.UPDATE (42_envelope R165 to R170): advance, interpolate with the parameter clamped to 1, then
the transition that is due, with the segments of R161; Idle and Sustain change nothing. -/
def Obligations.EnvUpdateFollowsTheSegment : Prop :=
  ∀ s : State, s.port.agent = .syn →
    let p := s.cfg.params
    let k := fadd s.env.tick 0x3F800000#32
    let along := fun (a b dur : F) (next : EnvState) =>
      let t := fmin (fdiv k dur) 0x3F800000#32
      let v := fadd a (fmul (fsub b a) t)
      if fge k dur then
        (⟨next, if next = .idle then 0x00000000#32 else v, 0x00000000#32⟩ : Env)
      else ⟨s.env.state, v, k⟩
    let e := match s.env.state with
      | .idle => s.env
      | .attack => along 0x00000000#32 0x3F800000#32 p.attackDur .decay
      | .decay => along 0x3F800000#32 p.sustainLevel p.decayDur .release
      | .sustain => s.env
      | .release => along p.sustainLevel 0x00000000#32 p.releaseDur .idle
    exec .envUpdate s = .next { s with
      env := e
      res := { s.res with volume := if s.env.state = .idle then 0x00000000#32 else e.volume } }

/-- MET.UPDATE (43_metronome R192), for a tick period and a numerator that construction admits. -/
def Obligations.MetUpdateEvaluatesTheCount : Prop :=
  ∀ s : State, s.port.agent = .syn → s.cfg.params.tickPeriod ≠ 0#64 →
    s.cfg.params.tsNumerator ≠ 0#32 →
    ∃ t, exec .metUpdate s = .next t ∧ t = { s with met := t.met } ∧
      let e := s.port.ops.e.toNat
      let P := s.cfg.params.tickPeriod.toNat
      t.met.sampleCount = s.port.ops.e ∧
      (t.met.beatIndex.toNat * P ≤ e ∧ e < (t.met.beatIndex.toNat + 1) * P) ∧
      (t.met.showBeat = true ↔
        e - t.met.beatIndex.toNat * P < s.cfg.params.clickWindow.toNat) ∧
      (t.met.accent = true ↔ s.cfg.params.tsNumerator.toNat ∣ t.met.beatIndex.toNat)

/-- "for non-decreasing `elapsed_samples` inputs, `beat_index` is non-decreasing; `beat_index =
floor(elapsed_samples / tick_period)` exactly" (43_metronome R195, which follows from R192). -/
def Obligations.BeatIndexIsMonotone : Prop :=
  ∀ s s' t t' : State, s.cfg.params = s'.cfg.params →
    s.port.ops.e.toNat ≤ s'.port.ops.e.toNat →
    exec .metUpdate s = .next t → exec .metUpdate s' = .next t' →
    t.met.beatIndex.toNat = s.port.ops.e.toNat / s.cfg.params.tickPeriod.toNat ∧
    t.met.beatIndex.toNat ≤ t'.met.beatIndex.toNat

/-- MET.GET_BEAT_INDEX drives the index where it fits 32 bits and is refused where it does not; it has
no side effect (43_metronome R193). -/
def Obligations.GetBeatIndexFitsOrIsRefused : Prop :=
  ∀ s : State, s.port.agent = .syn →
    (s.met.beatIndex.toNat < 2 ^ 32 → ∃ b : BitVec 32, b.toNat = s.met.beatIndex.toNat ∧
      exec .metGetBeatIndex s = .next { s with res := { s.res with beat := b } }) ∧
    (2 ^ 32 ≤ s.met.beatIndex.toNat →
      exec .metGetBeatIndex s = .refused (.beatIndexTooWide s.met.beatIndex))

/-- TS.ACCENT drives `ts.accent` and has no side effect (43_metronome R194). -/
def Obligations.TsAccentReadsTheFlag : Prop :=
  ∀ s : State, s.port.agent = .syn →
    exec .tsAccent s = .next { s with res := { s.res with accent := s.met.accent } }

/-! ## The queues -/

/-- Q.TRY_PUSH by the producer (44_fifo R206, R207; owners 60_exceptions R320): accepted where the
producer sees room, the element written (its low bits, the width of the queue) and `q.w` advanced;
refused where it sees `C` elements, with no register and no ring entry changed. More than `C` are
seen in no reachable state (10_state R37; entry 13). -/
def Obligations.TryPushIsAcceptedOrRefused : Prop :=
  ∀ (s : State) (q : QueueId), queueOf s.port.ops.q = some q →
    s.port.agent = (if q = .cmd then .vis else .syn) → 0 < s.cap q →
    let C := s.cap q
    let c := s.cur q
    let i := c.w % C
    let drive := fun (b : Bool) => s.res.setQueue q { s.res.queue q with accepted := b }
    ((c.w + (2 * C - c.rSync % (2 * C))) % (2 * C) < C → ∃ m : Memory,
      m.get (.ring q) i =
        some (s.port.ops.v.setWidth 64 &&& (if q = .cmd then 0xFFFFFFFFFF#64 else 0xFFFFFFFF#64)) ∧
      (∀ a j, ¬(a = .ring q ∧ j = i) → m.get a j = s.mem.get a j) ∧
      exec .qTryPush s =
        .next ({ s with mem := m, res := drive true }.withCur q
          { c with w := (c.w + 1) % (2 * C) })) ∧
    ((c.w + (2 * C - c.rSync % (2 * C))) % (2 * C) = C →
      exec .qTryPush s = .next { s with res := drive false })

/-- Q.TRY_POP by the consumer (44_fifo R208, R209; owners 60_exceptions R320): where the consumer sees
data, the element at `q.r` is driven and `q.r` advanced; where it sees none, no register changes and
the data port holds any value. The count of free values is the model's (entry 7), and so are bits
39:32 of the data port on OUT and VIZ (entry 14). -/
def Obligations.TryPopTakesOrFindsNothing : Prop :=
  ∀ (s : State) (q : QueueId), queueOf s.port.ops.q = some q →
    s.port.agent = (match q with | .out => .aud | .viz => .vis | .cmd => .syn) → 0 < s.cap q →
    let C := s.cap q
    let c := s.cur q
    ((c.wSync + (2 * C - c.r % (2 * C))) % (2 * C) ≠ 0 →
      ∀ e, s.mem.get (.ring q) (c.r % C) = some e →
      exec .qTryPop s =
        .next ({ s with
          res := s.res.setQueue q
            { s.res.queue q with valid := true, data := e.setWidth 40 } }.withCur q
          { c with r := (c.r + 1) % (2 * C) })) ∧
    ((c.wSync + (2 * C - c.r % (2 * C))) % (2 * C) = 0 →
      ∃ d, exec .qTryPop s =
        .next { s with
          res := s.res.setQueue q { s.res.queue q with valid := false, data := d }
          draws := s.draws + 1 })

/-- Pushes and pops keep the order of the elements (20_memory R67): an accepted push puts its element
behind those not yet popped, a pop with data takes the oldest of them and drives it, a refused push
and an empty pop change none, and no queue is touched by an operation on another (the 40-bit ports are
the model's, entry 14). -/
def Obligations.QueuesAreFirstInFirstOut : Prop :=
  ∀ (s t : State) (q : QueueId), queueOf s.port.ops.q = some q → CursorsOk (s.cap q) (s.cur q) →
    (exec .qTryPush s = .next t →
      ((t.res.queue q).accepted = true → contents t q =
        contents s q ++ [some (s.port.ops.v.setWidth 64 &&& elemMask (.ring q))]) ∧
      ((t.res.queue q).accepted = false → contents t q = contents s q) ∧
      ∀ q', q' ≠ q → contents t q' = contents s q') ∧
    (exec .qTryPop s = .next t →
      ((t.res.queue q).valid = true → ∃ e : Elem, (t.res.queue q).data = e.setWidth 40 ∧
        contents s q = some e :: contents t q) ∧
      ((t.res.queue q).valid = false → contents t q = contents s q) ∧
      ∀ q', q' ≠ q → contents t q' = contents s q')

/-- No step but a reset reorders a queue, loses an element of it or invents one: a step leaves a queue
as it was, and then no push on it was accepted and no pop of it found data; or it puts behind the
others the element that it pushes, accepted; or it takes the oldest element and drives it, and a slot
of Q.FILL puts it into the block (20_memory R66, R67, 44_fifo R206 to R210, R216; that a Q.FILL is
done slot by slot, in `aud`, is entry 5; the 40-bit data port is entry 14). -/
def Obligations.NoStepReordersAQueue : Prop :=
  ∀ s t : State, QueueInv s → step s = .next t → (∀ p, nextEvent s ≠ .reset p) → ∀ q,
    (contents t q = contents s q ∧
      (∀ v, pushesNext s q v → (t.res.queue q).accepted = false) ∧
      (popsNext s q → (t.res.queue q).valid = false)) ∨
    (∃ v, pushesNext s q v ∧ (t.res.queue q).accepted = true ∧
      contents t q = contents s q ++ [some v]) ∨
    (∃ v, popsNext s q ∧ (t.res.queue q).valid = true ∧
      (t.res.queue q).data = v.setWidth 40 ∧ contents s q = some v :: contents t q ∧
      (q = .out → fillsNext s → t.aud.block = s.aud.block ++ [v.setWidth 32]))

/-- SYNC(q,R) moves `q.r_sync` on by the draw, and only it; the lag shrinks by the draw, so the copy
never passes `q.r` (44_fifo R212). -/
def Obligations.SyncReadFollowsTheReadCursor : Prop :=
  ∀ (s : State) (q : QueueId) (d : Nat), s.cfg.fault = 0#8 → nextEvent s = .sync q .read d →
    let C := s.cap q
    let c := s.cur q
    c.r < 2 * C → c.rSync < 2 * C → 1 ≤ d → d ≤ modSub c.r c.rSync (2 * C) →
    ∃ x, x = (c.rSync + d) % (2 * C) ∧
      step s = .next ((takeEvent s).withCur q { c with rSync := x }) ∧
      modSub c.r x (2 * C) = modSub c.r c.rSync (2 * C) - d

/-- SYNC(q,W) moves `q.w_sync` on by the draw, and only it; the lag shrinks by the draw, so the copy
never passes `q.w` (44_fifo R213). -/
def Obligations.SyncWriteFollowsTheWriteCursor : Prop :=
  ∀ (s : State) (q : QueueId) (d : Nat), s.cfg.fault = 0#8 → nextEvent s = .sync q .write d →
    let C := s.cap q
    let c := s.cur q
    c.w < 2 * C → c.wSync < 2 * C → 1 ≤ d → d ≤ modSub c.w c.wSync (2 * C) →
    ∃ x, x = (c.wSync + d) % (2 * C) ∧
      step s = .next ((takeEvent s).withCur q { c with wSync := x }) ∧
      modSub c.w x (2 * C) = modSub c.w c.wSync (2 * C) - d

/-- "if a cursor stops changing, weak fairness of the SYNC agent makes its copy equal to it after
finitely many steps" (20_memory R66 (d), 44_fifo R213, 70_reset_and_hazards R347): so in every run
under any schedule that is weakly fair to the agent. The model's own schedule is: an agent whose turn
has come takes a step and brings its copy nearer, and the machine's run from any state is weakly fair
to all six agents, or ends in a fault or a refusal. That the agents come to their steps by turns, at
free intervals, is the model's (entry 20). -/
def Obligations.CursorsAreDelivered : Prop :=
  (∀ (e : Nat → Event) (σ : Nat → State), IsRun e σ → QueueInv (σ 0) → ∀ q side,
    WeaklyFair e σ q side → Delivers σ q side) ∧
  (∀ (s : State) (q : QueueId) (side : SyncSide), QueueInv s → SyncEnabled s q side →
    s.agenda = [] → s.rota = ⟨0, ⟨q, side⟩⟩ →
    SyncTaken (nextEvent s) s q side ∧ ∃ t, step s = .next t ∧
      trueCursor t q side = trueCursor s q side ∧
      lagOf (t.cap q) (t.cur q) side < lagOf (s.cap q) (s.cur q) side) ∧
  (∀ s : State, QueueInv s → (∃ n, ∀ u, step (runFrom s n) ≠ .next u) ∨
    ∀ q side, WeaklyFair (fun n => nextEvent (runFrom s n)) (runFrom s) q side)

/-- Q.FILL on OUT begins: `n` slots to do and none done, nothing else changed; on another queue, or
with the reserved selector, it is refused (44_fifo R210, 30_encoding R101; the fill in progress is
entry 5, the selector of another queue entry 15). -/
def Obligations.FillBegins : Prop :=
  ∀ s : State, s.port.agent = .aud →
    (s.port.ops.q = 0#2 → exec .qFill s = .next { s with aud := ⟨s.port.ops.n, []⟩ }) ∧
    (s.port.ops.q ≠ 0#2 → exec .qFill s = .refused .fillNotOnOut)

/-- A Q.FILL of `n` slots, no other agent stepping: each slot gets the next sample that AUD sees, or
`+0.0` when there is none, and each such slot is counted, saturating (44_fifo R210). That the slots
are events of the agenda is the model's (entries 2, 5, 20). That the field `port` is kept is the
model's choice (entry 28). -/
def Obligations.FillTakesSamplesThenSilence : Prop :=
  ∀ (s : State) (n : Nat) (rest : List Event), s.cfg.fault = 0#8 →
    CursorsOk s.cfg.params.outCap s.outQ →
    RingWritten s.cfg.params.outCap s.outQ s.mem .out →
    s.aud = ⟨n, []⟩ → s.agenda = List.replicate n .fillSlot ++ rest →
    let C := s.cfg.params.outCap
    let k := min n (availC C s.outQ)
    ∃ t, runSteps n s = .next t ∧
      t.aud = ⟨0, ((List.range k).map fun j =>
          ((s.mem.get (.ring .out) (slotIndex C s.outQ j)).getD 0#64).setWidth 32) ++
        List.replicate (n - k) 0x00000000#32⟩ ∧
      t.outQ = { s.outQ with r := advance C s.outQ.r k } ∧
      t.ctr = { s.ctr with
        outUnderflows := BitVec.ofNat 32 (min (s.ctr.outUnderflows.toNat + (n - k)) 0xFFFFFFFF) } ∧
      t.agenda = rest ∧ t.mem = s.mem ∧ t.osc = s.osc ∧ t.env = s.env ∧ t.met = s.met ∧
      t.vizQ = s.vizQ ∧ t.cmdQ = s.cmdQ ∧ t.syn = s.syn ∧ t.fftN = s.fftN ∧ t.cfg = s.cfg ∧
      t.audSeen = s.audSeen ∧ t.visSeen = s.visSeen ∧ t.port = s.port ∧ t.rota = s.rota

/-- An operation that AUD presents while its fill is in progress waits: the next slot is done and the
operation stays next (20_memory R65; entry 5). -/
def Obligations.AudFinishesItsFillFirst : Prop :=
  ∀ (s t : State) (c : UopCode) (ops : Operands), s.cfg.fault = 0#8 →
    nextEvent s = .uop .aud c ops → s.aud.left ≠ 0 → step s = .next t →
    t.aud.left + 1 = s.aud.left ∧ t.aud.block.length = s.aud.block.length + 1 ∧
    nextEvent t = .uop .aud c ops ∧ t.agenda.tail = s.agenda.tail

/-! ## The FFT -/

/-- The working length is the smallest power of two at or above the input length, and 0 for none
(45_fft R231). -/
def Obligations.PaddedLengthIsTheNextPowerOfTwo : Prop :=
  paddedLength 0 = 0 ∧
  ∀ L, 1 ≤ L → (∃ k, paddedLength L = 2 ^ k) ∧ L ≤ paddedLength L ∧
    ∀ j, L ≤ 2 ^ j → paddedLength L ≤ 2 ^ j

/-- Empty input gives the empty result and touches no buffer; oversize input is rejected with no state
changed (45_fft R232). That the ports N and X keep their values on a rejection is the model's
(entry 16). -/
def Obligations.FftEmptyAndOversize : Prop :=
  ∀ s : State, s.port.agent = .vis →
    (s.port.ops.x = [] → exec .fftTransform s = .next { s with
      fftN := 0
      res := { s.res with fftStatus := 0#1, fftLength := 0, fftX := [] } }) ∧
    (s.port.ops.x ≠ [] → s.cfg.params.fftMaxN < paddedLength s.port.ops.x.length →
      exec .fftTransform s = .next { s with res := { s.res with fftStatus := 1#1 } })

/-- FFT.TRANSFORM completes on every input that fits, on any contents of the buffers: the result is
the recursion of 45_fft R235 on the zero-padded input, it stands in `fft.A` and on the ports, and
nothing but the two buffers (below the working length), `fft.n` and the ports changes
(45_fft R233 to R236). -/
def Obligations.FftTransformComputesTheRecursion : Prop :=
  ∀ s : State, s.port.agent = .vis → s.port.ops.x ≠ [] →
    paddedLength s.port.ops.x.length ≤ s.cfg.params.fftMaxN →
    let N := paddedLength s.port.ops.x.length
    let X := (fftOfList N (Nat.log2 N) 1
      ((padded N s.port.ops.x).map Complex.unpack)).map Complex.pack
    ∃ m : Memory, exec .fftTransform s = .next { s with
        mem := m
        fftN := N
        res := { s.res with fftStatus := 0#1, fftLength := N, fftX := X } } ∧
      X.length = N ∧ (∀ k < N, m.get .fftA k = X[k]?) ∧
      (∀ q i, m.get (.ring q) i = s.mem.get (.ring q) i) ∧
      (∀ i, N ≤ i → m.get .fftA i = s.mem.get .fftA i ∧ m.get .fftB i = s.mem.get .fftB i)

/-- FFT.MAG (45_fft R238): bin `k` of the first half is `(k * SAMPLE_RATE / N, sqrt(re^2 + im^2))`. -/
def Obligations.FftMagGivesTheBins : Prop :=
  ∀ s : State, s.port.agent = .vis → FftInv s →
    ∃ bins : List (F × F),
      exec .fftMag s = .next { s with res := { s.res with bins := bins } } ∧
      bins.length = s.fftN / 2 ∧
      ∀ k < s.fftN / 2, ∃ e : Elem, s.mem.get .fftA k = some e ∧
        let re : F := e.extractLsb' 32 32
        let im : F := e.extractLsb' 0 32
        bins[k]? = some (fdiv (fmul (itof k) s.cfg.params.sampleRate) (itof s.fftN),
          fsqrt (fadd (fmul re re) (fmul im im)))

/-! ## The counters -/

/-- CTR.READ by AUD or by VIS drives a count between the one that reader got last and the counter's,
and that count is the reader's last from then on; the counter is kept (60_exceptions R312). The
count of draws is the model's (entry 7), and so is a count port for each reader (entry 6). -/
def Obligations.CtrReadIsBetween : Prop :=
  ∀ (s : State) (k : CounterId), counterOf s.port.ops.c = some k →
    (s.port.agent = .aud → (s.audSeen.get k).toNat ≤ (s.ctr.get k).toNat →
      ∃ v : BitVec 32, (s.audSeen.get k).toNat ≤ v.toNat ∧ v.toNat ≤ (s.ctr.get k).toNat ∧
        exec .ctrRead s = .next { s with
          audSeen := s.audSeen.set k v
          res := { s.res with audCount := v }
          draws := s.draws + 1 }) ∧
    (s.port.agent = .vis → (s.visSeen.get k).toNat ≤ (s.ctr.get k).toNat →
      ∃ v : BitVec 32, (s.visSeen.get k).toNat ≤ v.toNat ∧ v.toNat ≤ (s.ctr.get k).toNat ∧
        exec .ctrRead s = .next { s with
          visSeen := s.visSeen.set k v
          res := { s.res with visCount := v }
          draws := s.draws + 1 })

/-! ## Storage -/

/-- "`MemRead(S[i], 1)` returns the element last written to `S[i]`"; another element is as before; an
element nothing wrote since reset, and an index outside the array, fault (20_memory R61, R60). -/
def Obligations.ReadsReturnTheLastWrite : Prop :=
  ∀ (p : Params) (m : Memory) (a : ArrayId) (i : Nat) (v : Elem),
    (i < arraySize p a → ∃ m', writeElem p m a i v = .ok m' ∧
      readElem p m' a i = .ok (v &&& elemMask a) ∧
      ∀ b j, ¬(b = a ∧ j = i) → readElem p m' b j = readElem p m b j) ∧
    (i < arraySize p a → m.get a i = none → readElem p m a i = .error (.unwrittenElement a i)) ∧
    (arraySize p a ≤ i → readElem p m a i = .error (.outsideArray a i) ∧
      writeElem p m a i v = .error (.outsideArray a i)) ∧
    Memory.unwritten.get a i = none

/-! ## What every step keeps -/

/-- The arrays keep their canonical form (entry 12). -/
def Obligations.StepsKeepMemoryCanonical : Prop :=
  ∀ s t : State, MemInv s → step s = .next t → MemInv t

/-- The queue invariants: `0 <= avail_c <= occ <= occ_p <= C` and no unpopped entry unwritten
(10_state R37, R38, 44_fifo R216). -/
def Obligations.StepsKeepQueueInvariants : Prop :=
  ∀ s t : State, QueueInv s → step s = .next t → QueueInv t

/-- "Invariant: `0.0 <= osc.phase < 1.0` at all times" (10_state R25, 40_oscillator R129). Where
`fmod1` is undefined (an argument that is infinite, a NaN or negative) the range is the model's choice
(entry 11). -/
def Obligations.StepsKeepPhaseInRange : Prop :=
  ∀ s t : State, PhaseInv s → step s = .next t → PhaseInv t

/-- The duty stays in `[0,1]` (10_state R24, 40_oscillator R122). -/
def Obligations.StepsKeepDutyInRange : Prop :=
  ∀ s t : State, DutyInv s → step s = .next t → DutyInv t

/-- "`env.state = Idle` implies `env.volume = +0.0`" (10_state R29), and no step enters Sustain
(42_envelope R170): each of the two is kept by itself. -/
def Obligations.StepsKeepEnvelopeStates : Prop :=
  (∀ s t : State, IdleSilent s → step s = .next t → IdleSilent t) ∧
  (∀ s t : State, NeverSustain s → step s = .next t → NeverSustain t)

/-- `syn.pos` and `syn.drained` stay in their ranges (10_state R40). -/
def Obligations.StepsKeepSequencerInRange : Prop :=
  ∀ s t : State, SynInv s → step s = .next t → SynInv t

/-- No reader is ahead of a counter (60_exceptions R312, 10_state R42). That a reset clears what the
readers got last is the model's choice (entry 18). -/
def Obligations.StepsKeepReadersBehind : Prop :=
  ∀ s t : State, ReaderInv s → step s = .next t → ReaderInv t

/-- The transform's result stays readable, and `fft.n` within the buffers (10_state R41). -/
def Obligations.StepsKeepFftReadable : Prop :=
  ∀ s t : State, FftInv s → step s = .next t → FftInv t

/-- Every invariant above holds at reset, and at every construction. -/
def Obligations.InvariantsHoldAtReset : Prop :=
  ∀ s : State, (s = State.reset ∨ ∃ p, s = construct p) →
    MemInv s ∧ QueueInv s ∧ PhaseInv s ∧ DutyInv s ∧ IdleSilent s ∧ NeverSustain s ∧ SynInv s ∧
    ReaderInv s ∧ FftInv s

/-- "No rule of this spec performs such a read": no step reads or writes an element it must not, and
the only fault is the stuck core's (20_memory R61, 60_exceptions R300, R302). -/
def Obligations.NoStepFaultsOnMemory : Prop :=
  ∀ s : State, QueueInv s → FftInv s → NoStrayFault (step s)

/-! ## The numbers -/

/-- "the exact real result rounded to `F` with round to nearest, ties to even; one rounding per
primitive" (00_scope R10), for `fadd`, `fsub`, `fmul` and `fdiv` of finite values: a finite result is
nearest to the exact one, on a tie it is the even one, and the result is infinite exactly where the
exact one is at least half a unit in the last place beyond the greatest finite value. That such a
result is infinite is IEEE 754, taken from outside the spec (entry 22). -/
def Obligations.BasicOperationsRoundToNearestEven : Prop :=
  ∀ a b : F, isFinite a = true → isFinite b = true →
    ∀ r : F, ∀ x : ℚ,
      (r = fadd a b ∧ x = toRat a + toRat b) ∨ (r = fsub a b ∧ x = toRat a - toRat b) ∨
      (r = fmul a b ∧ x = toRat a * toRat b) ∨
      (toRat b ≠ 0 ∧ r = fdiv a b ∧ x = toRat a / toRat b) →
    isNaN r = false ∧ (isInf r = true ↔ (2 ^ 128 - 2 ^ 103 : ℚ) ≤ |x|) ∧
    (isFinite r = true → ∀ c : F, isFinite c = true →
      |toRat r - x| ≤ |toRat c - x| ∧
      (|toRat r - x| = |toRat c - x| → toRat c ≠ toRat r → r.toNat % 2 = 0))

end
end

