-- ==== Sys2Proof/Laws/Memory.lean ====
section
/-!
SUPPORT. The laws of the storage arrays: a read after a write, the canonical form, and what the named
reads and writes can do (20_memory R60, R61).
-/

namespace Sys2Proof.Machine

/-! ## One array -/

@[simp] theorem Arr.get_put_same {α : Type} (a : Arr α) (i : Nat) (v : α) :
    Arr.get (Arr.put a i v) i = some v := by
  induction a with
  | nil => simp [Arr.put, Arr.get]
  | cons h t ih =>
    obtain ⟨j, u⟩ := h
    unfold Arr.put
    split
    · simp [Arr.get]
    · split
      · simp [Arr.get]
      · rename_i hne
        simp [Arr.get, hne, ih]

theorem Arr.get_put_other {α : Type} (a : Arr α) {i j : Nat} (v : α) (h : j ≠ i) :
    Arr.get (Arr.put a i v) j = Arr.get a j := by
  induction a with
  | nil => simp [Arr.put, Arr.get, h]
  | cons x t ih =>
    obtain ⟨k, u⟩ := x
    unfold Arr.put
    split
    · simp [Arr.get, h]
    · split
      · rename_i hik
        subst hik
        simp [Arr.get, h]
      · simp [Arr.get, ih]

theorem Arr.wf_put {α : Type} (a : Arr α) (i : Nat) (v : α) (h : Arr.wf a = true) :
    Arr.wf (Arr.put a i v) = true := by
  induction a with
  | nil => rfl
  | cons x t ih =>
    obtain ⟨j, u⟩ := x
    unfold Arr.put
    split
    · rename_i hij
      simp [Arr.wf, hij, h]
    · split
      · rename_i hij
        subst hij
        cases t with
        | nil => rfl
        | cons y t => simpa [Arr.wf] using h
      · rename_i hlt hne
        have hji : j < i := by omega
        cases t with
        | nil => simp [Arr.put, Arr.wf, hji]
        | cons y t =>
          obtain ⟨k, w⟩ := y
          have hjk : j < k ∧ Arr.wf ((k, w) :: t) = true := by simpa [Arr.wf] using h
          have hrec := ih hjk.2
          unfold Arr.put at hrec ⊢
          split
          · rename_i hik
            simp only [hik, if_true] at hrec
            simp [Arr.wf, hji, hik, hjk.2]
          · split
            · rename_i hik
              subst hik
              simp only [lt_irrefl, if_false, if_true] at hrec
              simp [Arr.wf, hji, hrec]
            · rename_i h1 h2
              simp only [h1, h2, if_false] at hrec
              simp [Arr.wf, hjk.1, hrec]

/-! ## The five arrays -/

/-- An element as an array keeps it: the bits it has. -/
theorem setWidth_back_32 (v : Elem) :
    BitVec.setWidth 64 (BitVec.setWidth 32 v) = v &&& 0x00000000FFFFFFFF#64 := by
  apply BitVec.eq_of_toNat_eq
  simp only [BitVec.toNat_setWidth, BitVec.toNat_and, BitVec.toNat_ofNat]
  have := Nat.and_two_pow_sub_one_eq_mod v.toNat 32
  norm_num at this ⊢
  omega

theorem setWidth_back_40 (v : Elem) :
    BitVec.setWidth 64 (BitVec.setWidth 40 v) = v &&& 0x000000FFFFFFFFFF#64 := by
  apply BitVec.eq_of_toNat_eq
  simp only [BitVec.toNat_setWidth, BitVec.toNat_and, BitVec.toNat_ofNat]
  have := Nat.and_two_pow_sub_one_eq_mod v.toNat 40
  norm_num at this ⊢
  omega

theorem and_allOnes_64 (v : Elem) : v &&& 0xFFFFFFFFFFFFFFFF#64 = v := by
  have h : (0xFFFFFFFFFFFFFFFF#64 : Elem) = BitVec.allOnes 64 := by decide
  rw [h, BitVec.and_allOnes]

/-- A read after a write to the same element gives the element, in the width of the array. -/
@[simp] theorem Memory.get_put_same (m : Memory) (a : ArrayId) (i : Nat) (v : Elem) :
    (m.put a i v).get a i = some (v &&& elemMask a) := by
  cases a with
  | ring q => cases q <;> simp [Memory.put, Memory.get, elemMask, setWidth_back_32, setWidth_back_40]
  | fftA => simp [Memory.put, Memory.get, elemMask, and_allOnes_64]
  | fftB => simp [Memory.put, Memory.get, elemMask, and_allOnes_64]

/-- A write leaves every other element alone. -/
theorem Memory.get_put_other (m : Memory) {a b : ArrayId} {i j : Nat} (v : Elem)
    (h : b ≠ a ∨ j ≠ i) : (m.put a i v).get b j = m.get b j := by
  cases a with
  | ring q =>
    cases b with
    | ring r =>
      cases q <;> cases r <;>
        first
        | rfl
        | (have hj : j ≠ i := by simpa using h
           simp [Memory.put, Memory.get, Arr.get_put_other _ _ hj])
    | fftA => cases q <;> rfl
    | fftB => cases q <;> rfl
  | fftA =>
    cases b with
    | ring r => cases r <;> rfl
    | fftA =>
      have hj : j ≠ i := by simpa using h
      simp [Memory.put, Memory.get, Arr.get_put_other _ _ hj]
    | fftB => rfl
  | fftB =>
    cases b with
    | ring r => cases r <;> rfl
    | fftA => rfl
    | fftB =>
      have hj : j ≠ i := by simpa using h
      simp [Memory.put, Memory.get, Arr.get_put_other _ _ hj]

/-- A write never takes an element away. -/
theorem Memory.isSome_put (m : Memory) (a b : ArrayId) (i j : Nat) (v : Elem)
    (h : (m.get b j).isSome = true) : ((m.put a i v).get b j).isSome = true := by
  by_cases hij : b = a ∧ j = i
  · obtain ⟨rfl, rfl⟩ := hij
    simp
  · rw [Memory.get_put_other m v (by tauto)]
    exact h

/-- A write keeps the canonical form. -/
theorem Memory.wf_put (m : Memory) (a : ArrayId) (i : Nat) (v : Elem) (h : m.wf = true) :
    (m.put a i v).wf = true := by
  simp only [Memory.wf, Bool.and_eq_true] at h ⊢
  cases a with
  | ring q =>
    cases q <;> simp only [Memory.put] <;> simp_all [Arr.wf_put]
  | fftA => simp only [Memory.put]; simp_all [Arr.wf_put]
  | fftB => simp only [Memory.put]; simp_all [Arr.wf_put]

/-- The arrays after reset are in canonical form, and no element of them is written. -/
theorem Memory.unwritten_wf : Memory.unwritten.wf = true := rfl

@[simp] theorem Memory.get_unwritten (a : ArrayId) (i : Nat) : Memory.unwritten.get a i = none := by
  cases a with
  | ring q => cases q <;> rfl
  | fftA => rfl
  | fftB => rfl

/-! ## The named reads and writes -/

/-- All that `readElem` can answer. -/
theorem readElem_cases (p : Params) (m : Memory) (a : ArrayId) (i : Nat) :
    (∃ e, i < arraySize p a ∧ m.get a i = some e ∧ readElem p m a i = .ok e) ∨
    (i < arraySize p a ∧ m.get a i = none ∧ readElem p m a i = .error (.unwrittenElement a i)) ∨
    (arraySize p a ≤ i ∧ readElem p m a i = .error (.outsideArray a i)) := by
  unfold readElem
  split
  · rename_i hi
    cases h : m.get a i with
    | some e => exact .inl ⟨e, hi, rfl, rfl⟩
    | none => exact .inr (.inl ⟨hi, rfl, rfl⟩)
  · rename_i hi
    exact .inr (.inr ⟨by omega, rfl⟩)

/-- `readElem` answers an element exactly where one was written inside the array. -/
theorem readElem_ok_iff (p : Params) (m : Memory) (a : ArrayId) (i : Nat) (e : Elem) :
    readElem p m a i = .ok e ↔ i < arraySize p a ∧ m.get a i = some e := by
  rcases readElem_cases p m a i with ⟨x, h1, h2, h3⟩ | ⟨h1, h2, h3⟩ | ⟨h1, h3⟩
  · simp [h1, h2, h3]
  · simp [h1, h2, h3]
  · simp [h3]
    omega

/-- All that `writeElem` can answer. -/
theorem writeElem_ok_iff (p : Params) (m m' : Memory) (a : ArrayId) (i : Nat) (v : Elem) :
    writeElem p m a i v = .ok m' ↔ i < arraySize p a ∧ m' = m.put a i v := by
  unfold writeElem
  split
  · rename_i hi
    simp [hi, eq_comm]
  · rename_i hi
    simp [hi]

/-- `writeElem` inside the array. -/
theorem writeElem_inside (p : Params) (m : Memory) (a : ArrayId) (i : Nat) (v : Elem)
    (h : i < arraySize p a) : writeElem p m a i v = .ok (m.put a i v) := by
  simp [writeElem, h]

end Sys2Proof.Machine
end

