-- ==== Sys2Proof/Laws/State.lean ====
section
/-!
SUPPORT. One lemma per field per named update of the state, so that no proof unfolds an update.
-/

namespace Sys2Proof.Machine

/-! ### withOsc -/

@[simp] theorem State.withOsc_osc (s : State) (x : Osc) : (s.withOsc x).osc = x := rfl
@[simp] theorem State.withOsc_env (s : State) (x : Osc) : (s.withOsc x).env = s.env := rfl
@[simp] theorem State.withOsc_met (s : State) (x : Osc) : (s.withOsc x).met = s.met := rfl
@[simp] theorem State.withOsc_outQ (s : State) (x : Osc) : (s.withOsc x).outQ = s.outQ := rfl
@[simp] theorem State.withOsc_vizQ (s : State) (x : Osc) : (s.withOsc x).vizQ = s.vizQ := rfl
@[simp] theorem State.withOsc_cmdQ (s : State) (x : Osc) : (s.withOsc x).cmdQ = s.cmdQ := rfl
@[simp] theorem State.withOsc_mem (s : State) (x : Osc) : (s.withOsc x).mem = s.mem := rfl
@[simp] theorem State.withOsc_syn (s : State) (x : Osc) : (s.withOsc x).syn = s.syn := rfl
@[simp] theorem State.withOsc_fftN (s : State) (x : Osc) : (s.withOsc x).fftN = s.fftN := rfl
@[simp] theorem State.withOsc_ctr (s : State) (x : Osc) : (s.withOsc x).ctr = s.ctr := rfl
@[simp] theorem State.withOsc_audSeen (s : State) (x : Osc) : (s.withOsc x).audSeen = s.audSeen := rfl
@[simp] theorem State.withOsc_visSeen (s : State) (x : Osc) : (s.withOsc x).visSeen = s.visSeen := rfl
@[simp] theorem State.withOsc_cfg (s : State) (x : Osc) : (s.withOsc x).cfg = s.cfg := rfl
@[simp] theorem State.withOsc_aud (s : State) (x : Osc) : (s.withOsc x).aud = s.aud := rfl
@[simp] theorem State.withOsc_port (s : State) (x : Osc) : (s.withOsc x).port = s.port := rfl
@[simp] theorem State.withOsc_res (s : State) (x : Osc) : (s.withOsc x).res = s.res := rfl
@[simp] theorem State.withOsc_agenda (s : State) (x : Osc) : (s.withOsc x).agenda = s.agenda := rfl
@[simp] theorem State.withOsc_ticks (s : State) (x : Osc) : (s.withOsc x).ticks = s.ticks := rfl
@[simp] theorem State.withOsc_rota (s : State) (x : Osc) : (s.withOsc x).rota = s.rota := rfl
@[simp] theorem State.withOsc_draws (s : State) (x : Osc) : (s.withOsc x).draws = s.draws := rfl
@[simp] theorem State.withOsc_cap (s : State) (x : Osc) (q : QueueId) : (s.withOsc x).cap q = s.cap q := rfl
@[simp] theorem State.withOsc_cur (s : State) (x : Osc) (q : QueueId) : (s.withOsc x).cur q = s.cur q := by
  cases q <;> rfl

/-! ### withEnv -/

@[simp] theorem State.withEnv_osc (s : State) (x : Env) : (s.withEnv x).osc = s.osc := rfl
@[simp] theorem State.withEnv_env (s : State) (x : Env) : (s.withEnv x).env = x := rfl
@[simp] theorem State.withEnv_met (s : State) (x : Env) : (s.withEnv x).met = s.met := rfl
@[simp] theorem State.withEnv_outQ (s : State) (x : Env) : (s.withEnv x).outQ = s.outQ := rfl
@[simp] theorem State.withEnv_vizQ (s : State) (x : Env) : (s.withEnv x).vizQ = s.vizQ := rfl
@[simp] theorem State.withEnv_cmdQ (s : State) (x : Env) : (s.withEnv x).cmdQ = s.cmdQ := rfl
@[simp] theorem State.withEnv_mem (s : State) (x : Env) : (s.withEnv x).mem = s.mem := rfl
@[simp] theorem State.withEnv_syn (s : State) (x : Env) : (s.withEnv x).syn = s.syn := rfl
@[simp] theorem State.withEnv_fftN (s : State) (x : Env) : (s.withEnv x).fftN = s.fftN := rfl
@[simp] theorem State.withEnv_ctr (s : State) (x : Env) : (s.withEnv x).ctr = s.ctr := rfl
@[simp] theorem State.withEnv_audSeen (s : State) (x : Env) : (s.withEnv x).audSeen = s.audSeen := rfl
@[simp] theorem State.withEnv_visSeen (s : State) (x : Env) : (s.withEnv x).visSeen = s.visSeen := rfl
@[simp] theorem State.withEnv_cfg (s : State) (x : Env) : (s.withEnv x).cfg = s.cfg := rfl
@[simp] theorem State.withEnv_aud (s : State) (x : Env) : (s.withEnv x).aud = s.aud := rfl
@[simp] theorem State.withEnv_port (s : State) (x : Env) : (s.withEnv x).port = s.port := rfl
@[simp] theorem State.withEnv_res (s : State) (x : Env) : (s.withEnv x).res = s.res := rfl
@[simp] theorem State.withEnv_agenda (s : State) (x : Env) : (s.withEnv x).agenda = s.agenda := rfl
@[simp] theorem State.withEnv_ticks (s : State) (x : Env) : (s.withEnv x).ticks = s.ticks := rfl
@[simp] theorem State.withEnv_rota (s : State) (x : Env) : (s.withEnv x).rota = s.rota := rfl
@[simp] theorem State.withEnv_draws (s : State) (x : Env) : (s.withEnv x).draws = s.draws := rfl
@[simp] theorem State.withEnv_cap (s : State) (x : Env) (q : QueueId) : (s.withEnv x).cap q = s.cap q := rfl
@[simp] theorem State.withEnv_cur (s : State) (x : Env) (q : QueueId) : (s.withEnv x).cur q = s.cur q := by
  cases q <;> rfl

/-! ### withMet -/

@[simp] theorem State.withMet_osc (s : State) (x : Met) : (s.withMet x).osc = s.osc := rfl
@[simp] theorem State.withMet_env (s : State) (x : Met) : (s.withMet x).env = s.env := rfl
@[simp] theorem State.withMet_met (s : State) (x : Met) : (s.withMet x).met = x := rfl
@[simp] theorem State.withMet_outQ (s : State) (x : Met) : (s.withMet x).outQ = s.outQ := rfl
@[simp] theorem State.withMet_vizQ (s : State) (x : Met) : (s.withMet x).vizQ = s.vizQ := rfl
@[simp] theorem State.withMet_cmdQ (s : State) (x : Met) : (s.withMet x).cmdQ = s.cmdQ := rfl
@[simp] theorem State.withMet_mem (s : State) (x : Met) : (s.withMet x).mem = s.mem := rfl
@[simp] theorem State.withMet_syn (s : State) (x : Met) : (s.withMet x).syn = s.syn := rfl
@[simp] theorem State.withMet_fftN (s : State) (x : Met) : (s.withMet x).fftN = s.fftN := rfl
@[simp] theorem State.withMet_ctr (s : State) (x : Met) : (s.withMet x).ctr = s.ctr := rfl
@[simp] theorem State.withMet_audSeen (s : State) (x : Met) : (s.withMet x).audSeen = s.audSeen := rfl
@[simp] theorem State.withMet_visSeen (s : State) (x : Met) : (s.withMet x).visSeen = s.visSeen := rfl
@[simp] theorem State.withMet_cfg (s : State) (x : Met) : (s.withMet x).cfg = s.cfg := rfl
@[simp] theorem State.withMet_aud (s : State) (x : Met) : (s.withMet x).aud = s.aud := rfl
@[simp] theorem State.withMet_port (s : State) (x : Met) : (s.withMet x).port = s.port := rfl
@[simp] theorem State.withMet_res (s : State) (x : Met) : (s.withMet x).res = s.res := rfl
@[simp] theorem State.withMet_agenda (s : State) (x : Met) : (s.withMet x).agenda = s.agenda := rfl
@[simp] theorem State.withMet_ticks (s : State) (x : Met) : (s.withMet x).ticks = s.ticks := rfl
@[simp] theorem State.withMet_rota (s : State) (x : Met) : (s.withMet x).rota = s.rota := rfl
@[simp] theorem State.withMet_draws (s : State) (x : Met) : (s.withMet x).draws = s.draws := rfl
@[simp] theorem State.withMet_cap (s : State) (x : Met) (q : QueueId) : (s.withMet x).cap q = s.cap q := rfl
@[simp] theorem State.withMet_cur (s : State) (x : Met) (q : QueueId) : (s.withMet x).cur q = s.cur q := by
  cases q <;> rfl

/-! ### withMem -/

@[simp] theorem State.withMem_osc (s : State) (x : Memory) : (s.withMem x).osc = s.osc := rfl
@[simp] theorem State.withMem_env (s : State) (x : Memory) : (s.withMem x).env = s.env := rfl
@[simp] theorem State.withMem_met (s : State) (x : Memory) : (s.withMem x).met = s.met := rfl
@[simp] theorem State.withMem_outQ (s : State) (x : Memory) : (s.withMem x).outQ = s.outQ := rfl
@[simp] theorem State.withMem_vizQ (s : State) (x : Memory) : (s.withMem x).vizQ = s.vizQ := rfl
@[simp] theorem State.withMem_cmdQ (s : State) (x : Memory) : (s.withMem x).cmdQ = s.cmdQ := rfl
@[simp] theorem State.withMem_mem (s : State) (x : Memory) : (s.withMem x).mem = x := rfl
@[simp] theorem State.withMem_syn (s : State) (x : Memory) : (s.withMem x).syn = s.syn := rfl
@[simp] theorem State.withMem_fftN (s : State) (x : Memory) : (s.withMem x).fftN = s.fftN := rfl
@[simp] theorem State.withMem_ctr (s : State) (x : Memory) : (s.withMem x).ctr = s.ctr := rfl
@[simp] theorem State.withMem_audSeen (s : State) (x : Memory) : (s.withMem x).audSeen = s.audSeen := rfl
@[simp] theorem State.withMem_visSeen (s : State) (x : Memory) : (s.withMem x).visSeen = s.visSeen := rfl
@[simp] theorem State.withMem_cfg (s : State) (x : Memory) : (s.withMem x).cfg = s.cfg := rfl
@[simp] theorem State.withMem_aud (s : State) (x : Memory) : (s.withMem x).aud = s.aud := rfl
@[simp] theorem State.withMem_port (s : State) (x : Memory) : (s.withMem x).port = s.port := rfl
@[simp] theorem State.withMem_res (s : State) (x : Memory) : (s.withMem x).res = s.res := rfl
@[simp] theorem State.withMem_agenda (s : State) (x : Memory) : (s.withMem x).agenda = s.agenda := rfl
@[simp] theorem State.withMem_ticks (s : State) (x : Memory) : (s.withMem x).ticks = s.ticks := rfl
@[simp] theorem State.withMem_rota (s : State) (x : Memory) : (s.withMem x).rota = s.rota := rfl
@[simp] theorem State.withMem_draws (s : State) (x : Memory) : (s.withMem x).draws = s.draws := rfl
@[simp] theorem State.withMem_cap (s : State) (x : Memory) (q : QueueId) : (s.withMem x).cap q = s.cap q := rfl
@[simp] theorem State.withMem_cur (s : State) (x : Memory) (q : QueueId) : (s.withMem x).cur q = s.cur q := by
  cases q <;> rfl

/-! ### withSyn -/

@[simp] theorem State.withSyn_osc (s : State) (x : Syn) : (s.withSyn x).osc = s.osc := rfl
@[simp] theorem State.withSyn_env (s : State) (x : Syn) : (s.withSyn x).env = s.env := rfl
@[simp] theorem State.withSyn_met (s : State) (x : Syn) : (s.withSyn x).met = s.met := rfl
@[simp] theorem State.withSyn_outQ (s : State) (x : Syn) : (s.withSyn x).outQ = s.outQ := rfl
@[simp] theorem State.withSyn_vizQ (s : State) (x : Syn) : (s.withSyn x).vizQ = s.vizQ := rfl
@[simp] theorem State.withSyn_cmdQ (s : State) (x : Syn) : (s.withSyn x).cmdQ = s.cmdQ := rfl
@[simp] theorem State.withSyn_mem (s : State) (x : Syn) : (s.withSyn x).mem = s.mem := rfl
@[simp] theorem State.withSyn_syn (s : State) (x : Syn) : (s.withSyn x).syn = x := rfl
@[simp] theorem State.withSyn_fftN (s : State) (x : Syn) : (s.withSyn x).fftN = s.fftN := rfl
@[simp] theorem State.withSyn_ctr (s : State) (x : Syn) : (s.withSyn x).ctr = s.ctr := rfl
@[simp] theorem State.withSyn_audSeen (s : State) (x : Syn) : (s.withSyn x).audSeen = s.audSeen := rfl
@[simp] theorem State.withSyn_visSeen (s : State) (x : Syn) : (s.withSyn x).visSeen = s.visSeen := rfl
@[simp] theorem State.withSyn_cfg (s : State) (x : Syn) : (s.withSyn x).cfg = s.cfg := rfl
@[simp] theorem State.withSyn_aud (s : State) (x : Syn) : (s.withSyn x).aud = s.aud := rfl
@[simp] theorem State.withSyn_port (s : State) (x : Syn) : (s.withSyn x).port = s.port := rfl
@[simp] theorem State.withSyn_res (s : State) (x : Syn) : (s.withSyn x).res = s.res := rfl
@[simp] theorem State.withSyn_agenda (s : State) (x : Syn) : (s.withSyn x).agenda = s.agenda := rfl
@[simp] theorem State.withSyn_ticks (s : State) (x : Syn) : (s.withSyn x).ticks = s.ticks := rfl
@[simp] theorem State.withSyn_rota (s : State) (x : Syn) : (s.withSyn x).rota = s.rota := rfl
@[simp] theorem State.withSyn_draws (s : State) (x : Syn) : (s.withSyn x).draws = s.draws := rfl
@[simp] theorem State.withSyn_cap (s : State) (x : Syn) (q : QueueId) : (s.withSyn x).cap q = s.cap q := rfl
@[simp] theorem State.withSyn_cur (s : State) (x : Syn) (q : QueueId) : (s.withSyn x).cur q = s.cur q := by
  cases q <;> rfl

/-! ### withFftN -/

@[simp] theorem State.withFftN_osc (s : State) (x : Nat) : (s.withFftN x).osc = s.osc := rfl
@[simp] theorem State.withFftN_env (s : State) (x : Nat) : (s.withFftN x).env = s.env := rfl
@[simp] theorem State.withFftN_met (s : State) (x : Nat) : (s.withFftN x).met = s.met := rfl
@[simp] theorem State.withFftN_outQ (s : State) (x : Nat) : (s.withFftN x).outQ = s.outQ := rfl
@[simp] theorem State.withFftN_vizQ (s : State) (x : Nat) : (s.withFftN x).vizQ = s.vizQ := rfl
@[simp] theorem State.withFftN_cmdQ (s : State) (x : Nat) : (s.withFftN x).cmdQ = s.cmdQ := rfl
@[simp] theorem State.withFftN_mem (s : State) (x : Nat) : (s.withFftN x).mem = s.mem := rfl
@[simp] theorem State.withFftN_syn (s : State) (x : Nat) : (s.withFftN x).syn = s.syn := rfl
@[simp] theorem State.withFftN_fftN (s : State) (x : Nat) : (s.withFftN x).fftN = x := rfl
@[simp] theorem State.withFftN_ctr (s : State) (x : Nat) : (s.withFftN x).ctr = s.ctr := rfl
@[simp] theorem State.withFftN_audSeen (s : State) (x : Nat) : (s.withFftN x).audSeen = s.audSeen := rfl
@[simp] theorem State.withFftN_visSeen (s : State) (x : Nat) : (s.withFftN x).visSeen = s.visSeen := rfl
@[simp] theorem State.withFftN_cfg (s : State) (x : Nat) : (s.withFftN x).cfg = s.cfg := rfl
@[simp] theorem State.withFftN_aud (s : State) (x : Nat) : (s.withFftN x).aud = s.aud := rfl
@[simp] theorem State.withFftN_port (s : State) (x : Nat) : (s.withFftN x).port = s.port := rfl
@[simp] theorem State.withFftN_res (s : State) (x : Nat) : (s.withFftN x).res = s.res := rfl
@[simp] theorem State.withFftN_agenda (s : State) (x : Nat) : (s.withFftN x).agenda = s.agenda := rfl
@[simp] theorem State.withFftN_ticks (s : State) (x : Nat) : (s.withFftN x).ticks = s.ticks := rfl
@[simp] theorem State.withFftN_rota (s : State) (x : Nat) : (s.withFftN x).rota = s.rota := rfl
@[simp] theorem State.withFftN_draws (s : State) (x : Nat) : (s.withFftN x).draws = s.draws := rfl
@[simp] theorem State.withFftN_cap (s : State) (x : Nat) (q : QueueId) : (s.withFftN x).cap q = s.cap q := rfl
@[simp] theorem State.withFftN_cur (s : State) (x : Nat) (q : QueueId) : (s.withFftN x).cur q = s.cur q := by
  cases q <;> rfl

/-! ### withCtr -/

@[simp] theorem State.withCtr_osc (s : State) (x : Counters) : (s.withCtr x).osc = s.osc := rfl
@[simp] theorem State.withCtr_env (s : State) (x : Counters) : (s.withCtr x).env = s.env := rfl
@[simp] theorem State.withCtr_met (s : State) (x : Counters) : (s.withCtr x).met = s.met := rfl
@[simp] theorem State.withCtr_outQ (s : State) (x : Counters) : (s.withCtr x).outQ = s.outQ := rfl
@[simp] theorem State.withCtr_vizQ (s : State) (x : Counters) : (s.withCtr x).vizQ = s.vizQ := rfl
@[simp] theorem State.withCtr_cmdQ (s : State) (x : Counters) : (s.withCtr x).cmdQ = s.cmdQ := rfl
@[simp] theorem State.withCtr_mem (s : State) (x : Counters) : (s.withCtr x).mem = s.mem := rfl
@[simp] theorem State.withCtr_syn (s : State) (x : Counters) : (s.withCtr x).syn = s.syn := rfl
@[simp] theorem State.withCtr_fftN (s : State) (x : Counters) : (s.withCtr x).fftN = s.fftN := rfl
@[simp] theorem State.withCtr_ctr (s : State) (x : Counters) : (s.withCtr x).ctr = x := rfl
@[simp] theorem State.withCtr_audSeen (s : State) (x : Counters) : (s.withCtr x).audSeen = s.audSeen := rfl
@[simp] theorem State.withCtr_visSeen (s : State) (x : Counters) : (s.withCtr x).visSeen = s.visSeen := rfl
@[simp] theorem State.withCtr_cfg (s : State) (x : Counters) : (s.withCtr x).cfg = s.cfg := rfl
@[simp] theorem State.withCtr_aud (s : State) (x : Counters) : (s.withCtr x).aud = s.aud := rfl
@[simp] theorem State.withCtr_port (s : State) (x : Counters) : (s.withCtr x).port = s.port := rfl
@[simp] theorem State.withCtr_res (s : State) (x : Counters) : (s.withCtr x).res = s.res := rfl
@[simp] theorem State.withCtr_agenda (s : State) (x : Counters) : (s.withCtr x).agenda = s.agenda := rfl
@[simp] theorem State.withCtr_ticks (s : State) (x : Counters) : (s.withCtr x).ticks = s.ticks := rfl
@[simp] theorem State.withCtr_rota (s : State) (x : Counters) : (s.withCtr x).rota = s.rota := rfl
@[simp] theorem State.withCtr_draws (s : State) (x : Counters) : (s.withCtr x).draws = s.draws := rfl
@[simp] theorem State.withCtr_cap (s : State) (x : Counters) (q : QueueId) : (s.withCtr x).cap q = s.cap q := rfl
@[simp] theorem State.withCtr_cur (s : State) (x : Counters) (q : QueueId) : (s.withCtr x).cur q = s.cur q := by
  cases q <;> rfl

/-! ### withAudSeen -/

@[simp] theorem State.withAudSeen_osc (s : State) (x : Counters) : (s.withAudSeen x).osc = s.osc := rfl
@[simp] theorem State.withAudSeen_env (s : State) (x : Counters) : (s.withAudSeen x).env = s.env := rfl
@[simp] theorem State.withAudSeen_met (s : State) (x : Counters) : (s.withAudSeen x).met = s.met := rfl
@[simp] theorem State.withAudSeen_outQ (s : State) (x : Counters) : (s.withAudSeen x).outQ = s.outQ := rfl
@[simp] theorem State.withAudSeen_vizQ (s : State) (x : Counters) : (s.withAudSeen x).vizQ = s.vizQ := rfl
@[simp] theorem State.withAudSeen_cmdQ (s : State) (x : Counters) : (s.withAudSeen x).cmdQ = s.cmdQ := rfl
@[simp] theorem State.withAudSeen_mem (s : State) (x : Counters) : (s.withAudSeen x).mem = s.mem := rfl
@[simp] theorem State.withAudSeen_syn (s : State) (x : Counters) : (s.withAudSeen x).syn = s.syn := rfl
@[simp] theorem State.withAudSeen_fftN (s : State) (x : Counters) : (s.withAudSeen x).fftN = s.fftN := rfl
@[simp] theorem State.withAudSeen_ctr (s : State) (x : Counters) : (s.withAudSeen x).ctr = s.ctr := rfl
@[simp] theorem State.withAudSeen_audSeen (s : State) (x : Counters) : (s.withAudSeen x).audSeen = x := rfl
@[simp] theorem State.withAudSeen_visSeen (s : State) (x : Counters) : (s.withAudSeen x).visSeen = s.visSeen := rfl
@[simp] theorem State.withAudSeen_cfg (s : State) (x : Counters) : (s.withAudSeen x).cfg = s.cfg := rfl
@[simp] theorem State.withAudSeen_aud (s : State) (x : Counters) : (s.withAudSeen x).aud = s.aud := rfl
@[simp] theorem State.withAudSeen_port (s : State) (x : Counters) : (s.withAudSeen x).port = s.port := rfl
@[simp] theorem State.withAudSeen_res (s : State) (x : Counters) : (s.withAudSeen x).res = s.res := rfl
@[simp] theorem State.withAudSeen_agenda (s : State) (x : Counters) : (s.withAudSeen x).agenda = s.agenda := rfl
@[simp] theorem State.withAudSeen_ticks (s : State) (x : Counters) : (s.withAudSeen x).ticks = s.ticks := rfl
@[simp] theorem State.withAudSeen_rota (s : State) (x : Counters) : (s.withAudSeen x).rota = s.rota := rfl
@[simp] theorem State.withAudSeen_draws (s : State) (x : Counters) : (s.withAudSeen x).draws = s.draws := rfl
@[simp] theorem State.withAudSeen_cap (s : State) (x : Counters) (q : QueueId) : (s.withAudSeen x).cap q = s.cap q := rfl
@[simp] theorem State.withAudSeen_cur (s : State) (x : Counters) (q : QueueId) : (s.withAudSeen x).cur q = s.cur q := by
  cases q <;> rfl

/-! ### withVisSeen -/

@[simp] theorem State.withVisSeen_osc (s : State) (x : Counters) : (s.withVisSeen x).osc = s.osc := rfl
@[simp] theorem State.withVisSeen_env (s : State) (x : Counters) : (s.withVisSeen x).env = s.env := rfl
@[simp] theorem State.withVisSeen_met (s : State) (x : Counters) : (s.withVisSeen x).met = s.met := rfl
@[simp] theorem State.withVisSeen_outQ (s : State) (x : Counters) : (s.withVisSeen x).outQ = s.outQ := rfl
@[simp] theorem State.withVisSeen_vizQ (s : State) (x : Counters) : (s.withVisSeen x).vizQ = s.vizQ := rfl
@[simp] theorem State.withVisSeen_cmdQ (s : State) (x : Counters) : (s.withVisSeen x).cmdQ = s.cmdQ := rfl
@[simp] theorem State.withVisSeen_mem (s : State) (x : Counters) : (s.withVisSeen x).mem = s.mem := rfl
@[simp] theorem State.withVisSeen_syn (s : State) (x : Counters) : (s.withVisSeen x).syn = s.syn := rfl
@[simp] theorem State.withVisSeen_fftN (s : State) (x : Counters) : (s.withVisSeen x).fftN = s.fftN := rfl
@[simp] theorem State.withVisSeen_ctr (s : State) (x : Counters) : (s.withVisSeen x).ctr = s.ctr := rfl
@[simp] theorem State.withVisSeen_audSeen (s : State) (x : Counters) : (s.withVisSeen x).audSeen = s.audSeen := rfl
@[simp] theorem State.withVisSeen_visSeen (s : State) (x : Counters) : (s.withVisSeen x).visSeen = x := rfl
@[simp] theorem State.withVisSeen_cfg (s : State) (x : Counters) : (s.withVisSeen x).cfg = s.cfg := rfl
@[simp] theorem State.withVisSeen_aud (s : State) (x : Counters) : (s.withVisSeen x).aud = s.aud := rfl
@[simp] theorem State.withVisSeen_port (s : State) (x : Counters) : (s.withVisSeen x).port = s.port := rfl
@[simp] theorem State.withVisSeen_res (s : State) (x : Counters) : (s.withVisSeen x).res = s.res := rfl
@[simp] theorem State.withVisSeen_agenda (s : State) (x : Counters) : (s.withVisSeen x).agenda = s.agenda := rfl
@[simp] theorem State.withVisSeen_ticks (s : State) (x : Counters) : (s.withVisSeen x).ticks = s.ticks := rfl
@[simp] theorem State.withVisSeen_rota (s : State) (x : Counters) : (s.withVisSeen x).rota = s.rota := rfl
@[simp] theorem State.withVisSeen_draws (s : State) (x : Counters) : (s.withVisSeen x).draws = s.draws := rfl
@[simp] theorem State.withVisSeen_cap (s : State) (x : Counters) (q : QueueId) : (s.withVisSeen x).cap q = s.cap q := rfl
@[simp] theorem State.withVisSeen_cur (s : State) (x : Counters) (q : QueueId) : (s.withVisSeen x).cur q = s.cur q := by
  cases q <;> rfl

/-! ### withCfg -/

@[simp] theorem State.withCfg_osc (s : State) (x : Cfg) : (s.withCfg x).osc = s.osc := rfl
@[simp] theorem State.withCfg_env (s : State) (x : Cfg) : (s.withCfg x).env = s.env := rfl
@[simp] theorem State.withCfg_met (s : State) (x : Cfg) : (s.withCfg x).met = s.met := rfl
@[simp] theorem State.withCfg_outQ (s : State) (x : Cfg) : (s.withCfg x).outQ = s.outQ := rfl
@[simp] theorem State.withCfg_vizQ (s : State) (x : Cfg) : (s.withCfg x).vizQ = s.vizQ := rfl
@[simp] theorem State.withCfg_cmdQ (s : State) (x : Cfg) : (s.withCfg x).cmdQ = s.cmdQ := rfl
@[simp] theorem State.withCfg_mem (s : State) (x : Cfg) : (s.withCfg x).mem = s.mem := rfl
@[simp] theorem State.withCfg_syn (s : State) (x : Cfg) : (s.withCfg x).syn = s.syn := rfl
@[simp] theorem State.withCfg_fftN (s : State) (x : Cfg) : (s.withCfg x).fftN = s.fftN := rfl
@[simp] theorem State.withCfg_ctr (s : State) (x : Cfg) : (s.withCfg x).ctr = s.ctr := rfl
@[simp] theorem State.withCfg_audSeen (s : State) (x : Cfg) : (s.withCfg x).audSeen = s.audSeen := rfl
@[simp] theorem State.withCfg_visSeen (s : State) (x : Cfg) : (s.withCfg x).visSeen = s.visSeen := rfl
@[simp] theorem State.withCfg_cfg (s : State) (x : Cfg) : (s.withCfg x).cfg = x := rfl
@[simp] theorem State.withCfg_aud (s : State) (x : Cfg) : (s.withCfg x).aud = s.aud := rfl
@[simp] theorem State.withCfg_port (s : State) (x : Cfg) : (s.withCfg x).port = s.port := rfl
@[simp] theorem State.withCfg_res (s : State) (x : Cfg) : (s.withCfg x).res = s.res := rfl
@[simp] theorem State.withCfg_agenda (s : State) (x : Cfg) : (s.withCfg x).agenda = s.agenda := rfl
@[simp] theorem State.withCfg_ticks (s : State) (x : Cfg) : (s.withCfg x).ticks = s.ticks := rfl
@[simp] theorem State.withCfg_rota (s : State) (x : Cfg) : (s.withCfg x).rota = s.rota := rfl
@[simp] theorem State.withCfg_draws (s : State) (x : Cfg) : (s.withCfg x).draws = s.draws := rfl
@[simp] theorem State.withCfg_cur (s : State) (x : Cfg) (q : QueueId) : (s.withCfg x).cur q = s.cur q := by
  cases q <;> rfl

/-! ### withAud -/

@[simp] theorem State.withAud_osc (s : State) (x : AudFill) : (s.withAud x).osc = s.osc := rfl
@[simp] theorem State.withAud_env (s : State) (x : AudFill) : (s.withAud x).env = s.env := rfl
@[simp] theorem State.withAud_met (s : State) (x : AudFill) : (s.withAud x).met = s.met := rfl
@[simp] theorem State.withAud_outQ (s : State) (x : AudFill) : (s.withAud x).outQ = s.outQ := rfl
@[simp] theorem State.withAud_vizQ (s : State) (x : AudFill) : (s.withAud x).vizQ = s.vizQ := rfl
@[simp] theorem State.withAud_cmdQ (s : State) (x : AudFill) : (s.withAud x).cmdQ = s.cmdQ := rfl
@[simp] theorem State.withAud_mem (s : State) (x : AudFill) : (s.withAud x).mem = s.mem := rfl
@[simp] theorem State.withAud_syn (s : State) (x : AudFill) : (s.withAud x).syn = s.syn := rfl
@[simp] theorem State.withAud_fftN (s : State) (x : AudFill) : (s.withAud x).fftN = s.fftN := rfl
@[simp] theorem State.withAud_ctr (s : State) (x : AudFill) : (s.withAud x).ctr = s.ctr := rfl
@[simp] theorem State.withAud_audSeen (s : State) (x : AudFill) : (s.withAud x).audSeen = s.audSeen := rfl
@[simp] theorem State.withAud_visSeen (s : State) (x : AudFill) : (s.withAud x).visSeen = s.visSeen := rfl
@[simp] theorem State.withAud_cfg (s : State) (x : AudFill) : (s.withAud x).cfg = s.cfg := rfl
@[simp] theorem State.withAud_aud (s : State) (x : AudFill) : (s.withAud x).aud = x := rfl
@[simp] theorem State.withAud_port (s : State) (x : AudFill) : (s.withAud x).port = s.port := rfl
@[simp] theorem State.withAud_res (s : State) (x : AudFill) : (s.withAud x).res = s.res := rfl
@[simp] theorem State.withAud_agenda (s : State) (x : AudFill) : (s.withAud x).agenda = s.agenda := rfl
@[simp] theorem State.withAud_ticks (s : State) (x : AudFill) : (s.withAud x).ticks = s.ticks := rfl
@[simp] theorem State.withAud_rota (s : State) (x : AudFill) : (s.withAud x).rota = s.rota := rfl
@[simp] theorem State.withAud_draws (s : State) (x : AudFill) : (s.withAud x).draws = s.draws := rfl
@[simp] theorem State.withAud_cap (s : State) (x : AudFill) (q : QueueId) : (s.withAud x).cap q = s.cap q := rfl
@[simp] theorem State.withAud_cur (s : State) (x : AudFill) (q : QueueId) : (s.withAud x).cur q = s.cur q := by
  cases q <;> rfl

/-! ### withPort -/

@[simp] theorem State.withPort_osc (s : State) (x : Port) : (s.withPort x).osc = s.osc := rfl
@[simp] theorem State.withPort_env (s : State) (x : Port) : (s.withPort x).env = s.env := rfl
@[simp] theorem State.withPort_met (s : State) (x : Port) : (s.withPort x).met = s.met := rfl
@[simp] theorem State.withPort_outQ (s : State) (x : Port) : (s.withPort x).outQ = s.outQ := rfl
@[simp] theorem State.withPort_vizQ (s : State) (x : Port) : (s.withPort x).vizQ = s.vizQ := rfl
@[simp] theorem State.withPort_cmdQ (s : State) (x : Port) : (s.withPort x).cmdQ = s.cmdQ := rfl
@[simp] theorem State.withPort_mem (s : State) (x : Port) : (s.withPort x).mem = s.mem := rfl
@[simp] theorem State.withPort_syn (s : State) (x : Port) : (s.withPort x).syn = s.syn := rfl
@[simp] theorem State.withPort_fftN (s : State) (x : Port) : (s.withPort x).fftN = s.fftN := rfl
@[simp] theorem State.withPort_ctr (s : State) (x : Port) : (s.withPort x).ctr = s.ctr := rfl
@[simp] theorem State.withPort_audSeen (s : State) (x : Port) : (s.withPort x).audSeen = s.audSeen := rfl
@[simp] theorem State.withPort_visSeen (s : State) (x : Port) : (s.withPort x).visSeen = s.visSeen := rfl
@[simp] theorem State.withPort_cfg (s : State) (x : Port) : (s.withPort x).cfg = s.cfg := rfl
@[simp] theorem State.withPort_aud (s : State) (x : Port) : (s.withPort x).aud = s.aud := rfl
@[simp] theorem State.withPort_port (s : State) (x : Port) : (s.withPort x).port = x := rfl
@[simp] theorem State.withPort_res (s : State) (x : Port) : (s.withPort x).res = s.res := rfl
@[simp] theorem State.withPort_agenda (s : State) (x : Port) : (s.withPort x).agenda = s.agenda := rfl
@[simp] theorem State.withPort_ticks (s : State) (x : Port) : (s.withPort x).ticks = s.ticks := rfl
@[simp] theorem State.withPort_rota (s : State) (x : Port) : (s.withPort x).rota = s.rota := rfl
@[simp] theorem State.withPort_draws (s : State) (x : Port) : (s.withPort x).draws = s.draws := rfl
@[simp] theorem State.withPort_cap (s : State) (x : Port) (q : QueueId) : (s.withPort x).cap q = s.cap q := rfl
@[simp] theorem State.withPort_cur (s : State) (x : Port) (q : QueueId) : (s.withPort x).cur q = s.cur q := by
  cases q <;> rfl

/-! ### withRes -/

@[simp] theorem State.withRes_osc (s : State) (x : Results) : (s.withRes x).osc = s.osc := rfl
@[simp] theorem State.withRes_env (s : State) (x : Results) : (s.withRes x).env = s.env := rfl
@[simp] theorem State.withRes_met (s : State) (x : Results) : (s.withRes x).met = s.met := rfl
@[simp] theorem State.withRes_outQ (s : State) (x : Results) : (s.withRes x).outQ = s.outQ := rfl
@[simp] theorem State.withRes_vizQ (s : State) (x : Results) : (s.withRes x).vizQ = s.vizQ := rfl
@[simp] theorem State.withRes_cmdQ (s : State) (x : Results) : (s.withRes x).cmdQ = s.cmdQ := rfl
@[simp] theorem State.withRes_mem (s : State) (x : Results) : (s.withRes x).mem = s.mem := rfl
@[simp] theorem State.withRes_syn (s : State) (x : Results) : (s.withRes x).syn = s.syn := rfl
@[simp] theorem State.withRes_fftN (s : State) (x : Results) : (s.withRes x).fftN = s.fftN := rfl
@[simp] theorem State.withRes_ctr (s : State) (x : Results) : (s.withRes x).ctr = s.ctr := rfl
@[simp] theorem State.withRes_audSeen (s : State) (x : Results) : (s.withRes x).audSeen = s.audSeen := rfl
@[simp] theorem State.withRes_visSeen (s : State) (x : Results) : (s.withRes x).visSeen = s.visSeen := rfl
@[simp] theorem State.withRes_cfg (s : State) (x : Results) : (s.withRes x).cfg = s.cfg := rfl
@[simp] theorem State.withRes_aud (s : State) (x : Results) : (s.withRes x).aud = s.aud := rfl
@[simp] theorem State.withRes_port (s : State) (x : Results) : (s.withRes x).port = s.port := rfl
@[simp] theorem State.withRes_res (s : State) (x : Results) : (s.withRes x).res = x := rfl
@[simp] theorem State.withRes_agenda (s : State) (x : Results) : (s.withRes x).agenda = s.agenda := rfl
@[simp] theorem State.withRes_ticks (s : State) (x : Results) : (s.withRes x).ticks = s.ticks := rfl
@[simp] theorem State.withRes_rota (s : State) (x : Results) : (s.withRes x).rota = s.rota := rfl
@[simp] theorem State.withRes_draws (s : State) (x : Results) : (s.withRes x).draws = s.draws := rfl
@[simp] theorem State.withRes_cap (s : State) (x : Results) (q : QueueId) : (s.withRes x).cap q = s.cap q := rfl
@[simp] theorem State.withRes_cur (s : State) (x : Results) (q : QueueId) : (s.withRes x).cur q = s.cur q := by
  cases q <;> rfl

/-! ### withAgenda -/

@[simp] theorem State.withAgenda_osc (s : State) (x : List Event) : (s.withAgenda x).osc = s.osc := rfl
@[simp] theorem State.withAgenda_env (s : State) (x : List Event) : (s.withAgenda x).env = s.env := rfl
@[simp] theorem State.withAgenda_met (s : State) (x : List Event) : (s.withAgenda x).met = s.met := rfl
@[simp] theorem State.withAgenda_outQ (s : State) (x : List Event) : (s.withAgenda x).outQ = s.outQ := rfl
@[simp] theorem State.withAgenda_vizQ (s : State) (x : List Event) : (s.withAgenda x).vizQ = s.vizQ := rfl
@[simp] theorem State.withAgenda_cmdQ (s : State) (x : List Event) : (s.withAgenda x).cmdQ = s.cmdQ := rfl
@[simp] theorem State.withAgenda_mem (s : State) (x : List Event) : (s.withAgenda x).mem = s.mem := rfl
@[simp] theorem State.withAgenda_syn (s : State) (x : List Event) : (s.withAgenda x).syn = s.syn := rfl
@[simp] theorem State.withAgenda_fftN (s : State) (x : List Event) : (s.withAgenda x).fftN = s.fftN := rfl
@[simp] theorem State.withAgenda_ctr (s : State) (x : List Event) : (s.withAgenda x).ctr = s.ctr := rfl
@[simp] theorem State.withAgenda_audSeen (s : State) (x : List Event) : (s.withAgenda x).audSeen = s.audSeen := rfl
@[simp] theorem State.withAgenda_visSeen (s : State) (x : List Event) : (s.withAgenda x).visSeen = s.visSeen := rfl
@[simp] theorem State.withAgenda_cfg (s : State) (x : List Event) : (s.withAgenda x).cfg = s.cfg := rfl
@[simp] theorem State.withAgenda_aud (s : State) (x : List Event) : (s.withAgenda x).aud = s.aud := rfl
@[simp] theorem State.withAgenda_port (s : State) (x : List Event) : (s.withAgenda x).port = s.port := rfl
@[simp] theorem State.withAgenda_res (s : State) (x : List Event) : (s.withAgenda x).res = s.res := rfl
@[simp] theorem State.withAgenda_agenda (s : State) (x : List Event) : (s.withAgenda x).agenda = x := rfl
@[simp] theorem State.withAgenda_ticks (s : State) (x : List Event) : (s.withAgenda x).ticks = s.ticks := rfl
@[simp] theorem State.withAgenda_rota (s : State) (x : List Event) : (s.withAgenda x).rota = s.rota := rfl
@[simp] theorem State.withAgenda_draws (s : State) (x : List Event) : (s.withAgenda x).draws = s.draws := rfl
@[simp] theorem State.withAgenda_cap (s : State) (x : List Event) (q : QueueId) : (s.withAgenda x).cap q = s.cap q := rfl
@[simp] theorem State.withAgenda_cur (s : State) (x : List Event) (q : QueueId) : (s.withAgenda x).cur q = s.cur q := by
  cases q <;> rfl

/-! ### withTicks -/

@[simp] theorem State.withTicks_osc (s : State) (x : Nat) : (s.withTicks x).osc = s.osc := rfl
@[simp] theorem State.withTicks_env (s : State) (x : Nat) : (s.withTicks x).env = s.env := rfl
@[simp] theorem State.withTicks_met (s : State) (x : Nat) : (s.withTicks x).met = s.met := rfl
@[simp] theorem State.withTicks_outQ (s : State) (x : Nat) : (s.withTicks x).outQ = s.outQ := rfl
@[simp] theorem State.withTicks_vizQ (s : State) (x : Nat) : (s.withTicks x).vizQ = s.vizQ := rfl
@[simp] theorem State.withTicks_cmdQ (s : State) (x : Nat) : (s.withTicks x).cmdQ = s.cmdQ := rfl
@[simp] theorem State.withTicks_mem (s : State) (x : Nat) : (s.withTicks x).mem = s.mem := rfl
@[simp] theorem State.withTicks_syn (s : State) (x : Nat) : (s.withTicks x).syn = s.syn := rfl
@[simp] theorem State.withTicks_fftN (s : State) (x : Nat) : (s.withTicks x).fftN = s.fftN := rfl
@[simp] theorem State.withTicks_ctr (s : State) (x : Nat) : (s.withTicks x).ctr = s.ctr := rfl
@[simp] theorem State.withTicks_audSeen (s : State) (x : Nat) : (s.withTicks x).audSeen = s.audSeen := rfl
@[simp] theorem State.withTicks_visSeen (s : State) (x : Nat) : (s.withTicks x).visSeen = s.visSeen := rfl
@[simp] theorem State.withTicks_cfg (s : State) (x : Nat) : (s.withTicks x).cfg = s.cfg := rfl
@[simp] theorem State.withTicks_aud (s : State) (x : Nat) : (s.withTicks x).aud = s.aud := rfl
@[simp] theorem State.withTicks_port (s : State) (x : Nat) : (s.withTicks x).port = s.port := rfl
@[simp] theorem State.withTicks_res (s : State) (x : Nat) : (s.withTicks x).res = s.res := rfl
@[simp] theorem State.withTicks_agenda (s : State) (x : Nat) : (s.withTicks x).agenda = s.agenda := rfl
@[simp] theorem State.withTicks_ticks (s : State) (x : Nat) : (s.withTicks x).ticks = x := rfl
@[simp] theorem State.withTicks_rota (s : State) (x : Nat) : (s.withTicks x).rota = s.rota := rfl
@[simp] theorem State.withTicks_draws (s : State) (x : Nat) : (s.withTicks x).draws = s.draws := rfl
@[simp] theorem State.withTicks_cap (s : State) (x : Nat) (q : QueueId) : (s.withTicks x).cap q = s.cap q := rfl
@[simp] theorem State.withTicks_cur (s : State) (x : Nat) (q : QueueId) : (s.withTicks x).cur q = s.cur q := by
  cases q <;> rfl

/-! ### withRota -/

@[simp] theorem State.withRota_osc (s : State) (x : Rota) : (s.withRota x).osc = s.osc := rfl
@[simp] theorem State.withRota_env (s : State) (x : Rota) : (s.withRota x).env = s.env := rfl
@[simp] theorem State.withRota_met (s : State) (x : Rota) : (s.withRota x).met = s.met := rfl
@[simp] theorem State.withRota_outQ (s : State) (x : Rota) : (s.withRota x).outQ = s.outQ := rfl
@[simp] theorem State.withRota_vizQ (s : State) (x : Rota) : (s.withRota x).vizQ = s.vizQ := rfl
@[simp] theorem State.withRota_cmdQ (s : State) (x : Rota) : (s.withRota x).cmdQ = s.cmdQ := rfl
@[simp] theorem State.withRota_mem (s : State) (x : Rota) : (s.withRota x).mem = s.mem := rfl
@[simp] theorem State.withRota_syn (s : State) (x : Rota) : (s.withRota x).syn = s.syn := rfl
@[simp] theorem State.withRota_fftN (s : State) (x : Rota) : (s.withRota x).fftN = s.fftN := rfl
@[simp] theorem State.withRota_ctr (s : State) (x : Rota) : (s.withRota x).ctr = s.ctr := rfl
@[simp] theorem State.withRota_audSeen (s : State) (x : Rota) : (s.withRota x).audSeen = s.audSeen := rfl
@[simp] theorem State.withRota_visSeen (s : State) (x : Rota) : (s.withRota x).visSeen = s.visSeen := rfl
@[simp] theorem State.withRota_cfg (s : State) (x : Rota) : (s.withRota x).cfg = s.cfg := rfl
@[simp] theorem State.withRota_aud (s : State) (x : Rota) : (s.withRota x).aud = s.aud := rfl
@[simp] theorem State.withRota_port (s : State) (x : Rota) : (s.withRota x).port = s.port := rfl
@[simp] theorem State.withRota_res (s : State) (x : Rota) : (s.withRota x).res = s.res := rfl
@[simp] theorem State.withRota_agenda (s : State) (x : Rota) : (s.withRota x).agenda = s.agenda := rfl
@[simp] theorem State.withRota_ticks (s : State) (x : Rota) : (s.withRota x).ticks = s.ticks := rfl
@[simp] theorem State.withRota_rota (s : State) (x : Rota) : (s.withRota x).rota = x := rfl
@[simp] theorem State.withRota_draws (s : State) (x : Rota) : (s.withRota x).draws = s.draws := rfl
@[simp] theorem State.withRota_cap (s : State) (x : Rota) (q : QueueId) : (s.withRota x).cap q = s.cap q := rfl
@[simp] theorem State.withRota_cur (s : State) (x : Rota) (q : QueueId) : (s.withRota x).cur q = s.cur q := by
  cases q <;> rfl

/-! ### withDraws -/

@[simp] theorem State.withDraws_osc (s : State) (x : Nat) : (s.withDraws x).osc = s.osc := rfl
@[simp] theorem State.withDraws_env (s : State) (x : Nat) : (s.withDraws x).env = s.env := rfl
@[simp] theorem State.withDraws_met (s : State) (x : Nat) : (s.withDraws x).met = s.met := rfl
@[simp] theorem State.withDraws_outQ (s : State) (x : Nat) : (s.withDraws x).outQ = s.outQ := rfl
@[simp] theorem State.withDraws_vizQ (s : State) (x : Nat) : (s.withDraws x).vizQ = s.vizQ := rfl
@[simp] theorem State.withDraws_cmdQ (s : State) (x : Nat) : (s.withDraws x).cmdQ = s.cmdQ := rfl
@[simp] theorem State.withDraws_mem (s : State) (x : Nat) : (s.withDraws x).mem = s.mem := rfl
@[simp] theorem State.withDraws_syn (s : State) (x : Nat) : (s.withDraws x).syn = s.syn := rfl
@[simp] theorem State.withDraws_fftN (s : State) (x : Nat) : (s.withDraws x).fftN = s.fftN := rfl
@[simp] theorem State.withDraws_ctr (s : State) (x : Nat) : (s.withDraws x).ctr = s.ctr := rfl
@[simp] theorem State.withDraws_audSeen (s : State) (x : Nat) : (s.withDraws x).audSeen = s.audSeen := rfl
@[simp] theorem State.withDraws_visSeen (s : State) (x : Nat) : (s.withDraws x).visSeen = s.visSeen := rfl
@[simp] theorem State.withDraws_cfg (s : State) (x : Nat) : (s.withDraws x).cfg = s.cfg := rfl
@[simp] theorem State.withDraws_aud (s : State) (x : Nat) : (s.withDraws x).aud = s.aud := rfl
@[simp] theorem State.withDraws_port (s : State) (x : Nat) : (s.withDraws x).port = s.port := rfl
@[simp] theorem State.withDraws_res (s : State) (x : Nat) : (s.withDraws x).res = s.res := rfl
@[simp] theorem State.withDraws_agenda (s : State) (x : Nat) : (s.withDraws x).agenda = s.agenda := rfl
@[simp] theorem State.withDraws_ticks (s : State) (x : Nat) : (s.withDraws x).ticks = s.ticks := rfl
@[simp] theorem State.withDraws_rota (s : State) (x : Nat) : (s.withDraws x).rota = s.rota := rfl
@[simp] theorem State.withDraws_draws (s : State) (x : Nat) : (s.withDraws x).draws = x := rfl
@[simp] theorem State.withDraws_cap (s : State) (x : Nat) (q : QueueId) : (s.withDraws x).cap q = s.cap q := rfl
@[simp] theorem State.withDraws_cur (s : State) (x : Nat) (q : QueueId) : (s.withDraws x).cur q = s.cur q := by
  cases q <;> rfl

/-! ### withCur -/

@[simp] theorem State.withCur_osc (s : State) (q : QueueId) (c : Cursors) : (s.withCur q c).osc = s.osc := by
  cases q <;> rfl
@[simp] theorem State.withCur_env (s : State) (q : QueueId) (c : Cursors) : (s.withCur q c).env = s.env := by
  cases q <;> rfl
@[simp] theorem State.withCur_met (s : State) (q : QueueId) (c : Cursors) : (s.withCur q c).met = s.met := by
  cases q <;> rfl
@[simp] theorem State.withCur_mem (s : State) (q : QueueId) (c : Cursors) : (s.withCur q c).mem = s.mem := by
  cases q <;> rfl
@[simp] theorem State.withCur_syn (s : State) (q : QueueId) (c : Cursors) : (s.withCur q c).syn = s.syn := by
  cases q <;> rfl
@[simp] theorem State.withCur_fftN (s : State) (q : QueueId) (c : Cursors) : (s.withCur q c).fftN = s.fftN := by
  cases q <;> rfl
@[simp] theorem State.withCur_ctr (s : State) (q : QueueId) (c : Cursors) : (s.withCur q c).ctr = s.ctr := by
  cases q <;> rfl
@[simp] theorem State.withCur_audSeen (s : State) (q : QueueId) (c : Cursors) : (s.withCur q c).audSeen = s.audSeen := by
  cases q <;> rfl
@[simp] theorem State.withCur_visSeen (s : State) (q : QueueId) (c : Cursors) : (s.withCur q c).visSeen = s.visSeen := by
  cases q <;> rfl
@[simp] theorem State.withCur_cfg (s : State) (q : QueueId) (c : Cursors) : (s.withCur q c).cfg = s.cfg := by
  cases q <;> rfl
@[simp] theorem State.withCur_aud (s : State) (q : QueueId) (c : Cursors) : (s.withCur q c).aud = s.aud := by
  cases q <;> rfl
@[simp] theorem State.withCur_port (s : State) (q : QueueId) (c : Cursors) : (s.withCur q c).port = s.port := by
  cases q <;> rfl
@[simp] theorem State.withCur_res (s : State) (q : QueueId) (c : Cursors) : (s.withCur q c).res = s.res := by
  cases q <;> rfl
@[simp] theorem State.withCur_agenda (s : State) (q : QueueId) (c : Cursors) : (s.withCur q c).agenda = s.agenda := by
  cases q <;> rfl
@[simp] theorem State.withCur_ticks (s : State) (q : QueueId) (c : Cursors) : (s.withCur q c).ticks = s.ticks := by
  cases q <;> rfl
@[simp] theorem State.withCur_rota (s : State) (q : QueueId) (c : Cursors) : (s.withCur q c).rota = s.rota := by
  cases q <;> rfl
@[simp] theorem State.withCur_draws (s : State) (q : QueueId) (c : Cursors) : (s.withCur q c).draws = s.draws := by
  cases q <;> rfl
@[simp] theorem State.withCur_cap (s : State) (q r : QueueId) (c : Cursors) : (s.withCur q c).cap r = s.cap r := by
  cases q <;> rfl
@[simp] theorem State.withCur_cur_same (s : State) (q : QueueId) (c : Cursors) : (s.withCur q c).cur q = c := by
  cases q <;> rfl
theorem State.withCur_cur_other (s : State) {q r : QueueId} (c : Cursors) (h : r ≠ q) :
    (s.withCur q c).cur r = s.cur r := by
  cases q <;> cases r <;> first | rfl | exact absurd rfl h

/-! ### Result ports and counters -/

@[simp] theorem Results.setQueue_queue_same (r : Results) (q : QueueId) (x : QResults) : (r.setQueue q x).queue q = x := by
  cases q <;> rfl
theorem Results.setQueue_queue_other (r : Results) {q k : QueueId} (x : QResults) (h : k ≠ q) :
    (r.setQueue q x).queue k = r.queue k := by
  cases q <;> cases k <;> first | rfl | exact absurd rfl h
@[simp] theorem Counters.set_get_same (c : Counters) (k : CounterId) (v : BitVec 32) : (c.set k v).get k = v := by
  cases k <;> rfl
theorem Counters.set_get_other (c : Counters) {k j : CounterId} (v : BitVec 32) (h : j ≠ k) :
    (c.set k v).get j = c.get j := by
  cases k <;> cases j <;> first | rfl | exact absurd rfl h

/-! ### Driven ports and spent draws touch only what they name -/

@[simp] theorem driveAccepted_osc (q : QueueId) (b : Bool) (s : State) : (driveAccepted q b s).osc = s.osc := rfl
@[simp] theorem drivePopped_osc (q : QueueId) (b : Bool) (d : BitVec 40) (s : State) : (drivePopped q b d s).osc = s.osc := rfl
@[simp] theorem spendDraw_osc (s : State) : (spendDraw s).osc = s.osc := rfl
@[simp] theorem driveAccepted_env (q : QueueId) (b : Bool) (s : State) : (driveAccepted q b s).env = s.env := rfl
@[simp] theorem drivePopped_env (q : QueueId) (b : Bool) (d : BitVec 40) (s : State) : (drivePopped q b d s).env = s.env := rfl
@[simp] theorem spendDraw_env (s : State) : (spendDraw s).env = s.env := rfl
@[simp] theorem driveAccepted_met (q : QueueId) (b : Bool) (s : State) : (driveAccepted q b s).met = s.met := rfl
@[simp] theorem drivePopped_met (q : QueueId) (b : Bool) (d : BitVec 40) (s : State) : (drivePopped q b d s).met = s.met := rfl
@[simp] theorem spendDraw_met (s : State) : (spendDraw s).met = s.met := rfl
@[simp] theorem driveAccepted_outQ (q : QueueId) (b : Bool) (s : State) : (driveAccepted q b s).outQ = s.outQ := rfl
@[simp] theorem drivePopped_outQ (q : QueueId) (b : Bool) (d : BitVec 40) (s : State) : (drivePopped q b d s).outQ = s.outQ := rfl
@[simp] theorem spendDraw_outQ (s : State) : (spendDraw s).outQ = s.outQ := rfl
@[simp] theorem driveAccepted_vizQ (q : QueueId) (b : Bool) (s : State) : (driveAccepted q b s).vizQ = s.vizQ := rfl
@[simp] theorem drivePopped_vizQ (q : QueueId) (b : Bool) (d : BitVec 40) (s : State) : (drivePopped q b d s).vizQ = s.vizQ := rfl
@[simp] theorem spendDraw_vizQ (s : State) : (spendDraw s).vizQ = s.vizQ := rfl
@[simp] theorem driveAccepted_cmdQ (q : QueueId) (b : Bool) (s : State) : (driveAccepted q b s).cmdQ = s.cmdQ := rfl
@[simp] theorem drivePopped_cmdQ (q : QueueId) (b : Bool) (d : BitVec 40) (s : State) : (drivePopped q b d s).cmdQ = s.cmdQ := rfl
@[simp] theorem spendDraw_cmdQ (s : State) : (spendDraw s).cmdQ = s.cmdQ := rfl
@[simp] theorem driveAccepted_mem (q : QueueId) (b : Bool) (s : State) : (driveAccepted q b s).mem = s.mem := rfl
@[simp] theorem drivePopped_mem (q : QueueId) (b : Bool) (d : BitVec 40) (s : State) : (drivePopped q b d s).mem = s.mem := rfl
@[simp] theorem spendDraw_mem (s : State) : (spendDraw s).mem = s.mem := rfl
@[simp] theorem driveAccepted_syn (q : QueueId) (b : Bool) (s : State) : (driveAccepted q b s).syn = s.syn := rfl
@[simp] theorem drivePopped_syn (q : QueueId) (b : Bool) (d : BitVec 40) (s : State) : (drivePopped q b d s).syn = s.syn := rfl
@[simp] theorem spendDraw_syn (s : State) : (spendDraw s).syn = s.syn := rfl
@[simp] theorem driveAccepted_fftN (q : QueueId) (b : Bool) (s : State) : (driveAccepted q b s).fftN = s.fftN := rfl
@[simp] theorem drivePopped_fftN (q : QueueId) (b : Bool) (d : BitVec 40) (s : State) : (drivePopped q b d s).fftN = s.fftN := rfl
@[simp] theorem spendDraw_fftN (s : State) : (spendDraw s).fftN = s.fftN := rfl
@[simp] theorem driveAccepted_ctr (q : QueueId) (b : Bool) (s : State) : (driveAccepted q b s).ctr = s.ctr := rfl
@[simp] theorem drivePopped_ctr (q : QueueId) (b : Bool) (d : BitVec 40) (s : State) : (drivePopped q b d s).ctr = s.ctr := rfl
@[simp] theorem spendDraw_ctr (s : State) : (spendDraw s).ctr = s.ctr := rfl
@[simp] theorem driveAccepted_audSeen (q : QueueId) (b : Bool) (s : State) : (driveAccepted q b s).audSeen = s.audSeen := rfl
@[simp] theorem drivePopped_audSeen (q : QueueId) (b : Bool) (d : BitVec 40) (s : State) : (drivePopped q b d s).audSeen = s.audSeen := rfl
@[simp] theorem spendDraw_audSeen (s : State) : (spendDraw s).audSeen = s.audSeen := rfl
@[simp] theorem driveAccepted_visSeen (q : QueueId) (b : Bool) (s : State) : (driveAccepted q b s).visSeen = s.visSeen := rfl
@[simp] theorem drivePopped_visSeen (q : QueueId) (b : Bool) (d : BitVec 40) (s : State) : (drivePopped q b d s).visSeen = s.visSeen := rfl
@[simp] theorem spendDraw_visSeen (s : State) : (spendDraw s).visSeen = s.visSeen := rfl
@[simp] theorem driveAccepted_cfg (q : QueueId) (b : Bool) (s : State) : (driveAccepted q b s).cfg = s.cfg := rfl
@[simp] theorem drivePopped_cfg (q : QueueId) (b : Bool) (d : BitVec 40) (s : State) : (drivePopped q b d s).cfg = s.cfg := rfl
@[simp] theorem spendDraw_cfg (s : State) : (spendDraw s).cfg = s.cfg := rfl
@[simp] theorem driveAccepted_aud (q : QueueId) (b : Bool) (s : State) : (driveAccepted q b s).aud = s.aud := rfl
@[simp] theorem drivePopped_aud (q : QueueId) (b : Bool) (d : BitVec 40) (s : State) : (drivePopped q b d s).aud = s.aud := rfl
@[simp] theorem spendDraw_aud (s : State) : (spendDraw s).aud = s.aud := rfl
@[simp] theorem driveAccepted_port (q : QueueId) (b : Bool) (s : State) : (driveAccepted q b s).port = s.port := rfl
@[simp] theorem drivePopped_port (q : QueueId) (b : Bool) (d : BitVec 40) (s : State) : (drivePopped q b d s).port = s.port := rfl
@[simp] theorem spendDraw_port (s : State) : (spendDraw s).port = s.port := rfl
@[simp] theorem spendDraw_res (s : State) : (spendDraw s).res = s.res := rfl
@[simp] theorem driveAccepted_agenda (q : QueueId) (b : Bool) (s : State) : (driveAccepted q b s).agenda = s.agenda := rfl
@[simp] theorem drivePopped_agenda (q : QueueId) (b : Bool) (d : BitVec 40) (s : State) : (drivePopped q b d s).agenda = s.agenda := rfl
@[simp] theorem spendDraw_agenda (s : State) : (spendDraw s).agenda = s.agenda := rfl
@[simp] theorem driveAccepted_ticks (q : QueueId) (b : Bool) (s : State) : (driveAccepted q b s).ticks = s.ticks := rfl
@[simp] theorem drivePopped_ticks (q : QueueId) (b : Bool) (d : BitVec 40) (s : State) : (drivePopped q b d s).ticks = s.ticks := rfl
@[simp] theorem spendDraw_ticks (s : State) : (spendDraw s).ticks = s.ticks := rfl
@[simp] theorem driveAccepted_rota (q : QueueId) (b : Bool) (s : State) : (driveAccepted q b s).rota = s.rota := rfl
@[simp] theorem drivePopped_rota (q : QueueId) (b : Bool) (d : BitVec 40) (s : State) : (drivePopped q b d s).rota = s.rota := rfl
@[simp] theorem spendDraw_rota (s : State) : (spendDraw s).rota = s.rota := rfl
@[simp] theorem driveAccepted_draws (q : QueueId) (b : Bool) (s : State) : (driveAccepted q b s).draws = s.draws := rfl
@[simp] theorem drivePopped_draws (q : QueueId) (b : Bool) (d : BitVec 40) (s : State) : (drivePopped q b d s).draws = s.draws := rfl
@[simp] theorem driveAccepted_cur (q : QueueId) (b : Bool) (s : State) (k : QueueId) : (driveAccepted q b s).cur k = s.cur k := by
  cases k <;> rfl
@[simp] theorem driveAccepted_cap (q : QueueId) (b : Bool) (s : State) (k : QueueId) : (driveAccepted q b s).cap k = s.cap k := rfl
@[simp] theorem drivePopped_cur (q : QueueId) (b : Bool) (d : BitVec 40) (s : State) (k : QueueId) : (drivePopped q b d s).cur k = s.cur k := by
  cases k <;> rfl
@[simp] theorem drivePopped_cap (q : QueueId) (b : Bool) (d : BitVec 40) (s : State) (k : QueueId) : (drivePopped q b d s).cap k = s.cap k := rfl
@[simp] theorem spendDraw_cur (s : State) (k : QueueId) : (spendDraw s).cur k = s.cur k := by
  cases k <;> rfl
@[simp] theorem spendDraw_cap (s : State) (k : QueueId) : (spendDraw s).cap k = s.cap k := rfl
@[simp] theorem spendDraw_draws (s : State) : (spendDraw s).draws = s.draws + 1 := rfl
@[simp] theorem driveAccepted_queue (q : QueueId) (b : Bool) (s : State) :
    (driveAccepted q b s).res.queue q = { s.res.queue q with accepted := b } := by
  cases q <;> rfl
@[simp] theorem drivePopped_queue (q : QueueId) (b : Bool) (d : BitVec 40) (s : State) :
    (drivePopped q b d s).res.queue q = { s.res.queue q with valid := b, data := d } := by
  cases q <;> rfl

end Sys2Proof.Machine
end

