-- ==== Sys2Proof/Laws/Ops.lean ====
section
/-!
SUPPORT. What the shared operations of Machine/Ops.lean can do, one lemma each.
-/

namespace Sys2Proof.Machine

@[simp] theorem done_ok (s : State) : done (.ok s) = .next s := rfl
@[simp] theorem done_error (f : Fault) : done (.error f) = .fault f := rfl

/-- `done` ends in a next state or in a fault, as its argument does. -/
theorem done_next_iff (r : Except Fault State) (t : State) : done r = .next t ↔ r = .ok t := by
  cases r <;> simp

theorem done_fault_iff (r : Except Fault State) (f : Fault) : done r = .fault f ↔ r = .error f := by
  cases r <;> simp

theorem done_never_refused (r : Except Fault State) (x : Refusal) : done r ≠ .refused x := by
  cases r <;> simp

/-- An owned operation answers a next state only to its owner. -/
theorem ifOwner_next_iff (a : Agent) (s t : State) (r : Result) :
    ifOwner a s r = .next t ↔ s.port.agent = a ∧ r = .next t := by
  unfold ifOwner
  split <;> simp_all

theorem ifOwner_fault_iff (a : Agent) (s : State) (r : Result) (f : Fault) :
    ifOwner a s r = .fault f ↔ s.port.agent = a ∧ r = .fault f := by
  unfold ifOwner
  split <;> simp_all

theorem ifOwner_of_owner {a : Agent} {s : State} (r : Result) (h : s.port.agent = a) :
    ifOwner a s r = r := by
  simp [ifOwner, h]

theorem ifOwner_of_other {a : Agent} {s : State} (r : Result) (h : s.port.agent ≠ a) :
    ifOwner a s r = .refused (.notOwner s.port.agent) := by
  simp [ifOwner, h]

/-- Fault entry changes `cfg.fault` alone (60_exceptions R302). -/
theorem raiseConfigFault_eq (c : ConfigFault) (s : State) :
    raiseConfigFault c s = s.withCfg ⟨s.cfg.params, c.code⟩ := rfl

/-- Construction: the reset table, with the result of the check in `cfg.fault` (70_reset_and_hazards
R331). -/
theorem construct_eq (p : Params) :
    construct p = (State.atReset p).withCfg ⟨p, faultCode p⟩ := by
  unfold construct faultCode
  cases firstFault p <;> rfl

/-- A reset, field by field: the construction with the agenda, the turns and the counts of free values kept. -/
theorem resetWith_eq (p : Params) (s : State) :
    resetWith p s =
      { State.atReset p with
        cfg := ⟨p, faultCode p⟩, agenda := s.agenda, ticks := s.ticks, rota := s.rota,
        draws := s.draws } := by
  rw [resetWith, construct_eq]
  rfl

/-- The core is held exactly where a fault code stands. -/
theorem isHeld_iff (s : State) : isHeld s = true ↔ s.cfg.fault ≠ 0#8 := by
  simp [isHeld]

/-- No fault code is 0. -/
theorem ConfigFault.code_ne_zero (c : ConfigFault) : c.code ≠ 0#8 := by
  cases c <;> decide

/-- The check records 0 exactly where it finds nothing. -/
theorem faultCode_eq_zero_iff (p : Params) : faultCode p = 0#8 ↔ firstFault p = none := by
  unfold faultCode
  cases h : firstFault p with
  | none => simp
  | some c => simp [ConfigFault.code_ne_zero c]

/-- What a passed check says of the sizes. -/
theorem sizes_of_no_fault {p : Params} (h : faultCode p = 0#8) :
    (∀ q, 0 < p.cap q) ∧ 0 < p.blockSize ∧ 0 < p.fftMaxN := by
  rw [faultCode_eq_zero_iff] at h
  unfold firstFault at h
  repeat' split at h
  all_goals try cases h
  rename_i _ _ _ _ hcap _ hblk hfft _
  refine ⟨fun q => ?_, Nat.pos_of_ne_zero hblk, ?_⟩
  · cases q <;> simp only [Params.cap] <;> omega
  · simp only [isPowerOfTwo] at hfft
    by_contra h0
    have : p.fftMaxN = 0 := by omega
    simp [this] at hfft

end Sys2Proof.Machine
end

