-- ==== Sys2Proof/Laws/Fft.lean ====
section
/-!
SUPPORT. What the operations of the FFT can do, one lemma each (45_fft R233 to R238).
-/

namespace Sys2Proof.Machine

/-- A change of the arrays that touches only `a` and `b`, takes no element away and keeps the
canonical form. -/
structure OnlyArrays (a b : ArrayId) (m m' : Memory) : Prop where
  other : ∀ c i, c ≠ a → c ≠ b → m'.get c i = m.get c i
  keeps : ∀ c i, (m.get c i).isSome = true → (m'.get c i).isSome = true
  wf : m.wf = true → m'.wf = true

theorem OnlyArrays.refl (a b : ArrayId) (m : Memory) : OnlyArrays a b m m :=
  ⟨fun _ _ _ _ => rfl, fun _ _ h => h, fun h => h⟩

theorem OnlyArrays.trans {a b : ArrayId} {m m' m'' : Memory} (h : OnlyArrays a b m m')
    (h' : OnlyArrays a b m' m'') : OnlyArrays a b m m'' :=
  ⟨fun c i h1 h2 => (h'.other c i h1 h2).trans (h.other c i h1 h2),
   fun c i hs => h'.keeps c i (h.keeps c i hs), fun hw => h'.wf (h.wf hw)⟩

theorem OnlyArrays.swap {a b : ArrayId} {m m' : Memory} (h : OnlyArrays a b m m') :
    OnlyArrays b a m m' :=
  ⟨fun c i h1 h2 => h.other c i h2 h1, h.keeps, h.wf⟩

theorem OnlyArrays.put (a b : ArrayId) (m : Memory) (i : Nat) (v : Elem) :
    OnlyArrays a b m (m.put a i v) :=
  ⟨fun _ _ h _ => Memory.get_put_other m v (.inl h),
   fun c j h => Memory.isSome_put m a c i j v h, fun h => Memory.wf_put m a i v h⟩

/-- One butterfly (R235): two elements are read from `out`, the sum and the difference are written to
`buf`. -/
theorem butterfly_ok {p : Params} {buf out : ArrayId} {off n step i : Nat} {m m' : Memory}
    (h : butterfly p buf out off n step i m = .ok m') :
    ∃ o e, m.get out (off + i + step) = some o ∧ m.get out (off + i) = some e ∧
      m' = (m.put buf (off + i / 2)
          (cadd (Complex.unpack e) (cmul (twiddle i n) (Complex.unpack o))).pack).put buf
        (off + (i + n) / 2)
          (csub (Complex.unpack e) (cmul (twiddle i n) (Complex.unpack o))).pack := by
  unfold butterfly at h
  split at h
  · cases h
  · rename_i o ho
    split at h
    · cases h
    · rename_i e he
      simp only at h
      split at h
      · cases h
      · rename_i m1 hm1
        obtain ⟨-, rfl⟩ := (writeElem_ok_iff ..).mp hm1
        obtain ⟨-, rfl⟩ := (writeElem_ok_iff ..).mp h
        exact ⟨o, e, ((readElem_ok_iff ..).mp ho).2, ((readElem_ok_iff ..).mp he).2, rfl⟩

theorem butterfly_only {p : Params} {buf out : ArrayId} {off n step i : Nat} {m m' : Memory}
    (h : butterfly p buf out off n step i m = .ok m') : OnlyArrays buf out m m' := by
  obtain ⟨o, e, -, -, rfl⟩ := butterfly_ok h
  exact (OnlyArrays.put buf out m _ _).trans (OnlyArrays.put buf out _ _ _)

/-- The butterflies of one node touch only their two buffers. -/
theorem sweep_only {p : Params} {buf out : ArrayId} {off n step : Nat} (k i : Nat)
    {m m' : Memory} (h : sweep p buf out off n step k i m = .ok m') : OnlyArrays buf out m m' := by
  induction k generalizing i m with
  | zero =>
    simp only [sweep, Except.ok.injEq] at h
    subst h
    exact OnlyArrays.refl ..
  | succ k ih =>
    unfold sweep at h
    split at h
    · cases h
    · rename_i m1 hm1
      exact (butterfly_only hm1).trans (ih _ h)

/-- The recursion touches only the two buffers (R235). -/
theorem fftRec_only {p : Params} (fuel : Nat) {buf out : ArrayId} {off n step : Nat}
    {m m' : Memory} (h : fftRec p fuel buf out off n step m = .ok m') :
    OnlyArrays buf out m m' := by
  induction fuel generalizing buf out off step m m' with
  | zero =>
    simp only [fftRec, Except.ok.injEq] at h
    subst h
    exact OnlyArrays.refl ..
  | succ f ih =>
    unfold fftRec at h
    split at h
    · simp only [Except.ok.injEq] at h
      subst h
      exact OnlyArrays.refl ..
    · split at h
      · cases h
      · rename_i m1 h1
        split at h
        · cases h
        · rename_i m2 h2
          exact ((ih h1).swap.trans (ih h2).swap).trans (sweep_only _ _ h)

/-- The base case returns at once (R235). -/
theorem fftRec_base {p : Params} (fuel : Nat) {buf out : ArrayId} {off n step : Nat} {m : Memory}
    (h : n ≤ step) : fftRec p fuel buf out off n step m = .ok m := by
  cases fuel <;> simp [fftRec, h]

/-- The loading of the input touches only the two buffers (R233). -/
theorem loadInput_only {p : Params} {x : List Elem} (c k : Nat) {m m' : Memory}
    (h : loadInput p x c k m = .ok m') : OnlyArrays .fftA .fftB m m' := by
  induction c generalizing k m with
  | zero =>
    simp only [loadInput, Except.ok.injEq] at h
    subst h
    exact OnlyArrays.refl ..
  | succ c ih =>
    unfold loadInput at h
    simp only at h
    split at h
    · cases h
    · rename_i m1 h1
      split at h
      · cases h
      · rename_i m2 h2
        obtain ⟨-, rfl⟩ := (writeElem_ok_iff ..).mp h1
        obtain ⟨-, rfl⟩ := (writeElem_ok_iff ..).mp h2
        exact ((OnlyArrays.put .fftA .fftB m _ _).trans
          (OnlyArrays.put .fftB .fftA _ _ _).swap).trans (ih _ h)

/-- A run of reads gives as many elements as it asks for, each the element of its index. -/
theorem readRun_ok {p : Params} {m : Memory} {a : ArrayId} (c k : Nat) {es : List Elem}
    (h : readRun p m a c k = .ok es) :
    es.length = c ∧ ∀ j < c, m.get a (k + j) = es[j]? ∧ (m.get a (k + j)).isSome = true := by
  induction c generalizing k es with
  | zero =>
    simp only [readRun, Except.ok.injEq] at h
    subst h
    simp
  | succ c ih =>
    unfold readRun at h
    split at h
    · cases h
    · rename_i e he
      split at h
      · cases h
      · rename_i rest hrest
        simp only [Except.ok.injEq] at h
        subst h
        obtain ⟨hl, hj⟩ := ih _ hrest
        have he' := ((readElem_ok_iff ..).mp he).2
        refine ⟨by simp [hl], fun j hjc => ?_⟩
        cases j with
        | zero => simp [he']
        | succ j =>
          have := hj j (by omega)
          rw [show k + (j + 1) = k + 1 + j by omega]
          simpa using this

/-- A run of reads succeeds where every element of it was written. -/
theorem readRun_total {p : Params} {m : Memory} {a : ArrayId} (c k : Nat)
    (hs : k + c ≤ arraySize p a) (hw : ∀ j < c, (m.get a (k + j)).isSome = true) :
    ∃ es, readRun p m a c k = .ok es := by
  induction c generalizing k with
  | zero => exact ⟨[], rfl⟩
  | succ c ih =>
    obtain ⟨e, he⟩ := Option.isSome_iff_exists.mp (hw 0 (by omega))
    obtain ⟨es, hes⟩ := ih (k + 1) (by omega) (fun j hj => by
      have := hw (j + 1) (by omega)
      rwa [show k + 1 + j = k + (j + 1) by omega])
    have hr : readElem p m a k = .ok e := (readElem_ok_iff ..).mpr ⟨by omega, by simpa using he⟩
    exact ⟨e :: es, by simp [readRun, hr, hes]⟩

/-- All that FFT.TRANSFORM can do (R231 to R234). -/
theorem transform_ok {x : List Elem} {s t : State} (h : transform x s = .ok t) :
    (x.length = 0 ∧
      t = (s.withFftN 0).withRes { s.res with fftStatus := 0#1, fftLength := 0, fftX := [] }) ∨
    (x.length ≠ 0 ∧ s.cfg.params.fftMaxN < paddedLength x.length ∧
      t = s.withRes { s.res with fftStatus := 1#1 }) ∨
    (x.length ≠ 0 ∧ paddedLength x.length ≤ s.cfg.params.fftMaxN ∧ ∃ m xs,
      OnlyArrays .fftA .fftB s.mem m ∧
      readRun s.cfg.params m .fftA (paddedLength x.length) 0 = .ok xs ∧
      t = ((s.withMem m).withFftN (paddedLength x.length)).withRes
        { s.res with fftStatus := 0#1, fftLength := paddedLength x.length, fftX := xs }) := by
  unfold transform at h
  simp only at h
  split at h
  · rename_i h0
    exact .inl ⟨h0, by simpa using h.symm⟩
  · rename_i h0
    split at h
    · rename_i h1
      exact .inr (.inl ⟨h0, h1, by simpa using h.symm⟩)
    · rename_i h1
      refine .inr (.inr ⟨h0, by omega, ?_⟩)
      split at h
      · cases h
      · rename_i m1 hm1
        split at h
        · cases h
        · rename_i m2 hm2
          split at h
          · cases h
          · rename_i xs hxs
            exact ⟨m2, xs, (loadInput_only _ _ hm1).trans (fftRec_only _ hm2), hxs,
              by simpa using h.symm⟩

/-- FFT.MAG drives the bins alone (R238). -/
theorem magnitudes_ok {s t : State} (h : magnitudes s = .ok t) :
    ∃ es, readRun s.cfg.params s.mem .fftA (s.fftN / 2) 0 = .ok es ∧
      t = s.withRes { s.res with bins := binsFrom s.cfg.params s.fftN 0 es } := by
  unfold magnitudes at h
  split at h
  · cases h
  · rename_i es hes
    exact ⟨es, hes, by simpa using h.symm⟩

end Sys2Proof.Machine
end

