-- ==== Sys2Proof/Laws/FftSpec.lean ====
section
/-!
SUPPORT. The two-buffer recursion of the FFT against the recursion over lists (45_fft R235, R236): on
buffers that hold the same values it completes, and leaves the list form's result.
-/

namespace Sys2Proof.Machine

/-! ## Lists -/

theorem evens_getElem? {α : Type} (xs : List α) (k : Nat) : (evens xs)[k]? = xs[2 * k]? := by
  induction xs using evens.induct generalizing k with
  | case1 => simp [evens]
  | case2 x => cases k <;> simp [evens]
  | case3 x y rest ih =>
    cases k with
    | zero => simp [evens]
    | succ k =>
      rw [show 2 * (k + 1) = 2 * k + 1 + 1 by omega]
      simp [evens, ih]

theorem odds_getElem? {α : Type} (xs : List α) (k : Nat) : (odds xs)[k]? = xs[2 * k + 1]? := by
  induction xs using odds.induct generalizing k with
  | case1 => simp [odds]
  | case2 x => simp [odds]
  | case3 x y rest ih =>
    cases k with
    | zero => simp [odds]
    | succ k =>
      rw [show 2 * (k + 1) + 1 = 2 * k + 1 + 1 + 1 by omega]
      simp [odds, ih]

theorem evens_length {α : Type} (xs : List α) : (evens xs).length = (xs.length + 1) / 2 := by
  induction xs using evens.induct with
  | case1 => simp [evens]
  | case2 x => simp [evens]
  | case3 x y rest ih => simp only [evens, List.length_cons, ih]; omega

theorem odds_length {α : Type} (xs : List α) : (odds xs).length = xs.length / 2 := by
  induction xs using odds.induct with
  | case1 => simp [odds]
  | case2 x => simp [odds]
  | case3 x y rest ih => simp only [odds, List.length_cons, ih]; omega

@[simp] theorem twiddled_length (n step j : Nat) (zs : List Complex) :
    (twiddled n step j zs).length = zs.length := by
  induction zs generalizing j with
  | nil => rfl
  | cons z rest ih => simp [twiddled, ih]

theorem twiddled_getElem? (n step j k : Nat) (zs : List Complex) :
    (twiddled n step j zs)[k]? = zs[k]?.map (fun o => cmul (twiddle (2 * step * (j + k)) n) o) := by
  induction zs generalizing j k with
  | nil => simp [twiddled]
  | cons z rest ih =>
    cases k with
    | zero => simp [twiddled]
    | succ k =>
      simp only [twiddled, List.getElem?_cons_succ, ih]
      rw [show j + 1 + k = j + (k + 1) by omega]

theorem fftOfList_length (n levels step : Nat) (xs : List Complex) (h : xs.length = 2 ^ levels) :
    (fftOfList n levels step xs).length = 2 ^ levels := by
  induction levels generalizing step xs with
  | zero => simpa [fftOfList] using h
  | succ l ih =>
    have e := ih (2 * step) (evens xs) (by rw [evens_length, h, Nat.pow_succ]; omega)
    have o := ih (2 * step) (odds xs) (by rw [odds_length, h, Nat.pow_succ]; omega)
    simp [fftOfList, e, o, Nat.pow_succ]
    omega

/-! ## Elements -/

@[simp] theorem Complex.unpack_pack (z : Complex) : Complex.unpack z.pack = z := by
  obtain ⟨re, im⟩ := z
  simp only [Complex.unpack, Complex.pack, Complex.mk.injEq]
  constructor <;> apply BitVec.eq_of_getLsbD_eq <;> intro i hi <;>
    rw [BitVec.getLsbD_extractLsb', BitVec.getLsbD_append]
  · simp [hi, show ¬ 32 + i < 32 by omega]
  · simp [hi]

@[simp] theorem Complex.pack_unpack (e : Elem) : (Complex.unpack e).pack = e := by
  apply BitVec.eq_of_getLsbD_eq
  intro i hi
  simp only [Complex.unpack, Complex.pack, BitVec.getLsbD_append, BitVec.getLsbD_extractLsb']
  by_cases h : i < 32
  · simp [h]
  · simp [h, show i - 32 < 32 by omega, show 32 + (i - 32) = i by omega]

/-- The elements of `a` from `off` on, `st` apart, are the packed values of a list. -/
def Holds (m : Memory) (a : ArrayId) (off st : Nat) (zs : List Complex) : Prop :=
  ∀ k z, zs[k]? = some z → m.get a (off + k * st) = some z.pack

/-- One of the two FFT buffers. -/
def isFft (a : ArrayId) : Prop := a = .fftA ∨ a = .fftB

theorem get_put_fft {a : ArrayId} (ha : isFft a) (m : Memory) (i : Nat) (v : Elem) :
    (m.put a i v).get a i = some v := by
  rcases ha with rfl | rfl <;> rw [Memory.get_put_same] <;> simp [elemMask, and_allOnes_64]

theorem size_fft {a : ArrayId} (ha : isFft a) (p : Params) : arraySize p a = p.fftMaxN := by
  rcases ha with rfl | rfl <;> rfl

theorem get_put_ne (m : Memory) {a b : ArrayId} {i j : Nat} (v : Elem) (h : ¬(b = a ∧ j = i)) :
    (m.put a i v).get b j = m.get b j := by
  apply Memory.get_put_other
  by_contra hc
  rw [not_or, not_not, not_not] at hc
  exact h hc

/-- The butterflies of one node, from number `j` on (R235): the sums and the differences stand in `buf`,
and nothing else changes. -/
theorem sweep_spec (p : Params) {buf out : ArrayId} (hb : isFft buf) (ho : isFft out)
    (hne : buf ≠ out) {off n step M : Nat} (hs : 0 < step) (hoff : off < step)
    (hn : n = 2 * step * M) (hN : n ≤ p.fftMaxN) (E O : List Complex) (hE : E.length = M)
    (hO : O.length = M) : ∀ (c j : Nat) (m : Memory), j + c = M → Holds m out off (2 * step) E →
    Holds m out (off + step) (2 * step) O →
    ∃ m', sweep p buf out off n step c (2 * step * j) m = .ok m' ∧
      (∀ k e o, j ≤ k → E[k]? = some e → O[k]? = some o →
        m'.get buf (off + k * step) = some (cadd e (cmul (twiddle (2 * step * k) n) o)).pack ∧
        m'.get buf (off + (k + M) * step) =
          some (csub e (cmul (twiddle (2 * step * k) n) o)).pack) ∧
      (∀ b i, ¬(b = buf ∧ ∃ k, i = off + k * step ∧ ((j ≤ k ∧ k < M) ∨ (j + M ≤ k ∧ k < 2 * M))) →
        m'.get b i = m.get b i) := by
  intro c
  induction c with
  | zero =>
    intro j m hj h1 h2
    refine ⟨m, rfl, fun k e o hk he _ => ?_, fun _ _ _ => rfl⟩
    have := (List.getElem?_eq_some_iff.mp he).1
    omega
  | succ c ih =>
    intro j m hj h1 h2
    have hjM : j < M := by omega
    obtain ⟨e, he⟩ : ∃ e, E[j]? = some e := ⟨_, List.getElem?_eq_getElem (by omega)⟩
    obtain ⟨o, ho'⟩ : ∃ o, O[j]? = some o := ⟨_, List.getElem?_eq_getElem (by omega)⟩
    have ge := h1 j e he
    have go := h2 j o ho'
    have i1 : off + 2 * step * j = off + j * (2 * step) := by ring
    have i2 : off + 2 * step * j + step = off + step + j * (2 * step) := by ring
    have i3 : off + 2 * step * j / 2 = off + j * step := by
      rw [show 2 * step * j = 2 * (j * step) by ring]; omega
    have i4 : off + (2 * step * j + n) / 2 = off + (j + M) * step := by
      rw [hn, show 2 * step * j + 2 * step * M = 2 * ((j + M) * step) by ring]; omega
    have b1 : j * step + step ≤ M * step := by
      rw [show j * step + step = (j + 1) * step by ring]; exact Nat.mul_le_mul_right _ hjM
    have hn' : n = M * step + M * step := by rw [hn]; ring
    have b2 : (j + M) * step = j * step + M * step := by ring
    have b3 : j * (2 * step) = j * step + j * step := by ring
    have hbf : ∃ m1, butterfly p buf out off n step (2 * step * j) m = .ok m1 ∧
        m1 = (m.put buf (off + j * step) (cadd e (cmul (twiddle (2 * step * j) n) o)).pack).put buf
          (off + (j + M) * step) (csub e (cmul (twiddle (2 * step * j) n) o)).pack := by
      refine ⟨_, ?_, rfl⟩
      unfold butterfly
      have r1 : readElem p m out (off + 2 * step * j + step) = .ok o.pack :=
        (readElem_ok_iff ..).mpr ⟨by rw [size_fft ho]; omega, by rw [i2]; exact go⟩
      have r2 : readElem p m out (off + 2 * step * j) = .ok e.pack :=
        (readElem_ok_iff ..).mpr ⟨by rw [size_fft ho]; omega, by rw [i1]; exact ge⟩
      rw [r1, r2]
      simp only [Complex.unpack_pack, i3, i4]
      rw [writeElem_inside _ _ _ _ _ (by rw [size_fft hb]; omega)]
      simp only
      rw [writeElem_inside _ _ _ _ _ (by rw [size_fft hb]; omega)]
    obtain ⟨m1, hm1, rfl⟩ := hbf
    have H1 : ∀ off' zs, Holds m out off' (2 * step) zs → Holds ((m.put buf (off + j * step)
        (cadd e (cmul (twiddle (2 * step * j) n) o)).pack).put buf (off + (j + M) * step)
        (csub e (cmul (twiddle (2 * step * j) n) o)).pack) out off' (2 * step) zs := by
      intro off' zs h k z hz
      rw [get_put_ne _ _ fun hc => hne hc.1.symm, get_put_ne _ _ fun hc => hne hc.1.symm]
      exact h k z hz
    obtain ⟨m', hr, hv, hf⟩ := ih (j + 1) _ (by omega) (H1 _ _ h1) (H1 _ _ h2)
    have hstep : ∀ {a b : Nat}, off + a * step = off + b * step → a = b := fun h =>
      Nat.eq_of_mul_eq_mul_right hs (by omega)
    refine ⟨m', ?_, ?_, ?_⟩
    · unfold sweep
      rw [hm1]
      rw [show 2 * step * j + 2 * step = 2 * step * (j + 1) by ring]
      exact hr
    · intro k e' o' hk he' ho''
      rcases Nat.eq_or_lt_of_le hk with rfl | hlt
      · rw [he] at he'; cases he'
        rw [ho'] at ho''; cases ho''
        constructor
        · rw [hf, get_put_ne, get_put_fft hb]
          · rintro ⟨-, h⟩
            have := hstep h
            omega
          · rintro ⟨-, k, h, h'⟩
            have := hstep h
            omega
        · rw [hf, get_put_fft hb]
          rintro ⟨-, k, h, h'⟩
          have := hstep h
          omega
      · exact hv k e' o' hlt he' ho''
    · intro b i hbi
      rw [hf, get_put_ne, get_put_ne]
      · rintro ⟨rfl, rfl⟩
        exact hbi ⟨rfl, j, rfl, by omega⟩
      · rintro ⟨rfl, rfl⟩
        exact hbi ⟨rfl, j + M, rfl, by omega⟩
      · rintro ⟨rfl, k, rfl, h⟩
        exact hbi ⟨rfl, k, rfl, by omega⟩

/-- REC (R235) completes and leaves the list recursion's result in `buf`; only the indices `off`,
`off + step`, ... of the two buffers change. -/
theorem fftRec_spec (p : Params) {n : Nat} (hN : n ≤ p.fftMaxN) : ∀ (L fuel a : Nat)
    (buf out : ArrayId) (off : Nat) (xs : List Complex) (m : Memory), isFft buf → isFft out →
    buf ≠ out → n = 2 ^ a * 2 ^ L → L ≤ fuel → off < 2 ^ a → xs.length = 2 ^ L →
    Holds m buf off (2 ^ a) xs → Holds m out off (2 ^ a) xs →
    ∃ m', fftRec p fuel buf out off n (2 ^ a) m = .ok m' ∧
      Holds m' buf off (2 ^ a) (fftOfList n L (2 ^ a) xs) ∧
      (∀ b i, ¬((b = buf ∨ b = out) ∧ ∃ k < 2 ^ L, i = off + k * 2 ^ a) →
        m'.get b i = m.get b i) := by
  intro L
  induction L with
  | zero =>
    intro fuel a buf out off xs m _ _ _ hn _ _ _ h1 _
    exact ⟨m, fftRec_base _ (by omega), h1, fun _ _ _ => rfl⟩
  | succ L ih =>
    intro fuel a buf out off xs m hb ho hne hn hfuel hoff hlen h1 h2
    obtain ⟨fuel, rfl⟩ : ∃ f, fuel = f + 1 := ⟨fuel - 1, by omega⟩
    have hs : 0 < 2 ^ a := Nat.two_pow_pos a
    have hL : 0 < 2 ^ L := Nat.two_pow_pos L
    have e2 : 2 * 2 ^ a = 2 ^ (a + 1) := by rw [Nat.pow_succ]; ring
    have hn2 : n = 2 ^ (a + 1) * 2 ^ L := by rw [hn, Nat.pow_succ, Nat.pow_succ]; ring
    have hlt : ¬ n ≤ 2 ^ a := by
      rw [hn2, Nat.pow_succ]
      have : 2 ^ a * 2 * 1 ≤ 2 ^ a * 2 * 2 ^ L := Nat.mul_le_mul_left _ hL
      omega
    have hev : ∀ (b : ArrayId), Holds m b off (2 ^ a) xs →
        Holds m b off (2 ^ (a + 1)) (evens xs) := by
      intro b h k z hz
      rw [evens_getElem?] at hz
      have := h _ z hz
      rwa [show 2 * k * 2 ^ a = k * 2 ^ (a + 1) by rw [Nat.pow_succ]; ring] at this
    have hod : ∀ (b : ArrayId), Holds m b off (2 ^ a) xs →
        Holds m b (off + 2 ^ a) (2 ^ (a + 1)) (odds xs) := by
      intro b h k z hz
      rw [odds_getElem?] at hz
      have := h _ z hz
      rwa [show off + (2 * k + 1) * 2 ^ a = off + 2 ^ a + k * 2 ^ (a + 1) by
        rw [Nat.pow_succ]; ring] at this
    have pw : 2 ^ (a + 1) = 2 ^ a + 2 ^ a := by rw [Nat.pow_succ]; ring
    obtain ⟨m1, r1, v1, f1⟩ := ih fuel (a + 1) out buf off (evens xs) m ho hb (Ne.symm hne) hn2
      (by omega) (by omega) (by rw [evens_length, hlen, Nat.pow_succ]; omega) (hev out h2) (hev buf h1)
    have apart : ∀ k k', off + 2 ^ a + k * 2 ^ (a + 1) ≠ off + k' * 2 ^ (a + 1) := by
      intro k k' h
      rw [pw] at h
      have h' : (2 * k + 1) * 2 ^ a = (2 * k') * 2 ^ a := by
        have e1 : (2 * k + 1) * 2 ^ a = 2 ^ a + k * (2 ^ a + 2 ^ a) := by ring
        have e3 : (2 * k') * 2 ^ a = k' * (2 ^ a + 2 ^ a) := by ring
        omega
      have := Nat.eq_of_mul_eq_mul_right hs h'
      omega
    have hod1 : ∀ (b : ArrayId), Holds m b off (2 ^ a) xs →
        Holds m1 b (off + 2 ^ a) (2 ^ (a + 1)) (odds xs) := by
      intro b h k z hz
      rw [f1]
      · exact hod b h k z hz
      · rintro ⟨-, k', -, h'⟩
        exact apart k k' h'
    obtain ⟨m2, r2, v2, f2⟩ := ih fuel (a + 1) out buf (off + 2 ^ a) (odds xs) m1 ho hb (Ne.symm hne)
      hn2 (by omega) (by omega) (by rw [odds_length, hlen, Nat.pow_succ]; omega) (hod1 out h2)
      (hod1 buf h1)
    have v1' : Holds m2 out off (2 ^ (a + 1)) (fftOfList n L (2 ^ (a + 1)) (evens xs)) := by
      intro k z hz
      rw [f2]
      · exact v1 k z hz
      · rintro ⟨-, k', -, h'⟩
        exact apart k' k h'.symm
    have lE := fftOfList_length n L (2 ^ (a + 1)) (evens xs)
      (by rw [evens_length, hlen, Nat.pow_succ]; omega)
    have lO := fftOfList_length n L (2 ^ (a + 1)) (odds xs)
      (by rw [odds_length, hlen, Nat.pow_succ]; omega)
    rw [← e2] at v1' v2 lE lO
    obtain ⟨m', r3, v3, f3⟩ := sweep_spec p hb ho hne hs hoff (by rw [hn2, ← e2]) hN _ _ lE lO
      (2 ^ L) 0 m2 (by omega) v1' v2
    have cnt : sweepCount n (2 ^ a) = 2 ^ L := by
      unfold sweepCount
      rw [hn2, e2]
      have hp : 0 < 2 ^ (a + 1) := Nat.two_pow_pos _
      rw [Nat.mul_add_div hp, Nat.div_eq_of_lt (by omega)]
      omega
    have ftop : ∀ {k : Nat}, k < 2 ^ L → k < 2 ^ (L + 1) ∧ k + 2 ^ L < 2 ^ (L + 1) := by
      intro k hk
      rw [Nat.pow_succ]
      omega
    refine ⟨m', ?_, ?_, ?_⟩
    · unfold fftRec
      rw [if_neg hlt, e2, r1]
      simp only
      rw [r2]
      simp only
      rw [cnt]
      simpa using r3
    · intro k z hz
      simp only [fftOfList] at hz
      rw [List.getElem?_append] at hz
      split at hz
      · rename_i hk
        rw [List.getElem?_zipWith_eq_some] at hz
        obtain ⟨e, t, he, ht, rfl⟩ := hz
        rw [twiddled_getElem?, Option.map_eq_some_iff] at ht
        obtain ⟨o, ho', rfl⟩ := ht
        rw [Nat.zero_add]
        exact (v3 k e o (Nat.zero_le _) he ho').1
      · rename_i hk
        rw [List.getElem?_zipWith_eq_some] at hz
        obtain ⟨e, t, he, ht, rfl⟩ := hz
        rw [twiddled_getElem?, Option.map_eq_some_iff] at ht
        obtain ⟨o, ho', rfl⟩ := ht
        simp only [List.length_zipWith, twiddled_length, lE, lO, Nat.min_self] at he ho' hk ⊢
        rw [Nat.zero_add]
        have := (v3 (k - 2 ^ L) e o (Nat.zero_le _) he ho').2
        rwa [show k - 2 ^ L + 2 ^ L = k by omega] at this
    · intro b i hbi
      rw [f3, f2, f1]
      · rintro ⟨hbb, k, hk, rfl⟩
        refine hbi ⟨hbb.symm, 2 * k, by rw [Nat.pow_succ]; omega, ?_⟩
        rw [Nat.pow_succ]; ring
      · rintro ⟨hbb, k, hk, rfl⟩
        refine hbi ⟨hbb.symm, 2 * k + 1, by rw [Nat.pow_succ]; omega, ?_⟩
        rw [Nat.pow_succ]; ring
      · rintro ⟨hbb, k, rfl, hk⟩
        exact hbi ⟨.inl hbb, k, by rw [Nat.pow_succ]; omega, rfl⟩

/-- The loading of the input (R233) completes: both buffers hold the padded input from index `k` on, and
nothing else changes. -/
theorem loadInput_spec (p : Params) (x : List Elem) : ∀ (c k : Nat) (m : Memory),
    k + c ≤ p.fftMaxN → ∃ m', loadInput p x c k m = .ok m' ∧
      (∀ b i, isFft b → k ≤ i → i < k + c →
        m'.get b i = some (x.getD i (Complex.pack ⟨posZero, posZero⟩))) ∧
      (∀ b i, ¬(isFft b ∧ k ≤ i ∧ i < k + c) → m'.get b i = m.get b i) := by
  intro c
  induction c with
  | zero =>
    intro k m _
    exact ⟨m, rfl, fun _ _ _ _ _ => by omega, fun _ _ _ => rfl⟩
  | succ c ih =>
    intro k m h
    obtain ⟨m', hr, hv, hf⟩ := ih (k + 1)
      ((m.put .fftA k (x.getD k (Complex.pack ⟨posZero, posZero⟩))).put .fftB k
        (x.getD k (Complex.pack ⟨posZero, posZero⟩))) (by omega)
    refine ⟨m', ?_, ?_, ?_⟩
    · unfold loadInput
      simp only
      rw [writeElem_inside _ _ _ _ _ (by rw [size_fft (.inl rfl)]; omega)]
      simp only
      rw [writeElem_inside _ _ _ _ _ (by rw [size_fft (.inr rfl)]; omega)]
      exact hr
    · intro b i hb h1 h2
      rcases Nat.eq_or_lt_of_le h1 with rfl | hlt
      · rw [hf _ _ (by rintro ⟨-, h3, -⟩; omega)]
        rcases hb with rfl | rfl
        · rw [get_put_ne _ _ (by simp), get_put_fft (.inl rfl)]
        · rw [get_put_fft (.inr rfl)]
      · exact hv b i hb hlt (by omega)
    · intro b i hbi
      rw [hf _ _ (by rintro ⟨h1, h2, h3⟩; exact hbi ⟨h1, by omega, by omega⟩), get_put_ne,
        get_put_ne]
      · rintro ⟨rfl, rfl⟩
        exact hbi ⟨.inl rfl, by omega, by omega⟩
      · rintro ⟨rfl, rfl⟩
        exact hbi ⟨.inr rfl, by omega, by omega⟩

/-- The working length is a power of two, at least the input's (45_fft R231). -/
theorem paddedLength_pow {L : Nat} (h : L ≠ 0) :
    paddedLength L = 2 ^ Nat.log2 (paddedLength L) ∧ L ≤ paddedLength L := by
  unfold paddedLength
  rw [if_neg h]
  split
  · rename_i h1
    subst h1
    exact ⟨by decide, le_refl _⟩
  · have := Nat.lt_log2_self (n := L - 1)
    refine ⟨by rw [Nat.log2_two_pow], by omega⟩

end Sys2Proof.Machine
end

