-- ==== Sys2Proof/Laws/Float.lean ====
section
/-!
SUPPORT. The patterns and the rounding of Machine/Float.lean (00_scope R9, R10): the value of a
magnitude pattern is strictly rising, and a rounded magnitude is a whole number of units in the last
place that is nearest to the exact quotient.
-/

namespace Sys2Proof.Machine

/-- The magnitude of a pattern in units of 2^-149; `scaled a` is that of `fmag a`. -/
def scaledMag (m : Nat) : Nat :=
  if m / 0x800000 = 0 then m % 0x800000
  else (0x800000 + m % 0x800000) <<< (m / 0x800000 - 1)

theorem scaled_eq (a : F) : scaled a = scaledMag (fmag a) := rfl

/-- `q` units in the last place of the binade `sh` above the lowest, at the pattern where they stand:
any `q` up to 2^24 in the lowest, from 2^23 in the others. -/
theorem scaledMag_place {sh q : Nat} (hq : q ≤ 0x1000000) (h : 0x800000 ≤ q ∨ sh = 0) :
    scaledMag (sh * 0x800000 + q) = q * 2 ^ sh := by
  unfold scaledMag
  rcases Nat.lt_or_ge q 0x800000 with hlt | hge
  · have h0 : sh = 0 := by omega
    subst h0
    rw [if_pos (by omega)]
    omega
  · rcases Nat.lt_or_ge q 0x1000000 with hlt2 | hge2
    · have e1 : (sh * 0x800000 + q) / 0x800000 = sh + 1 := by omega
      have e2 : (sh * 0x800000 + q) % 0x800000 = q - 0x800000 := by omega
      rw [e1, e2, if_neg (by omega), Nat.shiftLeft_eq, show sh + 1 - 1 = sh by omega,
        show 0x800000 + (q - 0x800000) = q by omega]
    · have hq' : q = 0x1000000 := by omega
      subst hq'
      have e1 : (sh * 0x800000 + 0x1000000) / 0x800000 = sh + 2 := by omega
      have e2 : (sh * 0x800000 + 0x1000000) % 0x800000 = 0 := by omega
      rw [e1, e2, if_neg (by omega), Nat.shiftLeft_eq, show sh + 2 - 1 = sh + 1 by omega,
        Nat.pow_succ]
      omega

/-- Every pattern stands at such a place. -/
theorem place_of (m : Nat) : ∃ sh q, m = sh * 0x800000 + q ∧ q < 0x1000000 ∧
    (0x800000 ≤ q ∨ sh = 0) := by
  rcases Nat.lt_or_ge m 0x800000 with h | h
  · exact ⟨0, m, by omega, by omega, .inr rfl⟩
  · exact ⟨m / 0x800000 - 1, 0x800000 + m % 0x800000, by omega, by omega, .inl (by omega)⟩

theorem scaledMag_lt_succ (m : Nat) : scaledMag m < scaledMag (m + 1) := by
  obtain ⟨sh, q, rfl, hq, h⟩ := place_of m
  rw [scaledMag_place (by omega) h, show sh * 0x800000 + q + 1 = sh * 0x800000 + (q + 1) by omega,
    scaledMag_place (by omega) (by omega)]
  exact Nat.mul_lt_mul_of_pos_right (Nat.lt_succ_self q) (Nat.two_pow_pos sh)

/-- A greater pattern is a greater magnitude. -/
theorem scaledMag_strictMono : StrictMono scaledMag := strictMono_nat_of_lt_succ scaledMag_lt_succ

/-- Rounding to nearest, as an inequality: twice the distance is at most the divisor, and a tie is
even. -/
theorem divNearestEven_near (n : Nat) {d : Nat} (hd : 0 < d) :
    2 * (divNearestEven n d * d) ≤ 2 * n + d ∧ 2 * n ≤ 2 * (divNearestEven n d * d) + d ∧
    ((2 * (divNearestEven n d * d) = 2 * n + d ∨ 2 * n = 2 * (divNearestEven n d * d) + d) →
      divNearestEven n d % 2 = 0) := by
  have hdiv : n / d * d + n % d = n := Nat.div_add_mod' n d
  have hmod : n % d < d := Nat.mod_lt _ hd
  unfold divNearestEven
  simp only
  generalize n / d = q at *
  generalize n % d = r at *
  have e : (q + 1) * d = q * d + d := by ring
  split
  · refine ⟨by omega, by omega, fun h => ?_⟩
    omega
  · split
    · rcases Nat.mod_two_eq_zero_or_one q with h2 | h2
      · rw [h2, Nat.add_zero]
        exact ⟨by omega, by omega, fun _ => h2⟩
      · rw [h2]
        exact ⟨by omega, by omega, fun _ => by omega⟩
    · refine ⟨by omega, by omega, fun h => ?_⟩
      omega

/-- The binade of the quotient, as bounds on it. -/
theorem rounding_binade (n d : Nat) :
    n / d < 2 ^ (Nat.log2 (n / d) - 23 + 24) ∧
    (Nat.log2 (n / d) - 23 = 0 ∨ 2 ^ (Nat.log2 (n / d) - 23 + 23) ≤ n / d) := by
  rcases Nat.eq_zero_or_pos (n / d) with h | h
  · rw [h]
    exact ⟨Nat.two_pow_pos _, .inl (by simp)⟩
  · have h1 : n / d < 2 ^ (Nat.log2 (n / d) + 1) := Nat.lt_log2_self
    have h2 : 2 ^ Nat.log2 (n / d) ≤ n / d := Nat.log2_self_le (by omega)
    refine ⟨lt_of_lt_of_le h1 (Nat.pow_le_pow_right (by omega) (by omega)), ?_⟩
    rcases Nat.lt_or_ge (Nat.log2 (n / d)) 24 with hl | hl
    · exact .inl (by omega)
    · refine .inr ?_
      rw [show Nat.log2 (n / d) - 23 + 23 = Nat.log2 (n / d) by omega]
      exact h2

/-- All about a rounding: with `sh` the binade and `q` the quotient rounded in it, the pattern is that
of `q * 2^sh` units, or infinity. -/
theorem roundMag_place (n : Nat) {d : Nat} (hd : 0 < d) : ∃ sh q,
    roundMag n d = min (sh * 0x800000 + q) infMag ∧ q ≤ 0x1000000 ∧ (0x800000 ≤ q ∨ sh = 0) ∧
    scaledMag (sh * 0x800000 + q) = q * 2 ^ sh ∧
    2 * (q * (d * 2 ^ sh)) ≤ 2 * n + d * 2 ^ sh ∧ 2 * n ≤ 2 * (q * (d * 2 ^ sh)) + d * 2 ^ sh ∧
    ((2 * (q * (d * 2 ^ sh)) = 2 * n + d * 2 ^ sh ∨
      2 * n = 2 * (q * (d * 2 ^ sh)) + d * 2 ^ sh) → q % 2 = 0) ∧
    n < d * 2 ^ (sh + 24) ∧ (sh = 0 ∨ d * 2 ^ (sh + 23) ≤ n) := by
  obtain ⟨hup, hlo⟩ := rounding_binade n d
  refine ⟨Nat.log2 (n / d) - 23, divNearestEven n (d <<< (Nat.log2 (n / d) - 23)), rfl, ?_⟩
  generalize Nat.log2 (n / d) - 23 = sh at *
  have hD : 0 < d * 2 ^ sh := Nat.mul_pos hd (Nat.two_pow_pos sh)
  rw [Nat.shiftLeft_eq]
  obtain ⟨h1, h2, h3⟩ := divNearestEven_near n hD
  generalize divNearestEven n (d * 2 ^ sh) = q at *
  have hn : n < d * 2 ^ (sh + 24) := by
    have := (Nat.div_lt_iff_lt_mul hd).mp hup
    rwa [Nat.mul_comm]
  have hn' : sh = 0 ∨ d * 2 ^ (sh + 23) ≤ n := by
    rcases hlo with h | h
    · exact .inl h
    · refine .inr ?_
      have := (Nat.le_div_iff_mul_le hd).mp h
      rwa [Nat.mul_comm]
  have e24 : d * 2 ^ (sh + 24) = 0x1000000 * (d * 2 ^ sh) := by rw [Nat.pow_add]; ring
  have e23 : d * 2 ^ (sh + 23) = 0x800000 * (d * 2 ^ sh) := by rw [Nat.pow_add]; ring
  have hq : q ≤ 0x1000000 := by
    by_contra hc
    have : 0x1000001 * (d * 2 ^ sh) ≤ q * (d * 2 ^ sh) := Nat.mul_le_mul_right _ (by omega)
    omega
  have hq' : 0x800000 ≤ q ∨ sh = 0 := by
    rcases hn' with h | h
    · exact .inr h
    · left
      by_contra hc
      have : q * (d * 2 ^ sh) ≤ 0x7FFFFF * (d * 2 ^ sh) := Nat.mul_le_mul_right _ (by omega)
      omega
  exact ⟨hq, hq', scaledMag_place hq hq', h1, h2, h3, hn, hn'⟩

/-- A magnitude that a finite pattern has is rounded to that pattern. -/
theorem roundMag_exact {m : Nat} (hm : m < infMag) {d : Nat} (hd : 0 < d) :
    roundMag (scaledMag m * d) d = m := by
  obtain ⟨sh, q, hr, hq, hq', hs, h1, h2, -, hn, hn'⟩ := roundMag_place (scaledMag m * d) hd
  obtain ⟨sh', q', rfl, hlt, hp⟩ := place_of m
  rw [scaledMag_place (by omega) hp] at *
  have hD : 0 < d * 2 ^ sh := Nat.mul_pos hd (Nat.two_pow_pos sh)
  have hle : sh ≤ sh' ∨ q' * 2 ^ sh' = q * 2 ^ sh := by
    rcases hn' with h | h
    · exact .inl (by omega)
    · left
      by_contra hc
      have e : 2 ^ (sh + 23) ≤ q' * 2 ^ sh' := by
        have : d * 2 ^ (sh + 23) ≤ d * (q' * 2 ^ sh') := by rw [Nat.mul_comm d (q' * _)]; exact h
        exact Nat.le_of_mul_le_mul_left this hd
      have e2 : q' * 2 ^ sh' < 2 ^ 24 * 2 ^ sh' :=
        Nat.mul_lt_mul_of_pos_right (by omega) (Nat.two_pow_pos _)
      rw [← Nat.pow_add] at e2
      have := (Nat.pow_lt_pow_iff_right (by omega : 1 < 2)).mp (lt_of_le_of_lt e e2)
      omega
  have hv : q' * 2 ^ sh' = q * 2 ^ sh := by
    rcases hle with h | h
    · obtain ⟨j, rfl⟩ := Nat.exists_eq_add_of_le h
      have e : q' * 2 ^ (sh + j) * d = (q' * 2 ^ j) * (d * 2 ^ sh) := by rw [Nat.pow_add]; ring
      rw [e] at h1 h2
      generalize q' * 2 ^ j = k at *
      have hk : q = k := by
        rcases Nat.lt_trichotomy q k with hc | hc | hc
        · have : (q + 1) * (d * 2 ^ sh) ≤ k * (d * 2 ^ sh) := Nat.mul_le_mul_right _ hc
          have e' : (q + 1) * (d * 2 ^ sh) = q * (d * 2 ^ sh) + d * 2 ^ sh := by ring
          omega
        · exact hc
        · have : (k + 1) * (d * 2 ^ sh) ≤ q * (d * 2 ^ sh) := Nat.mul_le_mul_right _ hc
          have e' : (k + 1) * (d * 2 ^ sh) = k * (d * 2 ^ sh) + d * 2 ^ sh := by ring
          omega
      have e'' : d * (q' * 2 ^ (sh + j)) = d * (q * 2 ^ sh) := by
        rw [hk]
        calc d * (q' * 2 ^ (sh + j)) = q' * 2 ^ (sh + j) * d := by ring
          _ = k * (d * 2 ^ sh) := e
          _ = d * (k * 2 ^ sh) := by ring
      exact Nat.eq_of_mul_eq_mul_left hd e''
    · exact h
  have hpat : sh' * 0x800000 + q' = sh * 0x800000 + q := by
    apply scaledMag_strictMono.injective
    rw [hs, scaledMag_place (by omega) hp, hv]
  rw [hr, ← hpat]
  exact Nat.min_eq_left (by omega)

/-- A greater quotient is not rounded to a smaller pattern: nothing below a finite pattern's magnitude
is rounded above it. -/
theorem roundMag_le {n m d : Nat} (hd : 0 < d) (hm : m < infMag) (h : n ≤ scaledMag m * d) :
    roundMag n d ≤ m := by
  obtain ⟨sh, q, hr, hq, hq', hs, h1, h2, h3, hn, hn'⟩ := roundMag_place n hd
  rw [hr]
  refine le_trans (Nat.min_le_left _ _) ?_
  rw [← scaledMag_strictMono.le_iff_le, hs]
  obtain ⟨sh', q', rfl, hlt, hp⟩ := place_of m
  rw [scaledMag_place (by omega) hp] at *
  have hD : 0 < d * 2 ^ sh := Nat.mul_pos hd (Nat.two_pow_pos sh)
  have hle : sh ≤ sh' := by
    rcases hn' with h' | h'
    · omega
    · by_contra hc
      have e : d * 2 ^ (sh + 23) ≤ d * (q' * 2 ^ sh') := by
        rw [Nat.mul_comm d (q' * _)]; exact le_trans h' h
      have e := Nat.le_of_mul_le_mul_left e hd
      have e2 : q' * 2 ^ sh' < 2 ^ 24 * 2 ^ sh' :=
        Nat.mul_lt_mul_of_pos_right (by omega) (Nat.two_pow_pos _)
      rw [← Nat.pow_add] at e2
      have := (Nat.pow_lt_pow_iff_right (by omega : 1 < 2)).mp (lt_of_le_of_lt e e2)
      omega
  obtain ⟨j, rfl⟩ := Nat.exists_eq_add_of_le hle
  have e : q' * 2 ^ (sh + j) * d = (q' * 2 ^ j) * (d * 2 ^ sh) := by rw [Nat.pow_add]; ring
  rw [e] at h
  have hk : q ≤ q' * 2 ^ j := by
    generalize q' * 2 ^ j = k at *
    by_contra hc
    have : (k + 1) * (d * 2 ^ sh) ≤ q * (d * 2 ^ sh) := Nat.mul_le_mul_right _ (by omega)
    have e' : (k + 1) * (d * 2 ^ sh) = k * (d * 2 ^ sh) + d * 2 ^ sh := by ring
    omega
  calc q * 2 ^ sh ≤ q' * 2 ^ j * 2 ^ sh := Nat.mul_le_mul_right _ hk
    _ = q' * 2 ^ (sh + j) := by rw [Nat.pow_add]; ring

/-! ## Patterns -/

theorem toNat_ofMag (neg : Bool) {m : Nat} (h : m < 0x80000000) :
    (ofMag neg m).toNat = if neg then 0x80000000 + m else m := by
  unfold ofMag
  cases neg <;> simp <;> omega

@[simp] theorem fmag_ofMag (neg : Bool) {m : Nat} (h : m < 0x80000000) : fmag (ofMag neg m) = m := by
  unfold fmag
  rw [toNat_ofMag neg h]
  cases neg
  · simp; omega
  · simp; omega

@[simp] theorem isNeg_ofMag (neg : Bool) {m : Nat} (h : m < 0x80000000) :
    isNeg (ofMag neg m) = neg := by
  unfold isNeg
  rw [BitVec.msb_eq_decide, toNat_ofMag neg h]
  cases neg
  · simp; omega
  · simp

theorem fmag_lt (a : F) : fmag a < 0x80000000 := Nat.mod_lt _ (by omega)

theorem roundMag_le_inf (n d : Nat) : roundMag n d ≤ infMag := Nat.min_le_right _ _

/-- A pattern from its sign and magnitude. -/
theorem ofMag_isNeg_fmag (a : F) : ofMag (isNeg a) (fmag a) = a := by
  apply BitVec.eq_of_toNat_eq
  rw [toNat_ofMag _ (fmag_lt a)]
  have := a.isLt
  unfold fmag isNeg
  rw [BitVec.msb_eq_decide]
  simp only [decide_eq_true_eq]
  split <;> omega

/-- The orders of patterns with known sign and magnitude. -/
theorem orderKey_pos {a : F} (h : isNeg a = false) : orderKey a = fmag a := by simp [orderKey, h]

/-- A whole number below 2^24 converts exactly. -/
theorem itof_exact {n : Nat} (h : n < 0x1000000) :
    scaled (itof n) = n * unitScale ∧ isNeg (itof n) = false ∧ isFinite (itof n) = true := by
  have key : ∃ m, m < infMag ∧ scaledMag m = n * unitScale := by
    rcases Nat.eq_zero_or_pos n with h0 | h0
    · exact ⟨0, by simp [infMag], by subst h0; simp [scaledMag]⟩
    · have h1 : 2 ^ Nat.log2 n ≤ n := Nat.log2_self_le (by omega)
      have h2 : n < 2 ^ (Nat.log2 n + 1) := Nat.lt_log2_self
      have hk : Nat.log2 n < 24 := by
        by_contra hc
        have : 2 ^ 24 ≤ 2 ^ Nat.log2 n := Nat.pow_le_pow_right (by omega) (by omega)
        omega
      generalize Nat.log2 n = k at *
      have e1 : 2 ^ k * 2 ^ (23 - k) = 0x800000 := by
        rw [← Nat.pow_add, show k + (23 - k) = 23 by omega]
      have e2 : 2 ^ (k + 1) * 2 ^ (23 - k) = 0x1000000 := by
        rw [← Nat.pow_add, show k + 1 + (23 - k) = 24 by omega]
      have q1 : 0x800000 ≤ n * 2 ^ (23 - k) := by
        rw [← e1]; exact Nat.mul_le_mul_right _ h1
      have q2 : n * 2 ^ (23 - k) < 0x1000000 := by
        rw [← e2]; exact Nat.mul_lt_mul_of_pos_right h2 (Nat.two_pow_pos _)
      refine ⟨(126 + k) * 0x800000 + n * 2 ^ (23 - k), by unfold infMag; omega, ?_⟩
      rw [scaledMag_place (by omega) (.inl q1), Nat.mul_assoc, ← Nat.pow_add,
        show 23 - k + (126 + k) = 149 by omega]
      rfl
  obtain ⟨m, hm, he⟩ := key
  have hr : roundMag (n * unitScale) 1 = m := by
    have := roundMag_exact hm (d := 1) (by omega)
    rwa [Nat.mul_one, he] at this
  have hm' : m < 0x80000000 := by unfold infMag at hm; omega
  unfold itof
  rw [hr]
  refine ⟨?_, isNeg_ofMag _ hm', ?_⟩
  · rw [scaled_eq, fmag_ofMag _ hm', he]
  · simp [isFinite, fmag_ofMag _ hm', hm]

/-- The remainder of a magnitude modulo 1.0 is at most the greatest value below 1.0. -/
theorem scaledMag_mod_one (m : Nat) : scaledMag m % unitScale ≤ scaledMag 0x3F7FFFFF := by
  have hu : unitScale = 0x1000000 * 2 ^ 125 := by decide
  have hb : scaledMag 0x3F7FFFFF = 0xFFFFFF * 2 ^ 125 := by decide
  obtain ⟨sh, q, rfl, hlt, hp⟩ := place_of m
  rw [scaledMag_place (by omega) hp, hb, hu]
  rcases Nat.lt_or_ge sh 125 with hs | hs
  · have h1 : q * 2 ^ sh ≤ 0xFFFFFF * 2 ^ 125 :=
      Nat.mul_le_mul (by omega) (Nat.pow_le_pow_right (by omega) (by omega))
    exact le_trans (Nat.mod_le _ _) h1
  · obtain ⟨j, rfl⟩ := Nat.exists_eq_add_of_le hs
    rw [show q * 2 ^ (125 + j) = (q * 2 ^ j) * 2 ^ 125 by rw [Nat.pow_add]; ring,
      Nat.mul_mod_mul_right]
    exact Nat.mul_le_mul_right _ (by have := Nat.mod_lt (q * 2 ^ j) (show 0 < 0x1000000 by omega); omega)

/-! ## `fmod1` lies in `[0,1)` (00_scope R10) -/

/-- A magnitude pattern below that of 1.0, with the sign clear, is in `[0,1)`. -/
theorem phase_of_mag {m : Nat} (h : m ≤ 0x3F7FFFFF) :
    fge (ofMag false m) posZero = true ∧ flt (ofMag false m) one = true := by
  have hm : m < 0x80000000 := by omega
  have k1 : orderKey (ofMag false m) = (m : Int) := by
    rw [orderKey_pos (isNeg_ofMag _ hm), fmag_ofMag _ hm]
  have n1 : isNaN (ofMag false m) = false := by
    simp only [isNaN, fmag_ofMag _ hm, infMag, decide_eq_false_iff_not]; omega
  have n2 : isNaN posZero = false := by decide
  have n3 : isNaN one = false := by decide
  have k2 : orderKey posZero = 0 := by decide
  have k3 : orderKey one = 0x3F800000 := by decide
  simp only [fge, flt, ordered, n1, n2, n3, k1, k2, k3]
  simp
  omega

theorem asPhase_range (raw : F) :
    fge (asPhase raw) posZero = true ∧ flt (asPhase raw) one = true := by
  unfold asPhase
  split
  · rename_i h
    simpa using h
  · exact ⟨by decide, by decide⟩

/-- A value less its integer part is in `[0,1)` (40_oscillator R129). -/
theorem fsub_floor_range {a : F} (hf : isFinite a = true) (hs : isNeg a = false) :
    fge (fsub a (ffloor a)) posZero = true ∧ flt (fsub a (ffloor a)) one = true := by
  have hm : fmag a < infMag := by simpa [isFinite] using hf
  have na : isNaN a = false := by simp [isNaN]; omega
  have ia : isInf a = false := by simp [isInf]; omega
  have main : ∀ b : F, isFinite b = true → isNeg b = false → scaled b ≤ scaled a →
      scaled a - scaled b ≤ scaledMag 0x3F7FFFFF →
      fge (fsub a b) posZero = true ∧ flt (fsub a b) one = true := by
    intro b hb hbs hle hr
    have hmb : fmag b < infMag := by simpa [isFinite] using hb
    have hneg : fneg b = ofMag true (fmag b) := by
      have h1 := ofMag_isNeg_fmag b
      rw [hbs] at h1
      apply BitVec.eq_of_toNat_eq
      have hl : b.toNat = fmag b := by
        rw [← congrArg BitVec.toNat h1, toNat_ofMag _ (fmag_lt b)]; rfl
      rw [toNat_ofMag _ (fmag_lt b)]
      have hlt := fmag_lt b
      unfold fneg
      have hx : b ^^^ 0x80000000#32 = b + 0x80000000#32 := by
        have h3 : b &&& 0x80000000#32 = 0#32 := by
          have hmsb : b.msb = false := hbs
          apply BitVec.eq_of_getLsbD_eq
          intro i hi
          rw [BitVec.getLsbD_and]
          by_cases hi31 : i = 31
          · subst hi31
            rw [BitVec.msb_eq_getLsbD_last] at hmsb
            simp at hmsb
            simp [hmsb]
          · have : (0x80000000#32).getLsbD i = false := by
              interval_cases i <;> first | decide | omega
            simp [this]
        rw [BitVec.add_eq_or_of_and_eq_zero _ _ h3]
        apply BitVec.eq_of_getLsbD_eq
        intro i hi
        have h4 := congrArg (fun v => v.getLsbD i) h3
        simp only [BitVec.getLsbD_and] at h4
        rw [BitVec.getLsbD_xor, BitVec.getLsbD_or]
        revert h4
        cases b.getLsbD i <;> cases (0x80000000#32).getLsbD i <;> simp
      rw [hx, BitVec.toNat_add, hl]
      simp
      omega
    have f1 : fmag (fneg b) = fmag b := by rw [hneg, fmag_ofMag _ (fmag_lt b)]
    have f2 : isNeg (fneg b) = true := by rw [hneg, isNeg_ofMag _ (fmag_lt b)]
    have n1 : isNaN (fneg b) = false := by simp only [isNaN, f1, decide_eq_false_iff_not]; omega
    have i1 : isInf (fneg b) = false := by simp only [isInf, f1, decide_eq_false_iff_not]; omega
    have sb : scaled (fneg b) = scaled b := by rw [scaled_eq, scaled_eq, f1]
    have hz : scaledInt a + scaledInt (fneg b) = ((scaled a - scaled b : Nat) : Int) := by
      simp only [scaledInt, hs, f2, sb]
      simp
      omega
    unfold fsub addWith
    simp only [na, n1, ia, i1, Bool.or_false, Bool.false_eq_true, if_false, addFinite, hz]
    generalize scaled a - scaled b = r at *
    split
    · rw [hs]
      exact phase_of_mag (by omega)
    · have hneg' : decide (((r : Nat) : Int) < 0) = false := by simp
      rw [hneg', Int.natAbs_natCast]
      exact phase_of_mag (roundMag_le (by omega) (by decide) (by simpa using hr))
  unfold ffloor
  split
  · exact main a hf hs (le_refl _) (by rw [Nat.sub_self]; exact Nat.zero_le _)
  · rename_i h
    have hlt : fmag a < 0x4B000000 := by
      simp only [hf, Bool.not_true, Bool.false_or, decide_eq_true_eq, not_le] at h; exact h
    simp only [hs, Bool.false_eq_true, if_false]
    have hsa : scaled a < 0x800000 * unitScale := by
      have h1 := scaledMag_strictMono hlt
      have h2 : scaledMag 0x4B000000 = 0x800000 * unitScale := by decide
      rw [scaled_eq]; omega
    have hu : 0 < unitScale := by decide
    have hN : scaled a / unitScale < 0x1000000 := by
      have := (Nat.div_lt_iff_lt_mul hu).mpr hsa
      omega
    obtain ⟨e1, e2, e3⟩ := itof_exact hN
    have hdm := Nat.div_add_mod' (scaled a) unitScale
    have hr := scaledMag_mod_one (fmag a)
    rw [← scaled_eq] at hr
    exact main _ e3 e2 (by rw [e1]; omega) (by rw [e1]; omega)

/-- `fmod1` lies in `[0,1)`, whatever its argument (00_scope R10, entry 11). -/
theorem fmod1_range (a : F) :
    fge (fmod1 a) posZero = true ∧ flt (fmod1 a) one = true := by
  unfold fmod1
  split
  · rename_i h
    rw [Bool.and_eq_true] at h
    obtain ⟨hf, hge⟩ := h
    cases hs : isNeg a with
    | false => exact fsub_floor_range hf hs
    | true =>
      have h0 : fmag a = 0 := by
        have k2 : orderKey posZero = 0 := by decide
        simp only [fge, orderKey, hs, if_true, Bool.and_eq_true, decide_eq_true_eq] at hge
        have := hge.2
        change orderKey posZero ≤ _ at this
        omega
      have : a = 0x80000000#32 := by
        rw [← ofMag_isNeg_fmag a, hs, h0]; rfl
      subst this
      decide +kernel
  · exact asPhase_range _

/-! ## Nearest, ties to even (00_scope R10) -/

/-- A finite rounded magnitude is as near to the exact quotient as any finite pattern's, and where
another is equally near it is the even one. -/
theorem roundMag_nearest {n d m : Nat} (hd : 0 < d) (hr : roundMag n d < infMag) (_hm : m < infMag) :
    |((scaledMag (roundMag n d) * d : Nat) : ℤ) - n| ≤ |((scaledMag m * d : Nat) : ℤ) - n| ∧
    (|((scaledMag (roundMag n d) * d : Nat) : ℤ) - n| = |((scaledMag m * d : Nat) : ℤ) - n| →
      m ≠ roundMag n d → roundMag n d % 2 = 0) := by
  obtain ⟨sh, q, he, hq, hq', hs, h1, h2, h3, hn, hn'⟩ := roundMag_place n hd
  have he' : roundMag n d = sh * 0x800000 + q := by
    rw [he] at hr ⊢
    exact Nat.min_eq_left (by omega)
  rw [he', hs]
  have hD : 0 < d * 2 ^ sh := Nat.mul_pos hd (Nat.two_pow_pos sh)
  have eq1 : q * 2 ^ sh * d = q * (d * 2 ^ sh) := by ring
  rw [eq1]
  obtain ⟨sh', q', rfl, hlt, hp⟩ := place_of m
  rw [scaledMag_place (by omega) hp]
  rcases Nat.lt_or_ge sh' sh with hc | hc
  · rcases hn' with h | h
    · omega
    · have v1 : q' * 2 ^ sh' * d < d * 2 ^ (sh + 23) := by
        have e1 : q' * 2 ^ sh' < 2 ^ 24 * 2 ^ sh' :=
          Nat.mul_lt_mul_of_pos_right (by omega) (Nat.two_pow_pos _)
        rw [← Nat.pow_add] at e1
        have e2 : 2 ^ (24 + sh') ≤ 2 ^ (sh + 23) := Nat.pow_le_pow_right (by omega) (by omega)
        rw [Nat.mul_comm d]
        exact Nat.mul_lt_mul_of_pos_right (by omega) hd
      have e23 : d * 2 ^ (sh + 23) = 0x800000 * (d * 2 ^ sh) := by rw [Nat.pow_add]; ring
      have hq2 : 0x800000 * (d * 2 ^ sh) ≤ q * (d * 2 ^ sh) := Nat.mul_le_mul_right _ (by omega)
      have hstep : q * (d * 2 ^ sh) = 0x800000 * (d * 2 ^ sh) ∨
          0x800001 * (d * 2 ^ sh) ≤ q * (d * 2 ^ sh) := by
        rcases Nat.eq_or_lt_of_le (show 0x800000 ≤ q by omega) with h' | h'
        · left; rw [← h']
        · right; exact Nat.mul_le_mul_right _ (by omega)
      generalize q' * 2 ^ sh' * d = v at *
      generalize q * (d * 2 ^ sh) = w at *
      generalize d * 2 ^ sh = D at *
      have lt : |((w : Nat) : ℤ) - n| < |((v : Nat) : ℤ) - n| := by
        rw [abs_lt]
        have : |((v : Nat) : ℤ) - n| = n - v := by rw [abs_of_neg (by omega)]; omega
        omega
      exact ⟨le_of_lt lt, fun h => absurd h (ne_of_lt lt)⟩
  · obtain ⟨j, rfl⟩ := Nat.exists_eq_add_of_le hc
    have e : q' * 2 ^ (sh + j) * d = (q' * 2 ^ j) * (d * 2 ^ sh) := by rw [Nat.pow_add]; ring
    have inj : (q' * 2 ^ j) = q → (sh + j) * 0x800000 + q' = sh * 0x800000 + q := fun h => by
      apply scaledMag_strictMono.injective
      rw [hs, scaledMag_place (by omega) hp, ← h, Nat.pow_add]
      ring
    rw [e]
    generalize q' * 2 ^ j = k at *
    have cmp : k = q ∨ (k + 1) * (d * 2 ^ sh) ≤ q * (d * 2 ^ sh) ∨
        (q + 1) * (d * 2 ^ sh) ≤ k * (d * 2 ^ sh) := by
      rcases Nat.lt_trichotomy k q with h | h | h
      · exact .inr (.inl (Nat.mul_le_mul_right _ h))
      · exact .inl h
      · exact .inr (.inr (Nat.mul_le_mul_right _ h))
    have e1 : (k + 1) * (d * 2 ^ sh) = k * (d * 2 ^ sh) + d * 2 ^ sh := by ring
    have e2 : (q + 1) * (d * 2 ^ sh) = q * (d * 2 ^ sh) + d * 2 ^ sh := by ring
    rcases cmp with h | h | h
    · subst h
      exact ⟨le_refl _, fun _ hne => absurd (inj rfl) hne⟩
    · generalize k * (d * 2 ^ sh) = v at *
      generalize hw : q * (d * 2 ^ sh) = w at *
      generalize d * 2 ^ sh = D at *
      have ev : |((v : Nat) : ℤ) - n| = n - v := by rw [abs_of_neg (by omega)]; omega
      rw [ev, abs_le]
      refine ⟨by omega, fun h4 _ => ?_⟩
      have : q % 2 = 0 := h3 (by
        rcases abs_cases (((w : Nat) : ℤ) - n) with ⟨h5, -⟩ | ⟨h5, -⟩ <;> omega)
      omega
    · generalize k * (d * 2 ^ sh) = v at *
      generalize hw : q * (d * 2 ^ sh) = w at *
      generalize d * 2 ^ sh = D at *
      have ev : |((v : Nat) : ℤ) - n| = v - n := abs_of_nonneg (by omega)
      rw [ev, abs_le]
      refine ⟨by omega, fun h4 _ => ?_⟩
      have : q % 2 = 0 := h3 (by
        rcases abs_cases (((w : Nat) : ℤ) - n) with ⟨h5, -⟩ | ⟨h5, -⟩ <;> omega)
      omega

/-- A quotient is rounded to infinity exactly from half a unit in the last place beyond the greatest
finite magnitude, `(2^24 - 1/2) * 2^253` units. -/
theorem roundMag_inf_iff {n d : Nat} (hd : 0 < d) :
    roundMag n d = infMag ↔ d * ((2 ^ 25 - 1) * 2 ^ 252) ≤ n := by
  obtain ⟨sh, q, he, hq, hq', -, h1, h2, h3, hn, hn'⟩ := roundMag_place n hd
  rw [he]
  have hinf : infMag = 255 * 0x800000 := rfl
  have hsplit : ∀ k, d * 2 ^ k * 2 = d * 2 ^ (k + 1) := fun k => by rw [Nat.pow_succ]; ring
  have hT : d * ((2 ^ 25 - 1) * 2 ^ 252) * 2 = (2 ^ 25 - 1) * (d * 2 ^ 253) := by
    rw [show (253 : Nat) = 252 + 1 by rfl, ← hsplit]; ring
  have mono : ∀ {i j : Nat}, i ≤ j → d * 2 ^ i ≤ d * 2 ^ j := fun h =>
    Nat.mul_le_mul_left _ (Nat.pow_le_pow_right (by omega) h)
  have e277 : d * 2 ^ 277 = 2 ^ 24 * (d * 2 ^ 253) := by
    rw [show (277 : Nat) = 24 + 253 by rfl, Nat.pow_add]; ring
  have e276 : d * 2 ^ 276 = 2 ^ 23 * (d * 2 ^ 253) := by
    rw [show (276 : Nat) = 23 + 253 by rfl, Nat.pow_add]; ring
  rw [Nat.min_def]
  constructor
  · intro h
    have hge : infMag ≤ sh * 0x800000 + q := by split_ifs at h <;> omega
    rcases Nat.lt_trichotomy sh 253 with hc | hc | hc
    · omega
    · subst hc
      have hq24 : q = 0x1000000 := by omega
      subst hq24
      omega
    · rcases hn' with h' | h'
      · omega
      · have := mono (show 277 ≤ sh + 23 by omega)
        omega
  · intro h
    have hsh : 253 ≤ sh := by
      by_contra hc
      have := mono (show sh + 24 ≤ 276 by omega)
      omega
    have hge : infMag ≤ sh * 0x800000 + q := by
      rcases Nat.eq_or_lt_of_le hsh with hc | hc
      · subst hc
        rcases Nat.lt_trichotomy q 0xFFFFFF with h' | h' | h'
        · have : q * (d * 2 ^ 253) ≤ 0xFFFFFE * (d * 2 ^ 253) :=
            Nat.mul_le_mul_right _ (by omega)
          have hD : 0 < d * 2 ^ 253 := Nat.mul_pos hd (Nat.two_pow_pos _)
          omega
        · subst h'
          have : (0xFFFFFF : Nat) % 2 = 0 := h3 (by right; omega)
          omega
        · omega
      · omega
    split_ifs <;> omega

end Sys2Proof.Machine
end

