-- ==== Sys2Proof/Laws/PerInstr.lean ====
section
/-!
SUPPORT. Statements made per instruction, about instructions as syntax.
-/

namespace Sys2Proof.Laws

/-- The bits of an instruction's opcode-table row: width, mask and match (30_encoding R92, R97;
spec/opcode_table.json). -/
def rowOf : Instr → Nat × Nat × Nat
  | .start _ => (40, 0xFF00000000, 0x0000000000)
  | .stop _ => (40, 0xFF00000000, 0x0100000000)
  | .changeFrequency _ => (40, 0xFF00000000, 0x0200000000)
  | .changeOscillator _ => (40, 0xFF00000000, 0x0300000000)
  | .changeNoise _ => (40, 0xFF00000000, 0x0400000000)
  | .pressed _ => (40, 0xFF00000000, 0x0500000000)
  | .released _ => (40, 0xFF00000000, 0x0600000000)
  | .oscSetFrequency => (8, 0xFF, 0x00)
  | .oscSetWaveType => (8, 0xFF, 0x01)
  | .oscRun => (8, 0xFF, 0x02)
  | .noiseUniform => (8, 0xFF, 0x10)
  | .noiseGaussian => (8, 0xFF, 0x11)
  | .envPress => (8, 0xFF, 0x20)
  | .envRelease => (8, 0xFF, 0x21)
  | .envUpdate => (8, 0xFF, 0x22)
  | .metUpdate => (8, 0xFF, 0x30)
  | .metGetBeatIndex => (8, 0xFF, 0x31)
  | .tsAccent => (8, 0xFF, 0x32)
  | .qTryPush => (8, 0xFF, 0x40)
  | .qTryPop => (8, 0xFF, 0x41)
  | .qFill => (8, 0xFF, 0x42)
  | .fftTransform => (8, 0xFF, 0x50)
  | .fftMag => (8, 0xFF, 0x51)
  | .ctrRead => (8, 0xFF, 0x60)

/-- The bits of an encoding as a number, with their count. -/
def bitsOf : Encoded → Nat × Nat
  | .cmd w => (40, w.toNat)
  | .uop c => (8, c.toNat)

/-- The encoder writes the instruction in its row's width, with its row's fixed bits: "a word `w`
selects a command when `w AND mask = match`" (30_encoding R92). -/
def EncodedForm.Statement (i : Instr) : Prop :=
  (bitsOf (encode i)).1 = (rowOf i).1 ∧
    (bitsOf (encode i)).2 &&& (rowOf i).2.1 = (rowOf i).2.2

/-- The fixed bits of a command word are its `op` field. -/
theorem cmdWord_and_opMask (op : BitVec 8) (a : BitVec 32) :
    (cmdWord op a).toNat &&& 0xFF00000000 = op.toNat * 0x100000000 := by
  have hb : (op ++ a) &&& 0xFF00000000#40 = op ++ 0#32 := by
    apply BitVec.eq_of_getLsbD_eq
    intro i hi
    rw [BitVec.getLsbD_and, BitVec.getLsbD_append, BitVec.getLsbD_append]
    interval_cases i <;> simp
  have h := congrArg BitVec.toNat hb
  rw [BitVec.toNat_and, BitVec.toNat_append op 0#32] at h
  simpa [cmdWord, Nat.shiftLeft_eq] using h

theorem EncodedForm.start (a : BitVec 32) : EncodedForm.Statement (.start a) :=
  ⟨rfl, cmdWord_and_opMask _ _⟩
theorem EncodedForm.stop (a : BitVec 32) : EncodedForm.Statement (.stop a) :=
  ⟨rfl, cmdWord_and_opMask _ _⟩
theorem EncodedForm.changeFrequency (a : BitVec 32) : EncodedForm.Statement (.changeFrequency a) :=
  ⟨rfl, cmdWord_and_opMask _ _⟩
theorem EncodedForm.changeOscillator (a : BitVec 32) :
    EncodedForm.Statement (.changeOscillator a) := ⟨rfl, cmdWord_and_opMask _ _⟩
theorem EncodedForm.changeNoise (a : BitVec 32) : EncodedForm.Statement (.changeNoise a) :=
  ⟨rfl, cmdWord_and_opMask _ _⟩
theorem EncodedForm.pressed (a : BitVec 32) : EncodedForm.Statement (.pressed a) :=
  ⟨rfl, cmdWord_and_opMask _ _⟩
theorem EncodedForm.released (a : BitVec 32) : EncodedForm.Statement (.released a) :=
  ⟨rfl, cmdWord_and_opMask _ _⟩
theorem EncodedForm.oscSetFrequency : EncodedForm.Statement .oscSetFrequency := ⟨rfl, rfl⟩
theorem EncodedForm.oscSetWaveType : EncodedForm.Statement .oscSetWaveType := ⟨rfl, rfl⟩
theorem EncodedForm.oscRun : EncodedForm.Statement .oscRun := ⟨rfl, rfl⟩
theorem EncodedForm.noiseUniform : EncodedForm.Statement .noiseUniform := ⟨rfl, rfl⟩
theorem EncodedForm.noiseGaussian : EncodedForm.Statement .noiseGaussian := ⟨rfl, rfl⟩
theorem EncodedForm.envPress : EncodedForm.Statement .envPress := ⟨rfl, rfl⟩
theorem EncodedForm.envRelease : EncodedForm.Statement .envRelease := ⟨rfl, rfl⟩
theorem EncodedForm.envUpdate : EncodedForm.Statement .envUpdate := ⟨rfl, rfl⟩
theorem EncodedForm.metUpdate : EncodedForm.Statement .metUpdate := ⟨rfl, rfl⟩
theorem EncodedForm.metGetBeatIndex : EncodedForm.Statement .metGetBeatIndex := ⟨rfl, rfl⟩
theorem EncodedForm.tsAccent : EncodedForm.Statement .tsAccent := ⟨rfl, rfl⟩
theorem EncodedForm.qTryPush : EncodedForm.Statement .qTryPush := ⟨rfl, rfl⟩
theorem EncodedForm.qTryPop : EncodedForm.Statement .qTryPop := ⟨rfl, rfl⟩
theorem EncodedForm.qFill : EncodedForm.Statement .qFill := ⟨rfl, rfl⟩
theorem EncodedForm.fftTransform : EncodedForm.Statement .fftTransform := ⟨rfl, rfl⟩
theorem EncodedForm.fftMag : EncodedForm.Statement .fftMag := ⟨rfl, rfl⟩
theorem EncodedForm.ctrRead : EncodedForm.Statement .ctrRead := ⟨rfl, rfl⟩

end Sys2Proof.Laws
end

