-- ==== Sys2Proof/Laws/Queue.lean ====
section
/-!
SUPPORT. What the queue operations can do, one lemma each, and the arithmetic of cursors
(44_fifo R206 to R213, 10_state R37).
-/

namespace Sys2Proof.Machine

/-! ## Cursor arithmetic -/

theorem modSub_eq {a b m : Nat} (ha : a < m) (hb : b < m) :
    modSub a b m = if b ≤ a then a - b else a + m - b := by
  unfold modSub
  rw [Nat.mod_eq_of_lt hb]
  split
  · rename_i h
    have : a + (m - b) = (a - b) + m := by omega
    rw [this, Nat.add_mod_right, Nat.mod_eq_of_lt (by omega)]
  · have : a + (m - b) = a + m - b := by omega
    rw [this, Nat.mod_eq_of_lt (by omega)]

theorem advance_eq {C x k : Nat} (hx : x < 2 * C) (hk : k ≤ 2 * C) :
    advance C x k = if x + k < 2 * C then x + k else x + k - 2 * C := by
  unfold advance
  split
  · rename_i h
    exact Nat.mod_eq_of_lt h
  · rename_i h
    have e : x + k = (x + k - 2 * C) + 2 * C := by omega
    rw [e, Nat.add_mod_right, Nat.mod_eq_of_lt (by omega)]
    omega

theorem advance_lt {C x k : Nat} (hC : 0 < C) : advance C x k < 2 * C :=
  Nat.mod_lt _ (by omega)

/-- A cursor moved on by `k`, then by `j`. -/
theorem advance_advance (C x k j : Nat) : advance C (advance C x k) j = advance C x (k + j) := by
  simp [advance, Nat.add_assoc]

/-! ## The operations -/

/-- All that Q.TRY_PUSH can do: refuse with nothing changed, or write the element and advance
`q.w`. -/
theorem tryPush_ok {q : QueueId} {v : Elem} {s t : State} (h : tryPush q v s = .ok t) :
    (fullP (s.cap q) (s.cur q) = true ∧ t = driveAccepted q false s) ∨
    (fullP (s.cap q) (s.cur q) = false ∧ (s.cur q).w % s.cap q < arraySize s.cfg.params (.ring q) ∧
      t = driveAccepted q true
        ((s.withMem (s.mem.put (.ring q) ((s.cur q).w % s.cap q) v)).withCur q
          { s.cur q with w := advance (s.cap q) (s.cur q).w 1 })) := by
  unfold tryPush at h
  simp only at h
  split at h
  · rename_i hf
    exact .inl ⟨hf, by simpa using h.symm⟩
  · rename_i hf
    split at h
    · cases h
    · rename_i m hm
      obtain ⟨hi, rfl⟩ := (writeElem_ok_iff ..).mp hm
      exact .inr ⟨by simpa using hf, hi, by simpa using h.symm⟩

/-- Q.TRY_PUSH never faults. -/
theorem tryPush_no_fault (q : QueueId) (v : Elem) (s : State) (f : Fault) :
    tryPush q v s ≠ .error f := by
  unfold tryPush
  simp only
  split
  · simp
  · rename_i hf
    have hC : 0 < s.cap q := by
      by_contra h0
      have : s.cap q = 0 := by omega
      simp [fullP, this] at hf
    have hi : (s.cur q).w % s.cap q < arraySize s.cfg.params (.ring q) := Nat.mod_lt _ hC
    rw [writeElem_inside _ _ _ _ _ hi]
    simp

/-- All that Q.TRY_POP can do: find nothing, or take the element at `q.r` and advance `q.r`. -/
theorem tryPop_ok {q : QueueId} {s t : State} (h : tryPop q s = .ok t) :
    (emptyC (s.cap q) (s.cur q) = true ∧
      t = spendDraw (drivePopped q false (Config.popData s.draws) s)) ∨
    (∃ e, emptyC (s.cap q) (s.cur q) = false ∧
      (s.cur q).r % s.cap q < arraySize s.cfg.params (.ring q) ∧
      s.mem.get (.ring q) ((s.cur q).r % s.cap q) = some e ∧
      t = drivePopped q true (e.setWidth 40)
        (s.withCur q { s.cur q with r := advance (s.cap q) (s.cur q).r 1 })) := by
  unfold tryPop at h
  simp only at h
  split at h
  · rename_i he
    exact .inl ⟨he, by simpa using h.symm⟩
  · rename_i he
    split at h
    · cases h
    · rename_i e hr
      obtain ⟨hi, hg⟩ := (readElem_ok_iff ..).mp hr
      exact .inr ⟨e, by simpa using he, hi, hg, by simpa using h.symm⟩

/-- One slot of Q.FILL is one pop of OUT, then AUD's own bookkeeping. -/
theorem fillSlot_ok {s u : State} (h : fillSlot s = .ok u) :
    ∃ t, tryPop .out s = .ok t ∧
      ((t.res.outQ.valid = true ∧
          u = t.withAud ⟨t.aud.left - 1, t.aud.block ++ [slotSample t]⟩) ∨
        (t.res.outQ.valid = false ∧
          u = (t.withCtr { t.ctr with outUnderflows := satInc t.ctr.outUnderflows }).withAud
            ⟨t.aud.left - 1, t.aud.block ++ [posZero]⟩)) := by
  unfold fillSlot at h
  split at h
  · cases h
  · rename_i t ht
    refine ⟨t, ht, ?_⟩
    cases hv : t.res.outQ.valid with
    | true => left; simpa [hv] using h.symm
    | false =>
      right
      simp only [hv, Bool.false_eq_true, if_false] at h
      have hs : slotSample (t.withCtr { t.ctr with outUnderflows := satInc t.ctr.outUnderflows })
          = posZero := by simp [slotSample, hv]
      simp only [hs] at h
      simpa using h.symm

/-- All that a SYNC step can do: nothing, or move the one copy by an admitted draw. -/
theorem syncStep_cases (q : QueueId) (side : SyncSide) (d : Nat) (s : State) :
    syncStep q side d s = s ∨
    (1 ≤ d ∧ d ≤ lagOf (s.cap q) (s.cur q) side ∧
      syncStep q side d s = s.withCur q (moveCopy (s.cap q) (s.cur q) side d)) := by
  unfold syncStep
  split
  · rename_i h
    exact .inr ⟨h.1, h.2, rfl⟩
  · exact .inl rfl

/-! ## The cursor invariant under each operation (10_state R37) -/

/-- Moving the leading cursor on by `k` puts it `k` further ahead, short of a full turn. -/
theorem modSub_advance_left {C a b k : Nat} (ha : a < 2 * C) (hb : b < 2 * C)
    (hk : modSub a b (2 * C) + k < 2 * C) :
    modSub (advance C a k) b (2 * C) = modSub a b (2 * C) + k := by
  have hC : 0 < C := by omega
  rw [modSub_eq (advance_lt hC) hb, advance_eq ha (by omega)]
  rw [modSub_eq ha hb] at hk ⊢
  split_ifs at hk ⊢ <;> omega

/-- Moving the trailing cursor on by `k`, not past the leading one, brings it `k` nearer. -/
theorem modSub_advance_right {C a b k : Nat} (ha : a < 2 * C) (hb : b < 2 * C)
    (hk : k ≤ modSub a b (2 * C)) :
    modSub a (advance C b k) (2 * C) = modSub a b (2 * C) - k := by
  have hC : 0 < C := by omega
  rw [modSub_eq ha hb] at hk ⊢
  rw [modSub_eq ha (advance_lt hC), advance_eq hb (by split_ifs at hk <;> omega)]
  split_ifs at hk ⊢ <;> omega

/-- Of three cursors in order, the two distances add up. -/
theorem modSub_split {m a b c : Nat} (ha : a < m) (hb : b < m) (hc : c < m)
    (h : modSub a b m ≤ modSub a c m ∨ modSub b c m ≤ modSub a c m) :
    modSub a b m + modSub b c m = modSub a c m := by
  rw [modSub_eq ha hb, modSub_eq hb hc, modSub_eq ha hc] at *
  split_ifs at * <;> omega

/-- An accepted push keeps the cursors ordered and makes the queue one longer. -/
theorem CursorsOk.push {C : Nat} {c : Cursors} (h : CursorsOk C c) (hf : fullP C c = false) :
    CursorsOk C { c with w := advance C c.w 1 } ∧
      occ C { c with w := advance C c.w 1 } = occ C c + 1 := by
  obtain ⟨h1, h2, h3, h4, h5, h6, h7⟩ := h
  simp only [fullP, decide_eq_false_iff_not, not_le] at hf
  simp only [availC, occ, occP] at h5 h6 h7 hf
  have eo := modSub_advance_left (k := 1) h1 h2 (by omega)
  have ep := modSub_advance_left (k := 1) h1 h4 (by omega)
  exact ⟨⟨advance_lt (by omega), h2, h3, h4, by simp only [availC, occ, eo]; omega,
    by simp only [occ, occP, eo, ep]; omega, by simp only [occP, ep]; omega⟩, eo⟩

/-- A pop that finds an element keeps the cursors ordered and makes the queue one shorter. -/
theorem CursorsOk.pop {C : Nat} {c : Cursors} (h : CursorsOk C c) (hf : emptyC C c = false) :
    CursorsOk C { c with r := advance C c.r 1 } ∧
      occ C c = occ C { c with r := advance C c.r 1 } + 1 := by
  obtain ⟨h1, h2, h3, h4, h5, h6, h7⟩ := h
  simp only [emptyC, decide_eq_false_iff_not] at hf
  simp only [availC, occ, occP] at h5 h6 h7 hf
  have ev := modSub_advance_right (k := 1) h3 h2 (by omega)
  have eo := modSub_advance_right (k := 1) h1 h2 (by omega)
  exact ⟨⟨h1, advance_lt (by omega), h3, h4, by simp only [availC, occ, ev, eo]; omega,
    by simp only [occ, occP, eo]; omega, h7⟩, by simp only [occ, eo]; omega⟩

/-- A SYNC step keeps the cursors ordered and the queue as long as it was. -/
theorem CursorsOk.sync {C : Nat} {c : Cursors} (h : CursorsOk C c) (side : SyncSide) {d : Nat}
    (_h1 : 1 ≤ d) (hd : d ≤ lagOf C c side) :
    CursorsOk C (moveCopy C c side d) ∧ occ C (moveCopy C c side d) = occ C c := by
  obtain ⟨g1, g2, g3, g4, g5, g6, g7⟩ := h
  simp only [availC, occ, occP] at g5 g6 g7
  cases side with
  | read =>
    simp only [lagOf] at hd
    have hs := modSub_split g1 g2 g4 (.inl g6)
    have ep := modSub_advance_right (k := d) g1 g4 (by omega)
    exact ⟨⟨g1, g2, g3, advance_lt (by omega), g5, by simp only [occ, occP, moveCopy, ep]; omega,
      by simp only [occP, moveCopy, ep]; omega⟩, rfl⟩
  | write =>
    simp only [lagOf] at hd
    have hs := modSub_split g1 g3 g2 (.inr g5)
    have ev := modSub_advance_left (k := d) g3 g2 (by omega)
    exact ⟨⟨g1, g2, advance_lt (by omega), g4, by simp only [availC, occ, moveCopy, ev]; omega,
      g6, g7⟩, rfl⟩

end Sys2Proof.Machine
end

