-- ==== Sys2Proof/Laws/Units.lean ====
section
/-!
SUPPORT. What the unit operations of OSC, NOISE, ENV, MET and CTR can do, one lemma each
(40_oscillator, 41_noise, 42_envelope, 43_metronome, 60_exceptions R312).
-/

namespace Sys2Proof.Machine

/-! ## Oscillator -/

/-- OSC.SET_FREQUENCY writes a legal frequency and nothing else (R121). -/
theorem setFrequency_next {f : F} {s t : State} (h : setFrequency f s = .next t) :
    legalFrequency f = true ∧ t = s.withOsc { s.osc with frequency := f } := by
  unfold setFrequency at h
  split at h
  · rename_i hf
    exact ⟨hf, by simpa using h.symm⟩
  · cases h

/-- OSC.SET_WAVE_TYPE changes nothing, or the waveform, or the waveform and the duty (R122). -/
theorem setWaveType_next {w : BitVec 8} {d : F} {s t : State} (h : setWaveType w d s = .next t) :
    (waveOf w = none ∧ t = s) ∨
    (waveOf w = some .square ∧ isNaN d = false ∧
      t = s.withOsc { s.osc with waveType := .square, duty := clampDuty d }) ∨
    (∃ k, waveOf w = some k ∧ k ≠ .square ∧ t = s.withOsc { s.osc with waveType := k }) := by
  unfold setWaveType at h
  split at h
  · rename_i hw
    exact .inl ⟨hw, by simpa using h.symm⟩
  · rename_i hw
    split at h
    · cases h
    · rename_i hd
      exact .inr (.inl ⟨hw, by simpa using hd, by simpa using h.symm⟩)
  all_goals
    rename_i hw
    exact .inr (.inr ⟨_, hw, by simp, by simpa using h.symm⟩)

/-- OSC.RUN writes the phase and the sample port (R123). -/
theorem oscRun_eq (s : State) :
    ∃ ph y, oscRun s = (s.withOsc { s.osc with phase := ph }).withRes { s.res with oscSample := y } ∧
      ((feq s.osc.frequency posZero = true ∧ ph = s.osc.phase ∧ y = posZero) ∨
       (feq s.osc.frequency posZero = false ∧ ph = advancePhase s.cfg.params s.osc ∧
        y = waveSample s.cfg.params s.osc)) := by
  unfold oscRun
  split
  · rename_i hz
    exact ⟨s.osc.phase, posZero, rfl, .inl ⟨hz, rfl, rfl⟩⟩
  · rename_i hz
    exact ⟨_, _, rfl, .inr ⟨by simpa using hz, rfl, rfl⟩⟩

/-- A clamped duty lies in `[0,1]` unless the operand is a NaN (R122): it is a bound or the operand. -/
theorem clampDuty_cases (d : F) :
    (flt d posZero = true ∧ clampDuty d = posZero) ∨ (flt one d = true ∧ clampDuty d = one) ∨
    (flt d posZero = false ∧ flt one d = false ∧ clampDuty d = d) := by
  unfold clampDuty
  split
  · rename_i h
    exact .inl ⟨h, rfl⟩
  · rename_i h
    split
    · rename_i h'
      exact .inr (.inl ⟨h', rfl⟩)
    · rename_i h'
      exact .inr (.inr ⟨by simpa using h, by simpa using h', rfl⟩)

/-! ## Noise: every admitted draw can result and no other (R151, R152) -/

theorem legalUniform_uniformOf (raw : F) : legalUniform (uniformOf raw) = true := by
  unfold uniformOf
  split
  · assumption
  · decide

theorem uniformOf_of_legal {d : F} (h : legalUniform d = true) : uniformOf d = d := by
  simp [uniformOf, h]

theorem isFinite_gaussianOf (raw : F) : isFinite (gaussianOf raw) = true := by
  unfold gaussianOf
  split
  · assumption
  · decide

theorem gaussianOf_of_finite {d : F} (h : isFinite d = true) : gaussianOf d = d := by
  simp [gaussianOf, h]

/-! ## Envelope -/

/-- ENV.PRESS goes to Attack and keeps the volume (R162, R163). -/
theorem pressEnv_state (p : Params) (e : Env) :
    (pressEnv p e).state = .attack ∧ (pressEnv p e).volume = e.volume := by
  cases h : e.state <;> simp [pressEnv, h]

/-- ENV.RELEASE keeps the registers or goes to Release with the volume kept (R164). -/
theorem releaseEnv_cases (p : Params) (e : Env) :
    releaseEnv p e = e ∨
    (p.releaseMode = .forced ∧ (e.state = .attack ∨ e.state = .decay ∨ e.state = .sustain) ∧
      releaseEnv p e = { e with state := .release, tick := releaseTick p e.volume }) := by
  cases hm : p.releaseMode <;> cases h : e.state <;> simp [releaseEnv, hm, h]

/-- One update along a segment stays in the state or takes its transition, with the tick back at 0,
and with the volume at `+0.0` in Idle (R165). -/
theorem updateAlong_cases (g : Segment) (e : Env) :
    (fge (fadd e.tick one) g.dur = true ∧ (updateAlong g e).state = g.next ∧
      (updateAlong g e).tick = posZero ∧
      (g.next = .idle → (updateAlong g e).volume = posZero)) ∨
    (fge (fadd e.tick one) g.dur = false ∧ (updateAlong g e).state = e.state ∧
      (updateAlong g e).tick = fadd e.tick one) := by
  cases h : fge (fadd e.tick one) g.dur with
  | true =>
    left
    refine ⟨rfl, ?_, ?_, ?_⟩ <;> simp +contextual [updateAlong, h]
  | false =>
    right
    refine ⟨rfl, ?_, ?_⟩ <;> simp [updateAlong, h]

/-- Idle and Sustain have no segment: ENV.UPDATE changes nothing there (R169, R170). -/
theorem updateEnv_at_rest (p : Params) {e : Env} (h : e.state = .idle ∨ e.state = .sustain) :
    updateEnv p e = e := by
  rcases h with h | h <;> simp [updateEnv, segmentOf, h]

/-! ## Counters -/

/-- A count read is neither older than the reader's last nor newer than the counter (R312). -/
theorem staleCount_between (raw : Nat) {last now : BitVec 32} (h : last.toNat ≤ now.toNat) :
    last.toNat ≤ (staleCount raw last now).toNat ∧ (staleCount raw last now).toNat ≤ now.toNat := by
  have hr : raw % (now.toNat - last.toNat + 1) < now.toNat - last.toNat + 1 :=
    Nat.mod_lt _ (by omega)
  have hn := now.isLt
  have : (staleCount raw last now).toNat = last.toNat + raw % (now.toNat - last.toNat + 1) := by
    simp only [staleCount, BitVec.toNat_ofNat]
    exact Nat.mod_eq_of_lt (by omega)
  omega

/-- Every value between the two can be read (R312). -/
theorem staleCount_reaches {last now v : BitVec 32} (h1 : last.toNat ≤ v.toNat)
    (h2 : v.toNat ≤ now.toNat) : staleCount (v.toNat - last.toNat) last now = v := by
  apply BitVec.eq_of_toNat_eq
  have hm : (v.toNat - last.toNat) % (now.toNat - last.toNat + 1) = v.toNat - last.toNat :=
    Nat.mod_eq_of_lt (by omega)
  have hv := v.isLt
  simp only [staleCount, hm, BitVec.toNat_ofNat]
  rw [show last.toNat + (v.toNat - last.toNat) = v.toNat by omega]
  exact Nat.mod_eq_of_lt hv

/-- A saturating increment never lowers a counter (10_state R42). -/
theorem satInc_ge (c : BitVec 32) : c.toNat ≤ (satInc c).toNat := by
  unfold satInc
  split
  · exact le_refl _
  · rename_i h
    have : c.toNat ≠ 4294967295 := fun he => h (BitVec.eq_of_toNat_eq (by simpa using he))
    have hc := c.isLt
    rw [BitVec.toNat_add, Nat.mod_eq_of_lt (by simp; omega)]
    omega

end Sys2Proof.Machine
end

