-- ==== Sys2Proof/Laws/Step.lean ====
section
/-!
SUPPORT. What a step can do: the inversion lemmas of `step` and of the agents' steps, so that no proof
unfolds them (00_scope R15, 46_sequencer_commands R261, R270, 60_exceptions R302).
-/

namespace Sys2Proof.Machine

/-! ## Taking the event touches only the agenda, the count and the turns -/

@[simp] theorem takeEvent_osc (s : State) : (takeEvent s).osc = s.osc := rfl
@[simp] theorem takeEvent_env (s : State) : (takeEvent s).env = s.env := rfl
@[simp] theorem takeEvent_met (s : State) : (takeEvent s).met = s.met := rfl
@[simp] theorem takeEvent_outQ (s : State) : (takeEvent s).outQ = s.outQ := rfl
@[simp] theorem takeEvent_vizQ (s : State) : (takeEvent s).vizQ = s.vizQ := rfl
@[simp] theorem takeEvent_cmdQ (s : State) : (takeEvent s).cmdQ = s.cmdQ := rfl
@[simp] theorem takeEvent_mem (s : State) : (takeEvent s).mem = s.mem := rfl
@[simp] theorem takeEvent_syn (s : State) : (takeEvent s).syn = s.syn := rfl
@[simp] theorem takeEvent_fftN (s : State) : (takeEvent s).fftN = s.fftN := rfl
@[simp] theorem takeEvent_ctr (s : State) : (takeEvent s).ctr = s.ctr := rfl
@[simp] theorem takeEvent_audSeen (s : State) : (takeEvent s).audSeen = s.audSeen := rfl
@[simp] theorem takeEvent_visSeen (s : State) : (takeEvent s).visSeen = s.visSeen := rfl
@[simp] theorem takeEvent_cfg (s : State) : (takeEvent s).cfg = s.cfg := rfl
@[simp] theorem takeEvent_aud (s : State) : (takeEvent s).aud = s.aud := rfl
@[simp] theorem takeEvent_port (s : State) : (takeEvent s).port = s.port := rfl
@[simp] theorem takeEvent_res (s : State) : (takeEvent s).res = s.res := rfl
@[simp] theorem takeEvent_draws (s : State) : (takeEvent s).draws = s.draws := rfl
@[simp] theorem takeEvent_agenda (s : State) : (takeEvent s).agenda = s.agenda.tail := rfl
@[simp] theorem takeEvent_ticks (s : State) : (takeEvent s).ticks = s.ticks + 1 := rfl
@[simp] theorem takeEvent_rota (s : State) : (takeEvent s).rota = nextRota s := rfl
@[simp] theorem takeEvent_cap (s : State) (q : QueueId) : (takeEvent s).cap q = s.cap q := rfl
@[simp] theorem takeEvent_cur (s : State) (q : QueueId) : (takeEvent s).cur q = s.cur q := by
  cases q <;> rfl

/-- The event of a state whose agenda is not empty. -/
@[simp] theorem nextEvent_of_agenda {s : State} {e : Event} {es : List Event}
    (h : s.agenda = e :: es) : nextEvent s = e := by
  simp [nextEvent, h]

/-! ## A step -/

/-- All that a step which answers a next state can do. -/
theorem step_next_cases {s t : State} (h : step s = .next t) :
    (∃ p, nextEvent s = .reset p ∧ t = resetWith p (takeEvent s)) ∨
    (s.cfg.fault = 0#8 ∧
      ((nextEvent s = .syn ∧ synStep (takeEvent s) = .next t) ∨
       (∃ q side d, nextEvent s = .sync q side d ∧ t = syncStep q side d (takeEvent s)) ∨
       (∃ a c ops, nextEvent s = .uop a c ops ∧
          presentInOrder a c ops (takeEvent s) = .next t) ∨
       (nextEvent s = .fillSlot ∧ s.aud.left ≠ 0 ∧ fillSlot (takeEvent s) = .ok t) ∨
       (nextEvent s = .fillSlot ∧ s.aud.left = 0 ∧ t = takeEvent s))) := by
  have held : ∀ r : Result, (if isHeld (takeEvent s) then .fault (.held (takeEvent s).cfg.fault)
      else r) = .next t → s.cfg.fault = 0#8 ∧ r = .next t := by
    intro r hr
    split at hr
    · cases hr
    · rename_i hh
      exact ⟨by_contra fun hc => hh (decide_eq_true hc), hr⟩
  unfold step runEvent at h
  cases he : nextEvent s with
  | reset p =>
    simp only [he] at h
    cases h
    exact .inl ⟨p, rfl, rfl⟩
  | syn =>
    simp only [he] at h
    obtain ⟨h0, h1⟩ := held _ h
    exact .inr ⟨h0, .inl ⟨rfl, h1⟩⟩
  | sync q side d =>
    simp only [he] at h
    obtain ⟨h0, h1⟩ := held _ h
    cases h1
    exact .inr ⟨h0, .inr (.inl ⟨q, side, d, rfl, rfl⟩)⟩
  | uop a c ops =>
    simp only [he] at h
    obtain ⟨h0, h1⟩ := held _ h
    exact .inr ⟨h0, .inr (.inr (.inl ⟨a, c, ops, rfl, h1⟩))⟩
  | fillSlot =>
    simp only [he] at h
    obtain ⟨h0, h1⟩ := held _ h
    simp only [runAgent] at h1
    split at h1
    · rename_i hb
      exact .inr ⟨h0, .inr (.inr (.inr (.inl ⟨rfl, of_decide_eq_true hb, (done_next_iff ..).mp h1⟩)))⟩
    · rename_i hb
      cases h1
      exact .inr ⟨h0, .inr (.inr (.inr (.inr ⟨rfl, not_not.mp fun h => hb (decide_eq_true h), rfl⟩)))⟩

/-- An agent's operation: AUD's next slot while it fills, else the operation its code selects. -/
theorem presentInOrder_next {a : Agent} {c : UopCode} {ops : Operands} {s t : State}
    (h : presentInOrder a c ops s = .next t) :
    (a = .aud ∧ audBusy s = true ∧
      fillSlot (s.withAgenda (.uop a c ops :: s.agenda)) = .ok t) ∨
    (∃ i, decodeUop c = .ok i ∧ exec i (s.withPort ⟨a, ops⟩) = .next t) := by
  unfold presentInOrder at h
  split at h
  · rename_i hb
    simp only [Bool.and_eq_true, decide_eq_true_eq] at hb
    exact .inl ⟨hb.1, hb.2, (done_next_iff ..).mp h⟩
  · unfold present at h
    split at h
    · rename_i i hi
      exact .inr ⟨i, hi, h⟩
    · cases h

/-- SYN in Drain: the drain ends, or one word is popped and executed (R261). -/
theorem drainStep_next {s t : State} (h : drainStep s = .next t) :
    (s.syn.drained = s.cfg.params.cmdCap ∧ t = endDrain s) ∨
    (s.syn.drained ≠ s.cfg.params.cmdCap ∧ ∃ u, tryPop .cmd s = .ok u ∧
      ((u.res.cmdQ.valid = false ∧ t = endDrain u) ∨
       (u.res.cmdQ.valid = true ∧
        executeWord u.res.cmdQ.data
          (u.withSyn { u.syn with drained := u.syn.drained + 1 }) = .next t))) := by
  unfold drainStep at h
  split at h
  · rename_i hd
    cases h
    exact .inl ⟨hd, rfl⟩
  · rename_i hd
    refine .inr ⟨hd, ?_⟩
    split at h
    · cases h
    · rename_i u hu
      refine ⟨u, hu, ?_⟩
      split at h
      · rename_i hv
        exact .inr ⟨hv, h⟩
      · rename_i hv
        cases h
        exact .inl ⟨by simpa using hv, rfl⟩

/-- EXECUTE: the command decoded, or nothing (R272). -/
theorem executeWord_next {w : CmdWord} {s t : State} (h : executeWord w s = .next t) :
    (∃ i, decodeCmd w = .ok i ∧ exec i s = .next t) ∨ (∃ e, decodeCmd w = .error e ∧ t = s) := by
  unfold executeWord at h
  split at h
  · rename_i i hi
    exact .inl ⟨i, hi, h⟩
  · rename_i e he
    cases h
    exact .inr ⟨e, he, rfl⟩

/-- The push on OUT inside a sample step (R270). -/
theorem genPushOut_ok {y : F} {s u : State} (h : genPushOut y s = .ok u) :
    ∃ t, tryPush .out (sampleElem y) s = .ok t ∧
      ((t.res.outQ.accepted = true ∧ u = t.withSyn { t.syn with stage := .pushViz y }) ∨
       (t.res.outQ.accepted = false ∧
        u = (t.withCtr { t.ctr with outDrops := satInc t.ctr.outDrops }).withSyn
          { t.syn with stage := .pushViz y })) := by
  unfold genPushOut at h
  split at h
  · cases h
  · rename_i t ht
    refine ⟨t, ht, ?_⟩
    cases hv : t.res.outQ.accepted with
    | true => left; simpa [hv] using h.symm
    | false => right; simpa [hv] using h.symm

/-- The push on VIZ and the end of a sample step (R270). -/
theorem genPushViz_ok {y : F} {s u : State} (h : genPushViz y s = .ok u) :
    ∃ t, tryPush .viz (sampleElem y) s = .ok t ∧
      ((t.res.vizQ.accepted = true ∧ u = t.withSyn (nextSlot t.cfg.params t.syn)) ∨
       (t.res.vizQ.accepted = false ∧
        u = (t.withCtr { t.ctr with vizDrops := satInc t.ctr.vizDrops }).withSyn
          (nextSlot t.cfg.params t.syn))) := by
  unfold genPushViz at h
  split at h
  · cases h
  · rename_i t ht
    refine ⟨t, ht, ?_⟩
    cases hv : t.res.vizQ.accepted with
    | true => left; simpa [hv] using h.symm
    | false => right; simpa [hv] using h.symm

/-- SYN in Gen: one of the three parts of the sample step (R270). -/
theorem genStep_next {s t : State} (h : genStep s = .next t) :
    (s.syn.stage = .compute ∧ t = genCompute s) ∨
    (∃ y, s.syn.stage = .pushOut y ∧ genPushOut y s = .ok t) ∨
    (∃ y, s.syn.stage = .pushViz y ∧ genPushViz y s = .ok t) := by
  unfold genStep at h
  split at h
  · rename_i hs
    cases h
    exact .inl ⟨hs, rfl⟩
  · rename_i y hs
    exact .inr (.inl ⟨y, hs, (done_next_iff ..).mp h⟩)
  · rename_i y hs
    exact .inr (.inr ⟨y, hs, (done_next_iff ..).mp h⟩)

end Sys2Proof.Machine
end

