-- ==== Sys2Proof/Laws/QueueStep.lean ====
section
/-!
SUPPORT. What one step can do to one queue, once for all steps (44_fifo R206 to R213).
-/

namespace Sys2Proof.Machine

/-- A change of one queue: none, one accepted push, one pop with data, or one move of a lagging copy. -/
inductive QueueMove (s t : State) (q : QueueId) : Prop where
  | none (hcur : t.cur q = s.cur q) (hmem : ∀ i, t.mem.get (.ring q) i = s.mem.get (.ring q) i)
  | push (v : Elem) (hfull : fullP (s.cap q) (s.cur q) = false)
      (hcur : t.cur q = { s.cur q with w := advance (s.cap q) (s.cur q).w 1 })
      (hnew : t.mem.get (.ring q) ((s.cur q).w % s.cap q) = some (v &&& elemMask (.ring q)))
      (hmem : ∀ i, i ≠ (s.cur q).w % s.cap q → t.mem.get (.ring q) i = s.mem.get (.ring q) i)
  | pop (e : Elem) (hempty : emptyC (s.cap q) (s.cur q) = false)
      (hdata : s.mem.get (.ring q) ((s.cur q).r % s.cap q) = some e)
      (hcur : t.cur q = { s.cur q with r := advance (s.cap q) (s.cur q).r 1 })
      (hmem : ∀ i, t.mem.get (.ring q) i = s.mem.get (.ring q) i)
  | sync (side : SyncSide) (d : Nat) (h1 : 1 ≤ d) (hd : d ≤ lagOf (s.cap q) (s.cur q) side)
      (hcur : t.cur q = moveCopy (s.cap q) (s.cur q) side d)
      (hmem : ∀ i, t.mem.get (.ring q) i = s.mem.get (.ring q) i)

/-- Two states hold the same queues: cursors, rings and parameters. -/
structure SameQueues (s t : State) : Prop where
  cur : ∀ q, t.cur q = s.cur q
  mem : ∀ q i, t.mem.get (.ring q) i = s.mem.get (.ring q) i
  cfg : t.cfg = s.cfg

theorem SameQueues.refl (s : State) : SameQueues s s := ⟨fun _ => rfl, fun _ _ => rfl, rfl⟩

theorem SameQueues.trans {s t u : State} (h : SameQueues s t) (h' : SameQueues t u) :
    SameQueues s u :=
  ⟨fun q => (h'.cur q).trans (h.cur q), fun q i => (h'.mem q i).trans (h.mem q i),
   h'.cfg.trans h.cfg⟩

theorem SameQueues.cap {s t : State} (h : SameQueues s t) (q : QueueId) : t.cap q = s.cap q := by
  unfold State.cap
  rw [h.cfg]

/-- A state that differs in no queue field has the same queues. -/
theorem SameQueues.of_fields {s t : State} (h1 : t.outQ = s.outQ) (h2 : t.vizQ = s.vizQ)
    (h3 : t.cmdQ = s.cmdQ) (h4 : t.mem = s.mem) (h5 : t.cfg = s.cfg) : SameQueues s t :=
  ⟨fun q => by cases q <;> assumption, fun _ _ => by rw [h4], h5⟩

theorem QueueMove.of_same {s t : State} (h : SameQueues s t) (q : QueueId) : QueueMove s t q :=
  .none (h.cur q) (h.mem q)

/-- A move between states with the same queues as others is a move between those. -/
theorem QueueMove.congr {s s' t t' : State} {q : QueueId} (hs : SameQueues s s')
    (ht : SameQueues t t') (h : QueueMove s' t q) : QueueMove s t' q := by
  have hcap := hs.cap q
  have hcur := hs.cur q
  have hmem := hs.mem q
  cases h with
  | none h1 h2 =>
    exact .none (by rw [ht.cur, h1, hcur]) (fun i => by rw [ht.mem, h2, hmem])
  | push v h1 h2 h3 h4 =>
    rw [hcap, hcur] at h1 h2 h3 h4
    exact .push v h1 (by rw [ht.cur, h2]) (by rw [ht.mem, h3])
      (fun i hi => by rw [ht.mem, h4 i hi, hmem])
  | pop e h1 h2 h3 h4 =>
    rw [hcap, hcur] at h1 h2 h3
    exact .pop e h1 (by rw [← hmem, h2]) (by rw [ht.cur, h3]) (fun i => by rw [ht.mem, h4, hmem])
  | sync side d h1 h2 h3 h4 =>
    rw [hcap, hcur] at h2 h3
    exact .sync side d h1 h2 (by rw [ht.cur, h3]) (fun i => by rw [ht.mem, h4, hmem])

theorem driveAccepted_same (q : QueueId) (b : Bool) (s : State) :
    SameQueues s (driveAccepted q b s) := .of_fields rfl rfl rfl rfl rfl

theorem drivePopped_same (q : QueueId) (b : Bool) (d : BitVec 40) (s : State) :
    SameQueues s (drivePopped q b d s) := .of_fields rfl rfl rfl rfl rfl

theorem takeEvent_same (s : State) : SameQueues s (takeEvent s) := .of_fields rfl rfl rfl rfl rfl

theorem cur_withCur_other {q r : QueueId} (h : r ≠ q) (s : State) (c : Cursors) :
    (s.withCur q c).cur r = s.cur r := by
  cases q <;> cases r <;> first | rfl | exact absurd rfl h

/-- Q.TRY_PUSH on a queue moves that queue by at most one push, and no other. -/
theorem tryPush_move {q : QueueId} {v : Elem} {s t : State} (h : tryPush q v s = .ok t)
    (r : QueueId) : QueueMove s t r ∧ t.cfg = s.cfg := by
  rcases tryPush_ok h with ⟨-, rfl⟩ | ⟨hf, -, rfl⟩
  · exact ⟨.of_same (driveAccepted_same ..) r, rfl⟩
  · refine ⟨.congr (.refl s) (driveAccepted_same ..) ?_, by simp⟩
    by_cases hr : r = q
    · subst hr
      refine .push v hf (by simp) (by simp) (fun i hi => ?_)
      rw [State.withCur_mem, State.withMem_mem]
      exact Memory.get_put_other _ _ (.inr hi)
    · refine .none (by rw [cur_withCur_other hr]; simp) (fun i => ?_)
      rw [State.withCur_mem, State.withMem_mem]
      exact Memory.get_put_other _ _ (.inl (by simpa using hr))

/-- Q.TRY_POP on a queue moves that queue by at most one pop, and no other. -/
theorem tryPop_move {q : QueueId} {s t : State} (h : tryPop q s = .ok t) (r : QueueId) :
    QueueMove s t r ∧ t.cfg = s.cfg := by
  rcases tryPop_ok h with ⟨-, rfl⟩ | ⟨e, hf, -, hg, rfl⟩
  · exact ⟨.of_same (by exact .of_fields rfl rfl rfl rfl rfl) r, rfl⟩
  · refine ⟨.congr (.refl s) (drivePopped_same ..) ?_, by simp⟩
    by_cases hr : r = q
    · subst hr
      exact .pop e hf hg (by simp) (fun i => by simp)
    · exact .none (by rw [cur_withCur_other hr]) (fun i => by simp)

/-- One slot of Q.FILL is one pop of OUT. -/
theorem fillSlot_move {s u : State} (h : fillSlot s = .ok u) (r : QueueId) :
    QueueMove s u r ∧ u.cfg = s.cfg := by
  obtain ⟨t, ht, ⟨-, rfl⟩ | ⟨-, rfl⟩⟩ := fillSlot_ok h
  · exact ⟨.congr (.refl s) (by exact .of_fields rfl rfl rfl rfl rfl) (tryPop_move ht r).1,
      (tryPop_move ht r).2⟩
  · exact ⟨.congr (.refl s) (by exact .of_fields rfl rfl rfl rfl rfl) (tryPop_move ht r).1,
      (tryPop_move ht r).2⟩

theorem noiseStep_same (s : State) : SameQueues s (noiseStep s) := by
  unfold noiseStep
  split <;> exact .of_fields rfl rfl rfl rfl rfl

theorem oscRun_same (s : State) : SameQueues s (oscRun s) := by
  obtain ⟨ph, y, h, -⟩ := oscRun_eq s
  rw [h]
  exact .of_fields rfl rfl rfl rfl rfl

theorem genCompute_same (s : State) : SameQueues s (genCompute s) := by
  unfold genCompute
  split
  · refine ((oscRun_same s).trans (noiseStep_same _)).trans ?_
    exact .of_fields rfl rfl rfl rfl rfl
  · exact .of_fields rfl rfl rfl rfl rfl

theorem setFrequency_same {f : F} {s t : State} (h : setFrequency f s = .next t) :
    SameQueues s t := by
  obtain ⟨-, rfl⟩ := setFrequency_next h
  exact .of_fields rfl rfl rfl rfl rfl

theorem setWaveType_same {w : BitVec 8} {d : F} {s t : State}
    (h : setWaveType w d s = .next t) : SameQueues s t := by
  rcases setWaveType_next h with ⟨-, rfl⟩ | ⟨-, -, rfl⟩ | ⟨k, -, -, rfl⟩
  · exact .refl _
  · exact .of_fields rfl rfl rfl rfl rfl
  · exact .of_fields rfl rfl rfl rfl rfl

/-- No instruction but Q.TRY_PUSH and Q.TRY_POP touches a queue. -/
theorem exec_same {i : Instr} {s t : State} (hpush : i ≠ .qTryPush) (hpop : i ≠ .qTryPop)
    (h : exec i s = .next t) : SameQueues s t := by
  cases i with
  | start a | stop a | pressed a | released a => cases h; exact .of_fields rfl rfl rfl rfl rfl
  | changeFrequency a => exact setFrequency_same h
  | changeOscillator a => exact setWaveType_same h
  | changeNoise a =>
    simp only [exec, execChangeNoise] at h
    split at h <;> cases h <;> exact .of_fields rfl rfl rfl rfl rfl
  | oscSetFrequency => exact setFrequency_same ((ifOwner_next_iff ..).mp h).2
  | oscSetWaveType => exact setWaveType_same ((ifOwner_next_iff ..).mp h).2
  | oscRun =>
    obtain ⟨-, h⟩ := (ifOwner_next_iff ..).mp h
    cases h
    exact oscRun_same s
  | noiseUniform | noiseGaussian | envPress | envRelease | envUpdate | metUpdate | tsAccent =>
    obtain ⟨-, h⟩ := (ifOwner_next_iff ..).mp h
    cases h
    exact .of_fields rfl rfl rfl rfl rfl
  | metGetBeatIndex | qFill =>
    obtain ⟨-, h⟩ := (ifOwner_next_iff ..).mp h
    split at h <;> cases h
    exact .of_fields rfl rfl rfl rfl rfl
  | qTryPush => exact absurd rfl hpush
  | qTryPop => exact absurd rfl hpop
  | fftTransform =>
    obtain ⟨-, h⟩ := (ifOwner_next_iff ..).mp h
    rcases transform_ok ((done_next_iff ..).mp h) with ⟨-, rfl⟩ | ⟨-, -, rfl⟩ |
      ⟨-, -, m, xs, hm, -, rfl⟩
    · exact .of_fields rfl rfl rfl rfl rfl
    · exact .of_fields rfl rfl rfl rfl rfl
    · exact ⟨fun r => by cases r <;> rfl, fun r j => hm.other _ _ (by simp) (by simp), rfl⟩
  | fftMag =>
    obtain ⟨-, h⟩ := (ifOwner_next_iff ..).mp h
    obtain ⟨es, -, rfl⟩ := magnitudes_ok ((done_next_iff ..).mp h)
    exact .of_fields rfl rfl rfl rfl rfl
  | ctrRead =>
    simp only [exec, execCtrRead] at h
    split at h
    · cases h
    · split at h <;> cases h <;> exact .of_fields rfl rfl rfl rfl rfl

/-- All that an instruction can do to a queue. -/
theorem exec_move {i : Instr} {s t : State} (h : exec i s = .next t) (q : QueueId) :
    QueueMove s t q ∧ t.cfg = s.cfg := by
  by_cases hpush : i = .qTryPush
  · subst hpush
    simp only [exec, execQTryPush] at h
    split at h
    · cases h
    · exact tryPush_move ((done_next_iff ..).mp ((ifOwner_next_iff ..).mp h).2) q
  by_cases hpop : i = .qTryPop
  · subst hpop
    simp only [exec, execQTryPop] at h
    split at h
    · cases h
    · exact tryPop_move ((done_next_iff ..).mp ((ifOwner_next_iff ..).mp h).2) q
  have hs := exec_same hpush hpop h
  exact ⟨.of_same hs q, hs.cfg⟩

/-- The commands touch no queue and drive no port. -/
theorem command_same {w : CmdWord} {i : Instr} {s t : State} (hd : decodeCmd w = .ok i)
    (h : exec i s = .next t) : SameQueues s t ∧ t.res = s.res := by
  have hs : SameQueues s t := by
    refine exec_same ?_ ?_ h <;> rintro rfl <;> unfold decodeCmd at hd <;> split at hd <;> cases hd
  refine ⟨hs, ?_⟩
  unfold decodeCmd at hd
  split at hd <;> first | (cases hd; done) | skip
  all_goals cases hd
  · cases h; rfl
  · cases h; rfl
  · obtain ⟨-, rfl⟩ := setFrequency_next h; rfl
  · rcases setWaveType_next h with ⟨-, rfl⟩ | ⟨-, -, rfl⟩ | ⟨k, -, -, rfl⟩ <;> rfl
  · simp only [exec, execChangeNoise] at h
    split at h <;> cases h <;> rfl
  · cases h; rfl
  · cases h; rfl

/-- All that a step of SYN can do to a queue. -/
theorem synStep_move {s t : State} (h : synStep s = .next t) (q : QueueId) :
    QueueMove s t q ∧ t.cfg = s.cfg := by
  unfold synStep at h
  split at h
  · rcases drainStep_next h with ⟨-, rfl⟩ | ⟨-, u, hu, ⟨-, rfl⟩ | ⟨-, hx⟩⟩
    · exact ⟨.of_same (by exact .of_fields rfl rfl rfl rfl rfl) q, rfl⟩
    · exact ⟨.congr (.refl s) (by exact .of_fields rfl rfl rfl rfl rfl) (tryPop_move hu q).1,
        (tryPop_move hu q).2⟩
    · have hsame : SameQueues u t := by
        rcases executeWord_next hx with ⟨i, hd, he⟩ | ⟨e, -, rfl⟩
        · exact SameQueues.trans (by exact .of_fields rfl rfl rfl rfl rfl) (command_same hd he).1
        · exact .of_fields rfl rfl rfl rfl rfl
      exact ⟨.congr (.refl s) hsame (tryPop_move hu q).1, hsame.cfg.trans (tryPop_move hu q).2⟩
  · rcases genStep_next h with ⟨-, rfl⟩ | ⟨y, -, hg⟩ | ⟨y, -, hg⟩
    · exact ⟨.of_same (genCompute_same s) q, (genCompute_same s).cfg⟩
    · obtain ⟨u, hu, ⟨-, rfl⟩ | ⟨-, rfl⟩⟩ := genPushOut_ok hg
      · exact ⟨.congr (.refl s) (by exact .of_fields rfl rfl rfl rfl rfl) (tryPush_move hu q).1,
          (tryPush_move hu q).2⟩
      · exact ⟨.congr (.refl s) (by exact .of_fields rfl rfl rfl rfl rfl) (tryPush_move hu q).1,
          (tryPush_move hu q).2⟩
    · obtain ⟨u, hu, ⟨-, rfl⟩ | ⟨-, rfl⟩⟩ := genPushViz_ok hg
      · exact ⟨.congr (.refl s) (by exact .of_fields rfl rfl rfl rfl rfl) (tryPush_move hu q).1,
          (tryPush_move hu q).2⟩
      · exact ⟨.congr (.refl s) (by exact .of_fields rfl rfl rfl rfl rfl) (tryPush_move hu q).1,
          (tryPush_move hu q).2⟩

/-- All that a step can do to a queue: a reset, or at most one move, with the parameters kept. -/
theorem step_move {s t : State} (h : step s = .next t) :
    (∃ p, nextEvent s = .reset p ∧ t = resetWith p (takeEvent s)) ∨
    (s.cfg.fault = 0#8 ∧ t.cfg = s.cfg ∧ ∀ q, QueueMove s t q) := by
  have lift : (∀ q, QueueMove (takeEvent s) t q ∧ t.cfg = (takeEvent s).cfg) →
      t.cfg = s.cfg ∧ ∀ q, QueueMove s t q := fun hm =>
    ⟨(hm .out).2, fun q => .congr (takeEvent_same s) (.refl t) (hm q).1⟩
  rcases step_next_cases h with hr | ⟨h0, hs⟩
  · exact .inl hr
  · refine .inr ⟨h0, lift fun q => ?_⟩
    rcases hs with ⟨-, hs⟩ | ⟨q', side, d, -, rfl⟩ | ⟨a, c, ops, -, hp⟩ | ⟨-, -, hf⟩ | ⟨-, -, rfl⟩
    · exact synStep_move hs q
    · rcases syncStep_cases q' side d (takeEvent s) with he | ⟨h1, h2, he⟩
      · rw [he]
        exact ⟨.of_same (.refl _) q, rfl⟩
      · rw [he]
        refine ⟨?_, by simp⟩
        by_cases hq : q = q'
        · subst hq
          exact .sync side d h1 h2 (by simp) (fun i => by simp)
        · exact .none (by rw [cur_withCur_other hq]) (fun i => by simp)
    · rcases presentInOrder_next hp with ⟨-, -, hf⟩ | ⟨i, -, he⟩
      · have := fillSlot_move hf q
        exact ⟨.congr (by exact .of_fields rfl rfl rfl rfl rfl) (.refl t) this.1, this.2⟩
      · have := exec_move he q
        exact ⟨.congr (by exact .of_fields rfl rfl rfl rfl rfl) (.refl t) this.1, this.2⟩
    · exact fillSlot_move hf q
    · exact ⟨.of_same (.refl _) q, rfl⟩

/-! ## What a move does to the elements not yet popped (20_memory R67) -/

/-- The slot after the last element is the one the write cursor names. -/
theorem slotIndex_occ {C : Nat} {c : Cursors} (h : CursorsOk C c) :
    slotIndex C c (occ C c) = c.w % C := by
  obtain ⟨h1, h2, -, -, -, -, -⟩ := h
  have e : advance C c.r (occ C c) = c.w := by
    unfold occ
    rw [modSub_eq h1 h2, advance_eq h2 (by split_ifs <;> omega)]
    split_ifs <;> omega
  unfold slotIndex
  rw [e]

/-- An accepted push writes no slot that holds an element. -/
theorem slotIndex_ne {C : Nat} {c : Cursors} (h : CursorsOk C c) (hf : fullP C c = false) {k : Nat}
    (hk : k < occ C c) : slotIndex C c k ≠ c.w % C := by
  rw [← slotIndex_occ h]
  have hocc : occ C c < C := by
    have := h.occ_le
    simp only [fullP, decide_eq_false_iff_not, not_le] at hf
    omega
  unfold slotIndex advance
  intro he
  rw [Nat.mod_mod_of_dvd _ (Dvd.intro_left 2 rfl), Nat.mod_mod_of_dvd _ (Dvd.intro_left 2 rfl)] at he
  have e : k % C = occ C c % C := Nat.ModEq.add_left_cancel' c.r he
  rw [Nat.mod_eq_of_lt (by omega), Nat.mod_eq_of_lt hocc] at e
  omega

/-- After a pop every element stands one slot nearer. -/
theorem slotIndex_pop {C : Nat} (c : Cursors) (k : Nat) :
    slotIndex C { c with r := advance C c.r 1 } k = slotIndex C c (k + 1) := by
  unfold slotIndex
  simp only
  rw [advance_advance, Nat.add_comm]

/-- The elements of two states with the same queues are the same. -/
theorem SameQueues.contents {s t : State} (h : SameQueues s t) (q : QueueId) :
    contents t q = contents s q := by
  simp only [Sys2Proof.Machine.contents, h.cap, h.cur, h.mem]

/-- An accepted push puts its element behind the others. -/
theorem contents_push {s t : State} {q : QueueId} {v : Elem} (hcap : t.cap q = s.cap q)
    (h : CursorsOk (s.cap q) (s.cur q)) (hfull : fullP (s.cap q) (s.cur q) = false)
    (hcur : t.cur q = { s.cur q with w := advance (s.cap q) (s.cur q).w 1 })
    (hnew : t.mem.get (.ring q) ((s.cur q).w % s.cap q) = some v)
    (hmem : ∀ i, i ≠ (s.cur q).w % s.cap q → t.mem.get (.ring q) i = s.mem.get (.ring q) i) :
    contents t q = contents s q ++ [some v] := by
  unfold contents
  rw [hcap, hcur, (h.push hfull).2, List.range_succ, List.map_append]
  congr 1
  · exact List.map_congr_left fun k hk => hmem _ (slotIndex_ne h hfull (List.mem_range.mp hk))
  · have e : slotIndex (s.cap q) { s.cur q with w := advance (s.cap q) (s.cur q).w 1 }
        (occ (s.cap q) (s.cur q)) = _ := slotIndex_occ h
    simp only [List.map_cons, List.map_nil, e, hnew]

/-- A pop with data takes the oldest element. -/
theorem contents_pop {s t : State} {q : QueueId} {e : Elem} (hcap : t.cap q = s.cap q)
    (h : CursorsOk (s.cap q) (s.cur q)) (hempty : emptyC (s.cap q) (s.cur q) = false)
    (hdata : s.mem.get (.ring q) ((s.cur q).r % s.cap q) = some e)
    (hcur : t.cur q = { s.cur q with r := advance (s.cap q) (s.cur q).r 1 })
    (hmem : ∀ i, t.mem.get (.ring q) i = s.mem.get (.ring q) i) :
    contents s q = some e :: contents t q := by
  unfold contents
  rw [hcap, hcur, (h.pop hempty).2, List.range_succ_eq_map, List.map_cons, List.map_map]
  congr 1
  · rw [← hdata]
    unfold slotIndex advance
    rw [Nat.add_zero, Nat.mod_eq_of_lt h.r_lt]
  · exact List.map_congr_left fun k _ => by simp only [Function.comp, hmem, slotIndex_pop]

/-- A SYNC step leaves the elements as they were. -/
theorem contents_sync {s t : State} {q : QueueId} {side : SyncSide} {d : Nat}
    (hcap : t.cap q = s.cap q) (hcur : t.cur q = moveCopy (s.cap q) (s.cur q) side d)
    (hmem : ∀ i, t.mem.get (.ring q) i = s.mem.get (.ring q) i) :
    contents t q = contents s q := by
  unfold contents
  rw [hcap, hcur]
  cases side <;> exact List.map_congr_left fun k _ => hmem _

/-! ## What a push and a pop do to the elements, and to the ports that say so -/

/-- Q.TRY_PUSH puts the element behind the others and drives `accepted`, or changes nothing and drives
its absence (R206, R207). -/
theorem tryPush_contents {q : QueueId} {v : Elem} {s t : State} (h : tryPush q v s = .ok t)
    (ho : CursorsOk (s.cap q) (s.cur q)) :
    ((t.res.queue q).accepted = true ∧
      contents t q = contents s q ++ [some (v &&& elemMask (.ring q))]) ∨
    ((t.res.queue q).accepted = false ∧ contents t q = contents s q) := by
  rcases tryPush_ok h with ⟨-, rfl⟩ | ⟨hf, -, rfl⟩
  · exact .inr ⟨by simp [driveAccepted], (driveAccepted_same ..).contents q⟩
  · refine .inl ⟨by simp [driveAccepted], ?_⟩
    rw [(driveAccepted_same ..).contents q]
    refine contents_push (by simp) ho hf (by simp) (by simp) (fun i hi => ?_)
    rw [State.withCur_mem, State.withMem_mem]
    exact Memory.get_put_other _ _ (.inr hi)

/-- Q.TRY_PUSH touches no other queue. -/
theorem tryPush_contents_other {q r : QueueId} {v : Elem} {s t : State} (h : tryPush q v s = .ok t)
    (hr : r ≠ q) : contents t r = contents s r := by
  rcases tryPush_ok h with ⟨-, rfl⟩ | ⟨hf, -, rfl⟩
  · exact (driveAccepted_same ..).contents r
  · simp only [contents, driveAccepted_cap, driveAccepted_cur, driveAccepted_mem, State.withCur_cap,
      State.withMem_cap, cur_withCur_other hr, State.withMem_cur, State.withCur_mem, State.withMem_mem]
    exact List.map_congr_left fun k _ => Memory.get_put_other _ _ (.inl (by simpa using hr))

/-- Q.TRY_POP takes the oldest element and drives it, or changes nothing and drives None (R208,
R209). -/
theorem tryPop_contents {q : QueueId} {s t : State} (h : tryPop q s = .ok t)
    (ho : CursorsOk (s.cap q) (s.cur q)) :
    (∃ e, (t.res.queue q).valid = true ∧ (t.res.queue q).data = e.setWidth 40 ∧
      contents s q = some e :: contents t q) ∨
    ((t.res.queue q).valid = false ∧ contents t q = contents s q) := by
  rcases tryPop_ok h with ⟨-, rfl⟩ | ⟨e, hf, -, hg, rfl⟩
  · exact .inr ⟨by simp [spendDraw, drivePopped],
      SameQueues.contents (by exact .of_fields rfl rfl rfl rfl rfl) q⟩
  · refine .inl ⟨e, by simp [drivePopped], by simp [drivePopped], ?_⟩
    rw [(drivePopped_same ..).contents q]
    exact contents_pop (by simp) ho hf hg (by simp) (by simp)

/-- Q.TRY_POP touches no other queue. -/
theorem tryPop_contents_other {q r : QueueId} {s t : State} (h : tryPop q s = .ok t) (hr : r ≠ q) :
    contents t r = contents s r := by
  rcases tryPop_ok h with ⟨-, rfl⟩ | ⟨e, -, -, -, rfl⟩
  · exact SameQueues.contents (by exact .of_fields rfl rfl rfl rfl rfl) r
  · simp only [contents, drivePopped_cap, drivePopped_cur, drivePopped_mem, State.withCur_cap,
      cur_withCur_other hr, State.withCur_mem]

end Sys2Proof.Machine
end

