-- ==== Sys2Proof/Laws/Schedule.lean ====
section
/-!
SUPPORT. What a step does to the schedule, and what a run does with it: the agenda empties, and every
SYNC agent gets its turn (00_scope R15, 20_memory R66 (d); entry 20).
-/

namespace Sys2Proof.Machine

/-- Two states with the same agenda and the same turns. -/
structure SameSchedule (s t : State) : Prop where
  agenda : t.agenda = s.agenda
  rota : t.rota = s.rota

theorem SameSchedule.trans {s t u : State} (h : SameSchedule s t) (h' : SameSchedule t u) :
    SameSchedule s u := ⟨h'.agenda.trans h.agenda, h'.rota.trans h.rota⟩

theorem tryPush_schedule {q : QueueId} {v : Elem} {s t : State} (h : tryPush q v s = .ok t) :
    SameSchedule s t := by
  rcases tryPush_ok h with ⟨-, rfl⟩ | ⟨-, -, rfl⟩ <;> exact ⟨by simp, by simp⟩

theorem tryPop_schedule {q : QueueId} {s t : State} (h : tryPop q s = .ok t) :
    SameSchedule s t ∧ t.aud = s.aud := by
  rcases tryPop_ok h with ⟨-, rfl⟩ | ⟨e, -, -, -, rfl⟩ <;> exact ⟨⟨by simp, by simp⟩, by simp⟩

/-- A slot of Q.FILL keeps the schedule and leaves one slot fewer to do. -/
theorem fillSlot_schedule {s t : State} (h : fillSlot s = .ok t) :
    SameSchedule s t ∧ t.aud.left = s.aud.left - 1 := by
  obtain ⟨u, hu, ⟨-, rfl⟩ | ⟨-, rfl⟩⟩ := fillSlot_ok h
  · exact ⟨⟨(tryPop_schedule hu).1.agenda, (tryPop_schedule hu).1.rota⟩, by
      simp [(tryPop_schedule hu).2]⟩
  · exact ⟨⟨(tryPop_schedule hu).1.agenda, (tryPop_schedule hu).1.rota⟩, by
      simp [(tryPop_schedule hu).2]⟩

theorem setFrequency_schedule {f : F} {s t : State} (h : setFrequency f s = .next t) :
    SameSchedule s t := by
  obtain ⟨-, rfl⟩ := setFrequency_next h
  exact ⟨rfl, rfl⟩

theorem setWaveType_schedule {w : BitVec 8} {d : F} {s t : State}
    (h : setWaveType w d s = .next t) : SameSchedule s t := by
  rcases setWaveType_next h with ⟨-, rfl⟩ | ⟨-, -, rfl⟩ | ⟨k, -, -, rfl⟩ <;> exact ⟨rfl, rfl⟩

theorem oscRun_schedule (s : State) : SameSchedule s (oscRun s) := by
  obtain ⟨ph, y, h, -⟩ := oscRun_eq s
  rw [h]
  exact ⟨rfl, rfl⟩

theorem noiseStep_schedule (s : State) : SameSchedule s (noiseStep s) := by
  unfold noiseStep
  split <;> exact ⟨rfl, rfl⟩

/-- No instruction touches the schedule. -/
theorem exec_schedule {i : Instr} {s t : State} (h : exec i s = .next t) : SameSchedule s t := by
  cases i with
  | start a => cases h; exact ⟨rfl, rfl⟩
  | stop a => cases h; exact ⟨rfl, rfl⟩
  | changeFrequency a => exact setFrequency_schedule h
  | changeOscillator a => exact setWaveType_schedule h
  | changeNoise a =>
    simp only [exec, execChangeNoise] at h
    split at h <;> cases h <;> exact ⟨rfl, rfl⟩
  | pressed a => cases h; exact ⟨rfl, rfl⟩
  | released a => cases h; exact ⟨rfl, rfl⟩
  | oscSetFrequency => exact setFrequency_schedule ((ifOwner_next_iff ..).mp h).2
  | oscSetWaveType => exact setWaveType_schedule ((ifOwner_next_iff ..).mp h).2
  | oscRun =>
    obtain ⟨-, h⟩ := (ifOwner_next_iff ..).mp h
    cases h
    exact oscRun_schedule s
  | noiseUniform | noiseGaussian | envPress | envRelease | envUpdate | metUpdate | tsAccent =>
    obtain ⟨-, h⟩ := (ifOwner_next_iff ..).mp h
    cases h
    exact ⟨rfl, rfl⟩
  | metGetBeatIndex =>
    obtain ⟨-, h⟩ := (ifOwner_next_iff ..).mp h
    split at h <;> cases h
    exact ⟨rfl, rfl⟩
  | qTryPush =>
    simp only [exec, execQTryPush] at h
    split at h
    · cases h
    · exact tryPush_schedule ((done_next_iff ..).mp ((ifOwner_next_iff ..).mp h).2)
  | qTryPop =>
    simp only [exec, execQTryPop] at h
    split at h
    · cases h
    · exact (tryPop_schedule ((done_next_iff ..).mp ((ifOwner_next_iff ..).mp h).2)).1
  | qFill =>
    obtain ⟨-, h⟩ := (ifOwner_next_iff ..).mp h
    split at h <;> cases h
    exact ⟨rfl, rfl⟩
  | fftTransform =>
    obtain ⟨-, h⟩ := (ifOwner_next_iff ..).mp h
    rcases transform_ok ((done_next_iff ..).mp h) with ⟨-, rfl⟩ | ⟨-, -, rfl⟩ |
      ⟨-, -, m, xs, -, -, rfl⟩ <;> exact ⟨rfl, rfl⟩
  | fftMag =>
    obtain ⟨-, h⟩ := (ifOwner_next_iff ..).mp h
    obtain ⟨es, -, rfl⟩ := magnitudes_ok ((done_next_iff ..).mp h)
    exact ⟨rfl, rfl⟩
  | ctrRead =>
    simp only [exec, execCtrRead] at h
    split at h
    · cases h
    · split at h <;> cases h <;> exact ⟨rfl, rfl⟩

/-- No step of SYN touches the schedule. -/
theorem synStep_schedule {s t : State} (h : synStep s = .next t) : SameSchedule s t := by
  unfold synStep at h
  split at h
  · rcases drainStep_next h with ⟨-, rfl⟩ | ⟨-, u, hu, ⟨-, rfl⟩ | ⟨-, hx⟩⟩
    · exact ⟨rfl, rfl⟩
    · exact (tryPop_schedule hu).1.trans ⟨rfl, rfl⟩
    · refine (tryPop_schedule hu).1.trans ?_
      rcases executeWord_next hx with ⟨i, -, he⟩ | ⟨e, -, rfl⟩
      · exact ⟨(exec_schedule he).agenda, (exec_schedule he).rota⟩
      · exact ⟨rfl, rfl⟩
  · rcases genStep_next h with ⟨-, rfl⟩ | ⟨y, -, hg⟩ | ⟨y, -, hg⟩
    · unfold genCompute
      split
      · exact ((oscRun_schedule s).trans (noiseStep_schedule _)).trans ⟨rfl, rfl⟩
      · exact ⟨rfl, rfl⟩
    · obtain ⟨u, hu, ⟨-, rfl⟩ | ⟨-, rfl⟩⟩ := genPushOut_ok hg <;>
        exact (tryPush_schedule hu).trans ⟨rfl, rfl⟩
    · obtain ⟨u, hu, ⟨-, rfl⟩ | ⟨-, rfl⟩⟩ := genPushViz_ok hg <;>
        exact (tryPush_schedule hu).trans ⟨rfl, rfl⟩

/-- All that a step does to the schedule: the turns go on as the event asks, and the event is gone from
the agenda, unless it is an operation of AUD that waits for a slot of its fill. -/
theorem step_schedule {s t : State} (h : step s = .next t) :
    t.rota = nextRota s ∧
    (t.agenda = s.agenda.tail ∨
     (t.agenda = nextEvent s :: s.agenda.tail ∧ t.aud.left < s.aud.left)) := by
  have same : SameSchedule (takeEvent s) t → t.rota = nextRota s ∧ (t.agenda = s.agenda.tail ∨
      (t.agenda = nextEvent s :: s.agenda.tail ∧ t.aud.left < s.aud.left)) := fun hs =>
    ⟨hs.rota, .inl hs.agenda⟩
  rcases step_next_cases h with ⟨p, -, rfl⟩ | ⟨-, hs⟩
  · rw [resetWith_eq]
    exact ⟨rfl, .inl rfl⟩
  · rcases hs with ⟨-, hs⟩ | ⟨q, side, d, -, rfl⟩ | ⟨a, c, ops, he, hp⟩ | ⟨-, -, hf⟩ | ⟨-, -, rfl⟩
    · exact same (synStep_schedule hs)
    · refine same ?_
      rcases syncStep_cases q side d (takeEvent s) with hc | ⟨-, -, hc⟩ <;> rw [hc] <;>
        exact ⟨by simp, by simp⟩
    · rcases presentInOrder_next hp with ⟨rfl, hb, hf⟩ | ⟨i, -, hx⟩
      · obtain ⟨hs, hl⟩ := fillSlot_schedule hf
        have hb : s.aud.left ≠ 0 := of_decide_eq_true hb
        have hl : t.aud.left = s.aud.left - 1 := hl
        exact ⟨hs.rota, .inr ⟨by rw [he]; exact hs.agenda, by omega⟩⟩
      · exact same ⟨(exec_schedule hx).agenda, (exec_schedule hx).rota⟩
    · exact same (fillSlot_schedule hf).1
    · exact same ⟨rfl, rfl⟩

/-- The state with an event put first on the agenda, in place of the one that stands there. -/
def putFirst (e : Event) (s : State) : State :=
  ((takeEvent s).withAgenda (e :: s.agenda.tail)).withTicks s.ticks

theorem nextEvent_putFirst (e : Event) (s : State) : nextEvent (putFirst e s) = e :=
  nextEvent_of_agenda (es := s.agenda.tail) rfl

theorem takeEvent_putFirst (e : Event) (s : State) : takeEvent (putFirst e s) = takeEvent s := by
  have h : nextRota (putFirst e s) = nextRota s := by
    simp only [nextRota, putFirst, State.withTicks_agenda, State.withAgenda_agenda,
      State.withTicks_rota, State.withAgenda_rota, takeEvent_rota]
  rw [takeEvent, h]
  simp only [putFirst, takeEvent, State.withAgenda, State.withTicks, State.withRota, List.tail_cons]

theorem putFirst_same (e : Event) (s : State) : SameQueues s (putFirst e s) := by
  apply SameQueues.of_fields <;> simp [putFirst]

/-- An event under any schedule does what a step does where it stands first on the agenda. -/
theorem step_putFirst (e : Event) (s : State) :
    step (putFirst e s) = runEvent e (takeEvent s) := by
  rw [step, nextEvent_putFirst, takeEvent_putFirst]

/-- All that an event under any schedule can do to a queue. -/
theorem runEvent_move {e : Event} {s t : State} (h : runEvent e (takeEvent s) = .next t) :
    (∃ p, e = .reset p ∧ t = resetWith p (takeEvent s)) ∨
    (s.cfg.fault = 0#8 ∧ t.cfg = s.cfg ∧ ∀ q, QueueMove s t q) := by
  have hs := putFirst_same e s
  rcases step_move ((step_putFirst e s).trans h) with ⟨p, hp, hr⟩ | ⟨h0, hc, hm⟩
  · rw [nextEvent_putFirst] at hp
    rw [takeEvent_putFirst] at hr
    exact .inl ⟨p, hp, hr⟩
  · rw [hs.cfg] at h0 hc
    exact .inr ⟨h0, hc, fun q => .congr hs (.refl t) (hm q)⟩

/-- What happens next does not depend on SYN's own registers (60_exceptions R321). -/
theorem nextEvent_withUnits (s : State) (u : SynUnits) :
    nextEvent (s.withUnits u) = nextEvent s := by
  have hcur : ∀ q, (s.withUnits u).cur q = s.cur q := fun q => by cases q <;> rfl
  unfold nextEvent openEvent turnDraw
  rw [hcur]
  rfl

theorem takeEvent_withUnits (s : State) (u : SynUnits) :
    takeEvent (s.withUnits u) = (takeEvent s).withUnits u := rfl

/-! ## Runs -/

/-- From every step of a run on, the agenda is empty at some later one, and the turns have not gone on
before it. -/
theorem run_empties_agenda {σ : Nat → State} (hσ : ∀ n, step (σ n) = .next (σ (n + 1))) (n : Nat) :
    ∃ m ≥ n, (σ m).agenda = [] ∧ (σ m).rota = (σ n).rota := by
  suffices H : ∀ len left n, (σ n).agenda.length = len → (σ n).aud.left = left →
      ∃ m ≥ n, (σ m).agenda = [] ∧ (σ m).rota = (σ n).rota from H _ _ n rfl rfl
  intro len
  induction len with
  | zero => exact fun _ n hlen _ => ⟨n, le_rfl, List.length_eq_zero_iff.mp hlen, rfl⟩
  | succ len ih =>
    intro left
    induction left using Nat.strong_induction_on with
    | _ left ihl =>
      intro n hlen hleft
      cases ha : (σ n).agenda with
      | nil => exact ⟨n, le_rfl, ha, rfl⟩
      | cons e es =>
        obtain ⟨hr, hag⟩ := step_schedule (hσ n)
        have hr : (σ (n + 1)).rota = (σ n).rota := by rw [hr, nextRota, ha]
        rw [ha] at hlen hag
        have hlen : es.length = len := by simpa using hlen
        rcases hag with hag | ⟨hag, hlt⟩
        · obtain ⟨m, hm, h1, h2⟩ := ih _ (n + 1) (by rw [hag]; exact hlen) rfl
          exact ⟨m, by omega, h1, h2.trans hr⟩
        · obtain ⟨m, hm, h1, h2⟩ :=
            ihl _ (hleft ▸ hlt) (n + 1) (by rw [hag]; simp [hlen]) rfl
          exact ⟨m, by omega, h1, h2.trans hr⟩

/-- From every step of a run on, the turn that stands next comes. -/
theorem run_reaches_turn {σ : Nat → State} (hσ : ∀ n, step (σ n) = .next (σ (n + 1))) (n : Nat) :
    ∃ m ≥ n, (σ m).agenda = [] ∧ (σ m).rota = ⟨0, (σ n).rota.turn⟩ := by
  suffices H : ∀ w n, (σ n).rota.wait = w →
      ∃ m ≥ n, (σ m).agenda = [] ∧ (σ m).rota = ⟨0, (σ n).rota.turn⟩ from H _ n rfl
  intro w
  induction w with
  | zero =>
    intro n hw
    obtain ⟨m, hm, ha, hr⟩ := run_empties_agenda hσ n
    exact ⟨m, hm, ha, by rw [hr, ← hw]⟩
  | succ w ih =>
    intro n hw
    obtain ⟨m, hm, ha, hr⟩ := run_empties_agenda hσ n
    have h1 : (σ (m + 1)).rota = ⟨w, (σ n).rota.turn⟩ := by
      rw [(step_schedule (hσ m)).1]
      simp only [nextRota, ha, rotaAfter, hr, hw]
      simp
    obtain ⟨k, hk, ha', hr'⟩ := ih (m + 1) (by rw [h1])
    exact ⟨k, by omega, ha', by rw [hr', h1]⟩

/-- The six turns come round: from each SYNC agent every other is reached. -/
theorem syncAfter_reaches (a b : SyncAgent) : ∃ k, syncAfter^[k] a = b := by
  rcases a with ⟨qa, sa⟩
  rcases b with ⟨qb, sb⟩
  have h : ∃ k < 6, syncAfter^[k] ⟨qa, sa⟩ = ⟨qb, sb⟩ := by
    cases qa <;> cases sa <;> cases qb <;> cases sb <;> decide
  obtain ⟨k, -, hk⟩ := h
  exact ⟨k, hk⟩

/-- From every step of a run on, every SYNC agent gets a turn. -/
theorem run_gives_turn {σ : Nat → State} (hσ : ∀ n, step (σ n) = .next (σ (n + 1))) (n : Nat) (a : SyncAgent) :
    ∃ m ≥ n, (σ m).agenda = [] ∧ (σ m).rota = ⟨0, a⟩ := by
  suffices H : ∀ k n, syncAfter^[k] (σ n).rota.turn = a →
      ∃ m ≥ n, (σ m).agenda = [] ∧ (σ m).rota = ⟨0, a⟩ by
    obtain ⟨k, hk⟩ := syncAfter_reaches (σ n).rota.turn a
    exact H k n hk
  intro k
  induction k with
  | zero =>
    intro n hk
    obtain ⟨m, hm, ha, hr⟩ := run_reaches_turn hσ n
    exact ⟨m, hm, ha, by rw [hr]; exact congrArg _ hk⟩
  | succ k ih =>
    intro n hk
    obtain ⟨m, hm, ha, hr⟩ := run_reaches_turn hσ n
    have h1 : (σ (m + 1)).rota.turn = syncAfter (σ n).rota.turn := by
      rw [(step_schedule (hσ m)).1]
      simp only [nextRota, ha, rotaAfter, hr]
      simp
    obtain ⟨j, hj, ha', hr'⟩ := ih (m + 1) (by rw [h1]; exact hk)
    exact ⟨j, by omega, ha', hr'⟩

/-- At its turn a SYNC agent whose copy lags takes a step that its rule admits. -/
theorem turn_is_taken {s : State} {q : QueueId} {side : SyncSide} (ha : s.agenda = [])
    (hr : s.rota = ⟨0, ⟨q, side⟩⟩) (hl : 0 < lagOf (s.cap q) (s.cur q) side) :
    SyncTaken (nextEvent s) s q side := by
  refine ⟨turnDraw ⟨q, side⟩ s, by simp [nextEvent, openEvent, ha, hr], by simp [turnDraw], ?_⟩
  have := Nat.mod_lt (Config.syncDraw s.ticks) hl
  simp only [turnDraw]
  omega

end Sys2Proof.Machine
end

