-- ==== Sys2Proof/Tests/Slice0.lean ====
section
/-!
SUPPORT. Tests. Expected results are taken from spec/: the encodings of 30_encoding, the examples of
the rules and the vectors of 95_test_vectors, named in each theorem's docstring. The last part shows,
for every obligation with hypotheses, states and operands that meet them.
-/

namespace Sys2Proof.Tests

-- One test at a time: tests that wait for the kernel each hold a thread, and the package is compiled as
-- one text under a memory limit.
set_option Elab.async false
open Sys2Proof Sys2Proof.Machine

/-! ## Well-formed instructions (30_encoding R93) -/

theorem test_wf_start : (Instr.start 0#32).wf = true := by decide
theorem test_wf_refuses_start_arg : (Instr.start 1#32).wf = false := by decide
theorem test_wf_refuses_stop_arg : (Instr.stop 0x80000000#32).wf = false := by decide
theorem test_wf_frequency : (Instr.changeFrequency 0xFFFFFFFF#32).wf = true := by decide
theorem test_wf_oscillator : (Instr.changeOscillator 0xFF#32).wf = true := by decide
theorem test_wf_refuses_oscillator_bit8 : (Instr.changeOscillator 0x100#32).wf = false := by decide
theorem test_wf_refuses_noise_bit8 : (Instr.changeNoise 0x102#32).wf = false := by decide
theorem test_wf_refuses_pressed_arg : (Instr.pressed 1#32).wf = false := by decide
theorem test_wf_refuses_released_arg : (Instr.released 2#32).wf = false := by decide
theorem test_wf_uop : Instr.ctrRead.wf = true := by decide

/-! ## Decoding: words written from 30_encoding R90 to R97 -/

theorem test_decode_start : decodeCmd 0x0000000000#40 = .ok (.start 0#32) := by decide
theorem test_decode_stop : decodeCmd 0x0100000000#40 = .ok (.stop 0#32) := by decide
/-- 30_encoding R103: `CHANGE_FREQUENCY 440.0` has `arg = 0x43DC0000`. -/
theorem test_decode_changeFrequency :
    decodeCmd 0x0243DC0000#40 = .ok (.changeFrequency 0x43DC0000#32) := by decide
theorem test_decode_changeOscillator :
    decodeCmd 0x0300000002#40 = .ok (.changeOscillator 2#32) := by decide
theorem test_decode_changeNoise : decodeCmd 0x0400000001#40 = .ok (.changeNoise 1#32) := by decide
theorem test_decode_pressed : decodeCmd 0x0500000000#40 = .ok (.pressed 0#32) := by decide
theorem test_decode_released : decodeCmd 0x0600000000#40 = .ok (.released 0#32) := by decide
theorem test_decode_unknown_07 : decodeCmd 0x0700000000#40 = .error (.unknownCommand 0x07#8) := by
  decide
theorem test_decode_unknown_FF : decodeCmd 0xFF12345678#40 = .error (.unknownCommand 0xFF#8) := by
  decide
theorem test_decode_oscSetFrequency : decodeUop 0b00000000#8 = .ok .oscSetFrequency := by decide
theorem test_decode_oscSetWaveType : decodeUop 0b00000001#8 = .ok .oscSetWaveType := by decide
theorem test_decode_oscRun : decodeUop 0b00000010#8 = .ok .oscRun := by decide
theorem test_decode_noiseUniform : decodeUop 0b00010000#8 = .ok .noiseUniform := by decide
theorem test_decode_noiseGaussian : decodeUop 0b00010001#8 = .ok .noiseGaussian := by decide
theorem test_decode_envPress : decodeUop 0b00100000#8 = .ok .envPress := by decide
theorem test_decode_envRelease : decodeUop 0b00100001#8 = .ok .envRelease := by decide
theorem test_decode_envUpdate : decodeUop 0b00100010#8 = .ok .envUpdate := by decide
theorem test_decode_metUpdate : decodeUop 0b00110000#8 = .ok .metUpdate := by decide
theorem test_decode_metGetBeatIndex : decodeUop 0b00110001#8 = .ok .metGetBeatIndex := by decide
theorem test_decode_tsAccent : decodeUop 0b00110010#8 = .ok .tsAccent := by decide
theorem test_decode_qTryPush : decodeUop 0b01000000#8 = .ok .qTryPush := by decide
theorem test_decode_qTryPop : decodeUop 0b01000001#8 = .ok .qTryPop := by decide
theorem test_decode_qFill : decodeUop 0b01000010#8 = .ok .qFill := by decide
theorem test_decode_fftTransform : decodeUop 0b01010000#8 = .ok .fftTransform := by decide
theorem test_decode_fftMag : decodeUop 0b01010001#8 = .ok .fftMag := by decide
theorem test_decode_ctrRead : decodeUop 0b01100000#8 = .ok .ctrRead := by decide
theorem test_decode_reserved_03 : decodeUop 0x03#8 = .error (.reservedCode 0x03#8) := by decide
theorem test_decode_reserved_70 : decodeUop 0x70#8 = .error (.reservedCode 0x70#8) := by decide

/-- The opcode table's numbering: a command word is 40 bits, a code 8. -/
theorem test_tableWord : decodeTableWord 40 0x0243DC0000 = some (.changeFrequency 0x43DC0000#32) ∧
    decodeTableWord 8 0x42 = some .qFill ∧ decodeTableWord 8 0x7F = none ∧
    decodeTableWord 16 0 = none := by decide

/-! ## Helpers -/

/-- The reset state with an agent's operands on the ports. -/
def at' (a : Agent) (ops : Operands) : State := State.reset.withPort ⟨a, ops⟩

/-- The reset state with one event to come. -/
def on (e : Event) : State := State.reset.withAgenda [e]

/-- The reset state in Gen at a place of the sample step, SYN next. -/
def gen (running : Bool) (stage : GenStage) : State :=
  (State.reset.withAgenda [.syn]).withSyn
    { State.reset.syn with phase := .gen, running := running, stage := stage }

/-- A START command in CMD, visible to SYN, which takes the next step. -/
def withStart : State := State.reset.withFetchWord 40 0x0000000000

/-- One sample (1.5) in OUT, visible to AUD, with a fill of two slots in progress. -/
def withSample : State :=
  ((((State.reset.withMem (State.reset.mem.put (.ring .out) 0 0x3FC00000#64)).withCur .out
    ⟨1, 0, 1, 0⟩).withAud ⟨2, []⟩).withAgenda [.fillSlot, .fillSlot, .syn])

/-- Two complex values in `fft.A` as the result of a transform of length 2. -/
def withBins : State :=
  ((at' .vis {}).withFftN 2).withMem
    ((State.reset.mem.put .fftA 0 0x3F80000000000000#64).put .fftA 1 0#64)

/-- What a result holds. -/
def holds (r : Result) (p : State → Bool) : Bool :=
  match r with
  | .next t => p t
  | .fault _ => false
  | .refused _ => false

/-! ## Floats (00_scope R10; the sums are worked by hand) -/

theorem test_fadd_rounds_even : fadd 0x4B800000#32 0x3F800000#32 = 0x4B800000#32 := by
  decide +kernel
theorem test_fsub_cancels : fsub 0x3F800000#32 0x3F800000#32 = 0x00000000#32 := by decide +kernel
theorem test_fmul_neg : fmul 0xC0800000#32 0x00000000#32 = 0x80000000#32 := by decide +kernel
/-- 70_reset_and_hazards R346: 440 Hz at 44100 Hz has the increment `0x3C2377EE`. -/
theorem test_fdiv_increment : fdiv 0x43DC0000#32 0x472C4400#32 = 0x3C2377EE#32 := by decide +kernel
theorem test_feq_zeros : feq 0x00000000#32 0x80000000#32 = true := by decide
theorem test_nan_compares_false : fge 0x7FC00000#32 0x7FC00000#32 = false := by decide

/-! ## Commands (46_sequencer_commands R263 to R269) -/

theorem test_start_runs : holds (step withStart) (fun t => t.syn.running && t.syn.drained == 1) =
    true := by decide +kernel
theorem test_unknown_changes_nothing : holds (step (State.reset.withFetchWord 40 0x07FFFFFFFF))
    (fun t => t.syn == { State.reset.syn with drained := 1 } && t.osc == State.reset.osc) =
    true := by decide +kernel
theorem test_changeFrequency_refuses_minus_one :
    exec (.changeFrequency 0xBF800000#32) State.reset = .refused (.badFrequency 0xBF800000#32) := by
  rfl
theorem test_changeOscillator_unknown : exec (.changeOscillator 5#32) State.reset =
    .next State.reset := by rfl
theorem test_changeOscillator_ignores_high_bits : holds (exec (.changeOscillator 0xFFFFFF01#32)
    State.reset) (fun t => t.osc.waveType == .sawtooth) = true := by decide
theorem test_changeNoise_gaussian : holds (exec (.changeNoise 2#32) State.reset)
    (fun t => t.syn.noiseSel == .gaussian) = true := by decide

/-! ## The first instruction after reset -/

theorem test_fetch_operations : ∀ c ∈ [0x00, 0x01, 0x02, 0x10, 0x11, 0x20, 0x21, 0x22, 0x30, 0x31, 0x32,
    0x40, 0x41, 0x42, 0x50, 0x51, 0x60],
    holds (step (State.reset.withFetchWord 8 c)) (fun _ => true) = true := by decide +kernel
theorem test_fetch_commands : ∀ w ∈ [0x0000000000, 0x0100000000, 0x0200000000, 0x0300000000,
    0x0400000000, 0x0500000000, 0x0600000000],
    holds (step (State.reset.withFetchWord 40 w)) (fun t => t.syn.drained == 1) = true := by
  decide +kernel

/-! ## Oscillator (40_oscillator) -/

/-- R122's example: OSC.SET_WAVE_TYPE(2, 1.5) leaves the duty 1.0. -/
theorem test_duty_clamped : holds (exec .oscSetWaveType (at' .syn { w := 2#8, d := 0x3FC00000#32 }))
    (fun t => t.osc.waveType == .square && t.osc.duty == 0x3F800000#32) = true := by decide
/-- R123's example: Sawtooth, 11025 Hz at 44100 Hz, from phase 0: `-1.0`, phase 0.25. -/
theorem test_sawtooth_first : holds (exec .oscRun ((at' .syn {}).withOsc
    ⟨0x462C4400#32, .sawtooth, 0x3F000000#32, 0x00000000#32⟩))
    (fun t => t.res.oscSample == 0xBF800000#32 && t.osc.phase == 0x3E800000#32) = true := by
  decide +kernel
/-- R129's example: phase 0.75 and increment 0.25 wrap to 0.0. -/
theorem test_phase_wraps : holds (exec .oscRun ((at' .syn {}).withOsc
    ⟨0x462C4400#32, .triangle, 0x3F000000#32, 0x3F400000#32⟩))
    (fun t => t.res.oscSample == 0x00000000#32 && t.osc.phase == 0x00000000#32) = true := by
  decide +kernel
/-- R125's corner case: FastSine at phase 0 is `-0.0`. -/
theorem test_fastSine_zero : fastSineWave 0x00000000#32 = 0x80000000#32 := by decide +kernel
/-- R125: the parabola reaches `-1` at phase 0.25. -/
theorem test_fastSine_quarter : fastSineWave 0x3E800000#32 = 0xBF800000#32 := by decide +kernel
/-- R130: silence at frequency `-0.0`. -/
theorem test_zero_frequency_silent : holds (exec .oscRun ((at' .syn {}).withOsc
    ⟨0x80000000#32, .sawtooth, 0x3F000000#32, 0x3F000000#32⟩))
    (fun t => t.res.oscSample == 0x00000000#32 && t.osc.phase == 0x3F000000#32) = true := by
  decide +kernel

/-! ## Envelope (42_envelope), parameter set G: ATTACK 4, DECAY 2, RELEASE 4, SUSTAIN 0.5 -/

/-- R163's example: `(Release, 0.375, 1.0)` becomes `(Attack, 0.375, 1.5)`. -/
theorem test_press_sounding : holds (exec (.pressed 0#32) (State.reset.withEnv
    ⟨.release, 0x3EC00000#32, 0x3F800000#32⟩))
    (fun t => t.env == ⟨.attack, 0x3EC00000#32, 0x3FC00000#32⟩) = true := by decide +kernel
/-- R164's example in mode Forced: `(Decay, 0.75, 1.0)` becomes `(Release, 0.75, -2.0)`. -/
theorem test_release_forced : holds (exec .envRelease (((at' .syn {}).withEnv
    ⟨.decay, 0x3F400000#32, 0x3F800000#32⟩).withCfg ⟨{ Params.setG with releaseMode := .forced }, 0#8⟩))
    (fun t => t.env == ⟨.release, 0x3F400000#32, 0xC0000000#32⟩) = true := by decide +kernel
/-- R166's example, the transition: `(Attack, 0.75, 3.0)` becomes `(Decay, 1.0, 0.0)`. -/
theorem test_attack_ends : holds (exec .envUpdate ((at' .syn {}).withEnv
    ⟨.attack, 0x3F400000#32, 0x40400000#32⟩))
    (fun t => t.env == ⟨.decay, 0x3F800000#32, 0x00000000#32⟩ && t.res.volume == 0x3F800000#32) =
    true := by decide +kernel
/-- R168's example, the last update: `(Release, 0.125, 3.0)` becomes `(Idle, 0.0, 0.0)`. -/
theorem test_release_ends : holds (exec .envUpdate ((at' .syn {}).withEnv
    ⟨.release, 0x3E000000#32, 0x40400000#32⟩))
    (fun t => t.env == ⟨.idle, 0x00000000#32, 0x00000000#32⟩) = true := by decide +kernel

/-! ## Metronome (43_metronome) -/

/-- R192's example. -/
theorem test_metUpdate : holds (exec .metUpdate ((at' .syn { e := 88205#64 }).withCfg
    ⟨{ Params.setG with tickPeriod := 22050#64, clickWindow := 100#64, tsNumerator := 4#32 }, 0#8⟩))
    (fun t => t.met == ⟨88205#64, 4#64, true, true⟩) = true := by decide +kernel
theorem test_beat_too_wide : exec .metGetBeatIndex ((at' .syn {}).withMet
    ⟨0#64, 0x100000000#64, false, false⟩) = .refused (.beatIndexTooWide 0x100000000#64) := by
  rfl

/-! ## Queues (44_fifo) -/

/-- R206's example: a push of 1.5 writes `mem[0]`, `w = 1`. -/
theorem test_push : holds (exec .qTryPush (at' .syn { q := 1#2, v := 0x003FC00000#40 }))
    (fun t => t.vizQ == ⟨1, 0, 0, 0⟩ && t.mem.viz == [(0, 0x3FC00000#32)] && t.res.vizQ.accepted) =
    true := by decide +kernel
/-- R207's example: `C = 4`, `w = 4`, `r_sync = 0`: refused, `w` stays. -/
theorem test_push_full : holds (exec .qTryPush ((at' .vis { q := 2#2 }).withCur .cmd ⟨4, 0, 0, 0⟩))
    (fun t => t.cmdQ == ⟨4, 0, 0, 0⟩ && t.mem == Memory.unwritten && !t.res.cmdQ.accepted) =
    true := by decide +kernel
/-- R208: pop returns 1.5, `r = 1`. -/
theorem test_pop : holds (exec .qTryPop (withSample.withPort ⟨.aud, { q := 0#2 }⟩))
    (fun t => t.outQ == ⟨1, 1, 1, 0⟩ && t.res.outQ.valid && t.res.outQ.data == 0x003FC00000#40) =
    true := by decide +kernel
/-- R210: a slot with data, then a silent one that is counted. -/
theorem test_fill : holds (runSteps 2 withSample) (fun t =>
    t.aud == ⟨0, [0x3FC00000#32, 0x00000000#32]⟩ && t.ctr.outUnderflows == 1#32) = true := by
  decide +kernel
theorem test_fill_wrong_queue : exec .qFill (at' .aud { q := 1#2 }) = .refused .fillNotOnOut := by
  rfl
/-- R212: the copy moves by the draw. -/
theorem test_sync : holds (step ((on (.sync .out .write 2)).withCur .out ⟨15, 12, 12, 12⟩))
    (fun t => t.outQ == ⟨15, 12, 14, 12⟩) = true := by decide +kernel

/-! ## FFT (45_fft) -/

/-- R237: `N = 1` returns `X[0] = x[0]` with no arithmetic. -/
theorem test_fft_one : holds (exec .fftTransform (at' .vis { x := [0x3FC0000040000000#64] }))
    (fun t => t.res.fftX == [0x3FC0000040000000#64] && t.fftN == 1 && t.res.fftStatus == 0#1) =
    true := by decide +kernel
/-- R232: more than `FFT_MAX_N` is rejected. -/
theorem test_fft_oversize : holds (exec .fftTransform ((at' .vis { x := [0#64, 0#64, 0#64] }).withCfg
    ⟨{ Params.setG with fftMaxN := 2 }, 0#8⟩))
    (fun t => t.res.fftStatus == 1#1 && t.fftN == 0 && t.mem == Memory.unwritten) = true := by
  decide +kernel
/-- R231: 500 is padded to 512; 512 and 1 are kept. -/
theorem test_padded : paddedLength 500 = 512 ∧ paddedLength 512 = 512 ∧ paddedLength 1 = 1 ∧
    paddedLength 513 = 1024 := by decide +kernel

/-! ## Counters, construction, the stuck core (60_exceptions) -/

/-- R312: where the counter has not moved since the last read, the count is that value again. -/
theorem test_counter_read (raw : Nat) : staleCount raw 7#32 7#32 = 7#32 := by
  simp [staleCount, Nat.mod_one]
/-- R312's example: after two drops a first read returns 0, 1 or 2. -/
theorem test_counter_range : staleCount 5 0#32 2#32 = 2#32 ∧ staleCount 4 0#32 2#32 = 1#32 ∧
    staleCount 3 0#32 2#32 = 0#32 := by decide
theorem test_satInc : satInc 0xFFFFFFFF#32 = 0xFFFFFFFF#32 ∧ satInc 6#32 = 7#32 := by decide
/-- 95_test_vectors V-X2: set G passes. -/
theorem test_setG_passes : faultCode Params.setG = 0#8 := by decide +kernel
/-- R301 code 3: a duration that is not integer-valued. -/
theorem test_bad_duration : faultCode { Params.setG with decayDur := 0x3FC00000#32 } = 3#8 := by
  decide +kernel
/-- R301: of two causes the lower code is reported. -/
theorem test_lowest_code : faultCode { Params.setG with fftMaxN := 3, outCap := 0 } = 5#8 := by
  decide +kernel
/-- R302: a held core is stuck; a reset frees it. -/
theorem test_held : step ((on .syn).withCfg ⟨Params.setG, 5#8⟩) = .fault (.held 5#8) := by
  rfl
theorem test_reset_frees : holds (step ((on (.reset Params.setG)).withCfg ⟨Params.setG, 5#8⟩))
    (fun t => t.cfg.fault == 0#8) = true := by decide +kernel

/-! ## Witnesses: states and operands that meet the hypotheses of each obligation, clause by clause -/

theorem witness_EncodeDecodeAgree : (Instr.changeFrequency 0xFFFFFFFF#32).wf = true ∧
    decode (.cmd 0x02FFFFFFFF#40) = .ok (.changeFrequency 0xFFFFFFFF#32) := by decide

theorem witness_CommandWordsSelect : 0x07 ≤ ((0x0700000000#40 : CmdWord) >>> 32).toNat := by decide

theorem witness_ReservedCodesRefused :
    0x03#8 ∉ [0x00#8, 0x01#8, 0x02#8, 0x10#8, 0x11#8, 0x20#8, 0x21#8, 0x22#8, 0x30#8, 0x31#8, 0x32#8,
      0x40#8, 0x41#8, 0x42#8, 0x50#8, 0x51#8, 0x60#8] ∧
    (on (.uop .aud 0x03#8 {})).cfg.fault = 0#8 ∧
    nextEvent (on (.uop .aud 0x03#8 {})) = .uop .aud 0x03#8 {} ∧
    (on (.uop .aud 0x03#8 {})).aud.left = 0 := by decide

theorem witness_StepRunsPresentedOperation :
    (on (.uop .aud 0x42#8 {})).cfg.fault = 0#8 ∧
    nextEvent (on (.uop .aud 0x42#8 {})) = .uop .aud 0x42#8 {} ∧
    (on (.uop .aud 0x42#8 {})).aud.left = 0 ∧ decodeUop 0x42#8 = .ok .qFill := by decide

theorem witness_StepRunsPoppedCommand :
    withStart.cfg.fault = 0#8 ∧ nextEvent withStart = .syn ∧ withStart.syn.phase = .drain ∧
    withStart.syn.drained ≠ withStart.cfg.params.cmdCap ∧ 0 < withStart.cfg.params.cmdCap ∧
    availC withStart.cfg.params.cmdCap withStart.cmdQ ≠ 0 ∧
    withStart.mem.get (.ring .cmd) (withStart.cmdQ.r % withStart.cfg.params.cmdCap) = some 0#64 ∧
    decodeCmd ((0#64 : Elem).setWidth 40) = .ok (.start 0#32) := by decide +kernel

/-- The least unknown `op`, 07. -/
def withUnknown : State := State.reset.withFetchWord 40 0x0700000000

theorem witness_UnknownCommandIgnored :
    withUnknown.cfg.fault = 0#8 ∧ nextEvent withUnknown = .syn ∧ withUnknown.syn.phase = .drain ∧
    withUnknown.syn.drained ≠ withUnknown.cfg.params.cmdCap ∧ 0 < withUnknown.cfg.params.cmdCap ∧
    availC withUnknown.cfg.params.cmdCap withUnknown.cmdQ ≠ 0 ∧
    withUnknown.mem.get (.ring .cmd) (withUnknown.cmdQ.r % withUnknown.cfg.params.cmdCap) =
      some 0x0700000000#64 ∧
    0x07 ≤ (((0x0700000000#64 : Elem).setWidth 40 : CmdWord) >>> 32).toNat := by decide +kernel

theorem witness_DrainEnds :
    (let s := (on .syn).withSyn { State.reset.syn with drained := 4 };
      s.cfg.fault = 0#8 ∧ nextEvent s = .syn ∧ s.syn.phase = .drain ∧
      s.syn.drained = s.cfg.params.cmdCap) ∧
    (let s := on .syn;
      s.cfg.fault = 0#8 ∧ nextEvent s = .syn ∧ s.syn.phase = .drain ∧
      s.syn.drained ≠ s.cfg.params.cmdCap ∧ availC s.cfg.params.cmdCap s.cmdQ = 0) := by
  decide +kernel

theorem witness_RunningSampleIsMixed :
    let s := gen true .compute
    s.cfg.fault = 0#8 ∧ nextEvent s = .syn ∧ s.syn.phase = .gen ∧ s.syn.stage = .compute ∧
    s.syn.running = true := by decide

theorem witness_StoppedSampleIsSilent :
    let s := gen false .compute
    s.cfg.fault = 0#8 ∧ nextEvent s = .syn ∧ s.syn.phase = .gen ∧ s.syn.stage = .compute ∧
    s.syn.running = false := by decide

/-- OUT at the boundary: 7 of 8 elements seen, then 8. -/
theorem witness_SampleGoesToOut :
    let s := (gen true (.pushOut one)).withCur .out ⟨7, 0, 0, 0⟩
    let f := (gen true (.pushOut one)).withCur .out ⟨8, 0, 0, 0⟩
    (s.cfg.fault = 0#8 ∧ nextEvent s = .syn ∧ s.syn.phase = .gen ∧ s.syn.stage = .pushOut one ∧
      0 < s.cfg.params.outCap ∧ occP s.cfg.params.outCap s.outQ < s.cfg.params.outCap) ∧
    (f.cfg.fault = 0#8 ∧ nextEvent f = .syn ∧ f.syn.phase = .gen ∧ f.syn.stage = .pushOut one ∧
      0 < f.cfg.params.outCap ∧ occP f.cfg.params.outCap f.outQ = f.cfg.params.outCap) := by
  decide +kernel

/-- VIZ at the boundary: 7 of 8 elements seen, then 8. -/
theorem witness_SampleGoesToVizAndStepEnds :
    let s := (gen true (.pushViz one)).withCur .viz ⟨7, 0, 0, 0⟩
    let f := (gen true (.pushViz one)).withCur .viz ⟨8, 0, 0, 0⟩
    (s.cfg.fault = 0#8 ∧ nextEvent s = .syn ∧ s.syn.phase = .gen ∧ s.syn.stage = .pushViz one ∧
      0 < s.cfg.params.vizCap ∧ occP s.cfg.params.vizCap s.vizQ < s.cfg.params.vizCap) ∧
    (f.cfg.fault = 0#8 ∧ nextEvent f = .syn ∧ f.syn.phase = .gen ∧ f.syn.stage = .pushViz one ∧
      0 < f.cfg.params.vizCap ∧ occP f.cfg.params.vizCap f.vizQ = f.cfg.params.vizCap) := by
  decide +kernel

theorem witness_BlockHasOneSetting :
    let s := gen true .compute
    (∃ t, step s = .next t) ∧ s.syn.phase = .gen ∧ nextEvent s = .syn := ⟨⟨_, rfl⟩, rfl, rfl⟩

theorem witness_ResetConstructs :
    nextEvent (on (.reset Params.setG)) = .reset Params.setG := rfl

theorem witness_ResetTable : Params.setG.defaultDuty = 0x3F000000#32 := rfl

theorem witness_HeldCoreIsStuck :
    let s := (on .syn).withCfg ⟨Params.setG, 5#8⟩
    s.cfg.fault ≠ 0#8 ∧ nextEvent s = .syn := ⟨by decide, rfl⟩

theorem witness_OtherAgentsAreRefused :
    (at' .aud { q := 0#2, c := 2#2 }).port.agent ≠ .syn ∧
    (at' .aud { q := 2#2 }).port.agent ≠ .vis ∧ (at' .syn { q := 0#2 }).port.agent ≠ .aud ∧
    (at' .syn { q := 1#2, c := 2#2 }).port.ops.c ≠ 3#2 ∧
    (at' .vis { q := 3#2, c := 3#2 }).port.ops.q = 3#2 := by decide

theorem witness_HostsNeitherReadNorWriteUnits :
    nextEvent (on (.uop .vis 0x51#8 {})) = .uop .vis 0x51#8 {} ∧
    nextEvent (on (.uop .aud 0x41#8 {})) = .uop .aud 0x41#8 {} ∧
    nextEvent withSample = .fillSlot ∧
    nextEvent (on (.sync .viz .write 1)) = .sync .viz .write 1 := by decide

/-- The boundary patterns: the greatest finite value, `-0.0`, infinity, the least negative value. -/
theorem witness_FrequencyIsWrittenOrRefused :
    ((0x7F7FFFFF#32).toNat < 0x7F800000 ∨ 0x7F7FFFFF#32 = 0x80000000#32) ∧
    ((0x80000000#32).toNat < 0x7F800000 ∨ 0x80000000#32 = 0x80000000#32) ∧
    ¬((0x7F800000#32).toNat < 0x7F800000 ∨ 0x7F800000#32 = 0x80000000#32) ∧
    ¬((0x80000001#32).toNat < 0x7F800000 ∨ 0x80000001#32 = 0x80000000#32) ∧
    (at' .syn { f := 0x80000001#32 }).port.agent = .syn ∧
    (at' .syn { f := 0x80000001#32 }).port.ops.f = 0x80000001#32 := by decide

theorem witness_WaveTypeIsSet :
    (at' .syn { w := 5#8 }).port.agent = .syn ∧ 4 < (5#8).toNat ∧
    ((4#8).toNat ≤ 4 ∧ 4#8 ≠ 2#8) ∧ isNaN 0xFF800000#32 = false ∧ isNaN 0x7FC00000#32 = true := by
  decide

theorem witness_ChangeOscillatorSetsTheWave :
    4 < (0x105#32).toNat % 256 ∧ (0x104#32).toNat % 256 ≤ 4 ∧ (0x102#32).toNat % 256 = 2 ∧
    dutyInRange State.reset.osc.duty = true := by decide

theorem witness_ChangeNoiseSetsTheSelection :
    2 < (0x103#32).toNat % 256 ∧ (0x102#32).toNat % 256 ≤ 2 := by decide

theorem witness_OscRunGivesTheWaveform :
    (at' .syn {}).port.agent = .syn ∧ feq (at' .syn {}).osc.frequency 0x00000000#32 = true ∧
    feq ((at' .syn {}).withOsc ⟨one, .sine, half, half⟩).osc.frequency 0x00000000#32 = false := by
  decide

theorem witness_NoiseDrawsAreAdmitted :
    (at' .syn {}).port.agent = .syn ∧ isFinite 0xBF800000#32 = true ∧
    fle 0xBF800000#32 0xBF800000#32 = true ∧ fle 0xBF800000#32 0x3F800000#32 = true := by decide

theorem witness_PressGoesToAttack : (at' .syn {}).port.agent = .syn := rfl
theorem witness_ReleaseFollowsTheMode : (at' .syn {}).port.agent = .syn := rfl
theorem witness_EnvUpdateFollowsTheSegment : (at' .syn {}).port.agent = .syn := rfl

theorem witness_MetUpdateEvaluatesTheCount :
    let s := at' .syn { e := 0xFFFFFFFFFFFFFFFF#64 }
    s.port.agent = .syn ∧ s.cfg.params.tickPeriod ≠ 0#64 ∧ s.cfg.params.tsNumerator ≠ 0#32 := by
  decide

theorem witness_BeatIndexIsMonotone :
    let s := at' .syn { e := 3#64 }
    let s' := at' .syn { e := 4#64 }
    s.cfg.params = s'.cfg.params ∧ s.port.ops.e.toNat ≤ s'.port.ops.e.toNat ∧
    (∃ t, exec .metUpdate s = .next t) ∧ (∃ t, exec .metUpdate s' = .next t) :=
  ⟨rfl, by decide, ⟨_, rfl⟩, ⟨_, rfl⟩⟩

/-- The boundary: the greatest index that fits, and the least that does not. -/
theorem witness_GetBeatIndexFitsOrIsRefused :
    ((at' .syn {}).withMet ⟨0#64, 0xFFFFFFFF#64, false, false⟩).met.beatIndex.toNat < 2 ^ 32 ∧
    2 ^ 32 ≤ ((at' .syn {}).withMet ⟨0#64, 0x100000000#64, false, false⟩).met.beatIndex.toNat ∧
    (at' .syn {}).port.agent = .syn := by decide

theorem witness_TsAccentReadsTheFlag : (at' .syn {}).port.agent = .syn := rfl

/-- CMD at the boundary: 3 of 4 elements seen, then 4; and OUT. -/
theorem witness_TryPushIsAcceptedOrRefused :
    let s := (at' .vis { q := 2#2 }).withCur .cmd ⟨3, 0, 0, 0⟩
    let f := (at' .vis { q := 2#2 }).withCur .cmd ⟨4, 0, 0, 0⟩
    queueOf s.port.ops.q = some .cmd ∧ s.port.agent = .vis ∧ 0 < s.cap .cmd ∧
    ((s.cur .cmd).w + (2 * s.cap .cmd - (s.cur .cmd).rSync % (2 * s.cap .cmd))) %
      (2 * s.cap .cmd) < s.cap .cmd ∧
    ((f.cur .cmd).w + (2 * f.cap .cmd - (f.cur .cmd).rSync % (2 * f.cap .cmd))) %
      (2 * f.cap .cmd) = f.cap .cmd ∧
    queueOf (at' .syn { q := 0#2 }).port.ops.q = some .out ∧
    (at' .syn { q := 0#2 }).port.agent = .syn := by decide +kernel

theorem witness_TryPopTakesOrFindsNothing :
    let s := withSample.withPort ⟨.aud, { q := 0#2 }⟩
    let f := at' .aud { q := 0#2 }
    queueOf s.port.ops.q = some .out ∧ s.port.agent = .aud ∧ 0 < s.cap .out ∧
    ((s.cur .out).wSync + (2 * s.cap .out - (s.cur .out).r % (2 * s.cap .out))) %
      (2 * s.cap .out) ≠ 0 ∧
    s.mem.get (.ring .out) ((s.cur .out).r % s.cap .out) = some 0x3FC00000#64 ∧
    ((f.cur .out).wSync + (2 * f.cap .out - (f.cur .out).r % (2 * f.cap .out))) %
      (2 * f.cap .out) = 0 := by decide +kernel

/-- Cursors as at reset. -/
theorem cursorsOk_reset : CursorsOk 8 ⟨0, 0, 0, 0⟩ :=
  ⟨by decide, by decide, by decide, by decide, by decide, by decide, by decide⟩

/-- One element pushed and seen. -/
theorem cursorsOk_one (C : Nat) (h : C = 4 ∨ C = 8) : CursorsOk C ⟨1, 0, 1, 0⟩ := by
  rcases h with rfl | rfl <;>
    exact ⟨by decide, by decide, by decide, by decide, by decide, by decide, by decide⟩

theorem witness_QueuesAreFirstInFirstOut :
    (let s := at' .syn { q := 1#2 };
      queueOf s.port.ops.q = some .viz ∧ CursorsOk (s.cap .viz) (s.cur .viz) ∧
      ∃ t, exec .qTryPush s = .next t ∧ (t.res.queue .viz).accepted = true) ∧
    (let s := withSample.withPort ⟨.aud, { q := 0#2 }⟩;
      queueOf s.port.ops.q = some .out ∧ CursorsOk (s.cap .out) (s.cur .out) ∧
      ∃ t, exec .qTryPop s = .next t ∧ (t.res.queue .out).valid = true) :=
  ⟨⟨rfl, cursorsOk_reset, _, rfl, rfl⟩, rfl, cursorsOk_one 8 (.inr rfl), _, rfl, rfl⟩

/-- START in CMD, the write cursor's copy at `w`, both queues of samples empty. -/
def startSeenAt (w : Nat) : State := (withStart.withCur .cmd ⟨1, 0, w, 0⟩).withAgenda []

theorem queueInv_startSeenAt {w : Nat} (hw : w ≤ 1) : QueueInv (startSeenAt w) := by
  refine ⟨by unfold CfgInv; exact (by decide +kernel : withStart.cfg.fault = faultCode Params.setG),
    fun _ q => ?_⟩
  cases q with
  | out => exact ⟨cursorsOk_reset, fun k hk => absurd hk (by decide +revert)⟩
  | viz => exact ⟨cursorsOk_reset, fun k hk => absurd hk (by decide +revert)⟩
  | cmd =>
    refine ⟨by interval_cases w <;>
      exact ⟨by decide, by decide, by decide, by decide, by decide, by decide, by decide⟩, ?_⟩
    intro k hk
    have h1 : occ 4 ⟨1, 0, w, 0⟩ = 1 := by simp [occ, modSub]
    obtain rfl : k = 0 := by
      have : k < occ 4 ⟨1, 0, w, 0⟩ := hk
      omega
    exact (by decide +kernel : (withStart.mem.get (.ring .cmd) 0).isSome = true)

theorem queueInv_withStart : QueueInv withStart := queueInv_startSeenAt le_rfl

theorem step_withStart : ∃ t, step withStart = .next t := ⟨_, rfl⟩

theorem queueInv_reset : QueueInv State.reset := by
  refine ⟨by unfold CfgInv; decide +kernel, fun _ q => ?_⟩
  cases q with
  | out => exact ⟨cursorsOk_reset, fun k hk => absurd hk (by decide +revert)⟩
  | viz => exact ⟨cursorsOk_reset, fun k hk => absurd hk (by decide +revert)⟩
  | cmd =>
    exact ⟨⟨by decide, by decide, by decide, by decide, by decide, by decide, by decide⟩,
      fun k hk => absurd hk (by decide +revert)⟩

theorem queueInv_gen (r : Bool) (g : GenStage) : QueueInv (gen r g) := queueInv_reset

/-- A step that pops, one that pushes, and one that does neither. -/
theorem witness_NoStepReordersAQueue :
    (QueueInv withStart ∧ (∃ t, step withStart = .next t) ∧ popsNext withStart .cmd) ∧
    (let s := gen true (.pushOut one);
      QueueInv s ∧ (∃ t, step s = .next t) ∧ pushesNext s .out (one.setWidth 64)) ∧
    (let s := gen true .compute;
      QueueInv s ∧ (∃ t, step s = .next t) ∧ nextEvent s = .syn) :=
  ⟨⟨queueInv_withStart, step_withStart, .inl ⟨rfl, rfl, rfl, by decide⟩⟩,
    ⟨queueInv_gen .., ⟨_, rfl⟩, .inl ⟨rfl, rfl, one, rfl, .inl ⟨rfl, rfl⟩⟩⟩,
    queueInv_gen .., ⟨_, rfl⟩, rfl⟩

/-- SYNC(CMD,W) delivers a START that was pushed and not yet seen; then nothing happens any more. -/
def deliverEvents : Nat → Event
  | 0 => .sync .cmd .write 1
  | _ + 1 => .fillSlot

def deliverRun : Nat → State
  | 0 => startSeenAt 0
  | 1 => syncStep .cmd .write 1 (takeEvent (startSeenAt 0))
  | n + 2 => takeEvent (deliverRun (n + 1))

theorem deliverRun_rest (n : Nat) : (deliverRun (n + 1)).cfg.fault = 0#8 ∧
    (deliverRun (n + 1)).aud.left = 0 ∧
    ∀ q side, copiedCursor (deliverRun (n + 1)) q side = trueCursor (deliverRun (n + 1)) q side := by
  induction n with
  | zero => exact ⟨rfl, rfl, fun q side => by cases q <;> cases side <;> rfl⟩
  | succ n ih =>
    have e : deliverRun (n + 2) = takeEvent (deliverRun (n + 1)) := rfl
    rw [e]
    refine ⟨ih.1, ih.2.1, fun q side => ?_⟩
    have := ih.2.2 q side
    cases side <;> simpa only [copiedCursor, trueCursor, takeEvent_cur] using this

theorem witness_CursorsAreDelivered :
    (IsRun deliverEvents deliverRun ∧ QueueInv (deliverRun 0) ∧
      (∀ q side, WeaklyFair deliverEvents deliverRun q side) ∧
      copiedCursor (deliverRun 0) .cmd .write ≠ trueCursor (deliverRun 0) .cmd .write ∧
      ∀ m ≥ 0, trueCursor (deliverRun m) .cmd .write = trueCursor (deliverRun 0) .cmd .write) ∧
    (let s := (startSeenAt 0).withRota ⟨0, ⟨.cmd, .write⟩⟩;
      QueueInv s ∧ SyncEnabled s .cmd .write ∧ s.agenda = [] ∧ s.rota = ⟨0, ⟨.cmd, .write⟩⟩) ∧
    QueueInv (startSeenAt 0) := by
  have hq := queueInv_startSeenAt (Nat.zero_le 1)
  refine ⟨⟨fun n => ?_, hq, fun q side n h => ?_, by decide, fun m _ => ?_⟩,
    ⟨hq, ⟨rfl, by decide⟩, rfl, rfl⟩, hq⟩
  · cases n with
    | zero => rfl
    | succ n =>
      obtain ⟨h1, h2, -⟩ := deliverRun_rest n
      simp [deliverEvents, runEvent, isHeld, h1, runAgent, audBusy, h2, deliverRun]
  · exact absurd ((deliverRun_rest n).2.2 q side) (h (n + 1) (by omega)).2
  · suffices h : ∀ n, trueCursor (deliverRun (n + 1)) .cmd .write = 1 by
      cases m with
      | zero => rfl
      | succ m => exact h m
    intro n
    induction n with
    | zero => rfl
    | succ n ih => exact ih

/-- The greatest admitted draw, with the cursors across the wrap. -/
theorem witness_SyncReadFollowsTheReadCursor :
    let s := (on (.sync .out .read 3)).withCur .out ⟨2, 1, 2, 14⟩
    s.cfg.fault = 0#8 ∧ nextEvent s = .sync .out .read 3 ∧ (s.cur .out).r < 2 * s.cap .out ∧
    (s.cur .out).rSync < 2 * s.cap .out ∧
    3 = modSub (s.cur .out).r (s.cur .out).rSync (2 * s.cap .out) := by decide +kernel

theorem witness_SyncWriteFollowsTheWriteCursor :
    let s := (on (.sync .cmd .write 1)).withCur .cmd ⟨0, 6, 7, 6⟩
    s.cfg.fault = 0#8 ∧ nextEvent s = .sync .cmd .write 1 ∧ (s.cur .cmd).w < 2 * s.cap .cmd ∧
    (s.cur .cmd).wSync < 2 * s.cap .cmd ∧
    1 = modSub (s.cur .cmd).w (s.cur .cmd).wSync (2 * s.cap .cmd) := by decide +kernel

theorem witness_FillBegins :
    (at' .aud { q := 0#2, n := 3 }).port.agent = .aud ∧
    (at' .aud { q := 0#2, n := 3 }).port.ops.q = 0#2 ∧
    (at' .aud { q := 1#2 }).port.ops.q ≠ 0#2 := by decide

theorem witness_FillTakesSamplesThenSilence :
    withSample.cfg.fault = 0#8 ∧ CursorsOk withSample.cfg.params.outCap withSample.outQ ∧
    RingWritten withSample.cfg.params.outCap withSample.outQ withSample.mem .out ∧
    withSample.aud = ⟨2, []⟩ ∧
    withSample.agenda = List.replicate 2 .fillSlot ++ [.syn] := by
  refine ⟨rfl, cursorsOk_one 8 (.inr rfl), fun k hk => ?_, rfl, rfl⟩
  have h1 : occ withSample.cfg.params.outCap withSample.outQ = 1 := by decide +kernel
  rw [h1] at hk
  obtain rfl : k = 0 := by omega
  decide +kernel

theorem witness_AudFinishesItsFillFirst :
    let s := withSample.withAgenda [.uop .aud 0x41#8 {}]
    s.cfg.fault = 0#8 ∧ nextEvent s = .uop .aud 0x41#8 {} ∧ s.aud.left ≠ 0 ∧
    ∃ t, step s = .next t := ⟨rfl, rfl, by decide, _, rfl⟩

theorem witness_PaddedLengthIsTheNextPowerOfTwo : 1 ≤ 500 ∧ 500 ≤ 2 ^ 9 := by decide

theorem witness_FftEmptyAndOversize :
    (at' .vis {}).port.agent = .vis ∧ (at' .vis {}).port.ops.x = [] ∧
    (let s := (at' .vis { x := [0#64, 0#64, 0#64] }).withCfg
        ⟨{ Params.setG with fftMaxN := 2 }, 0#8⟩;
      s.port.agent = .vis ∧ s.port.ops.x ≠ [] ∧
      s.cfg.params.fftMaxN < paddedLength s.port.ops.x.length) := by decide +kernel

theorem witness_FftTransformComputesTheRecursion :
    let s := at' .vis { x := [0#64, 0#64, 0#64] }
    s.port.agent = .vis ∧ s.port.ops.x ≠ [] ∧
    paddedLength s.port.ops.x.length ≤ s.cfg.params.fftMaxN := by decide +kernel

theorem fftInv_withBins : FftInv withBins := by
  refine ⟨by decide, fun k hk => ?_⟩
  have h2 : withBins.fftN = 2 := rfl
  rw [h2] at hk
  interval_cases k <;> decide +kernel

theorem witness_FftMagGivesTheBins :
    withBins.port.agent = .vis ∧ FftInv withBins ∧ 0 < withBins.fftN / 2 :=
  ⟨rfl, fftInv_withBins, by decide⟩

theorem witness_CtrReadIsBetween :
    (let s := at' .aud { c := 2#2 };
      counterOf s.port.ops.c = some .outUnderflows ∧ s.port.agent = .aud ∧
      (s.audSeen.get .outUnderflows).toNat ≤ (s.ctr.get .outUnderflows).toNat) ∧
    (let s := (at' .vis { c := 0#2 }).withCtr ⟨2#32, 0#32, 0#32⟩;
      counterOf s.port.ops.c = some .outDrops ∧ s.port.agent = .vis ∧
      (s.visSeen.get .outDrops).toNat ≤ (s.ctr.get .outDrops).toNat) := by decide

/-- The greatest index of `fft.A`, and the first beyond it. -/
theorem witness_ReadsReturnTheLastWrite :
    1023 < arraySize Params.setG .fftA ∧ Memory.unwritten.get .fftA 1023 = none ∧
    arraySize Params.setG .fftA ≤ 1024 := by decide

theorem witness_StepsKeepMemoryCanonical :
    MemInv withStart ∧ ∃ t, step withStart = .next t := ⟨by unfold MemInv; decide +kernel, step_withStart⟩

theorem witness_StepsKeepQueueInvariants :
    QueueInv withStart ∧ ∃ t, step withStart = .next t := ⟨queueInv_withStart, step_withStart⟩

/-- A sample step of a running oscillator at a frequency that is not zero. -/
def withTone : State :=
  (gen true .compute).withOsc ⟨0x43DC0000#32, .sine, half, half⟩

theorem step_withTone : ∃ t, step withTone = .next t := ⟨_, rfl⟩

theorem witness_StepsKeepPhaseInRange : PhaseInv withTone ∧ ∃ t, step withTone = .next t :=
  ⟨⟨by decide, by decide⟩, step_withTone⟩

theorem witness_StepsKeepDutyInRange :
    DutyInv withTone ∧ dutyInRange withTone.cfg.params.defaultDuty = true ∧
    ∃ t, step withTone = .next t := ⟨fun _ => by decide, by decide, step_withTone⟩

theorem witness_StepsKeepEnvelopeStates :
    IdleSilent withTone ∧ withTone.env.state = .idle ∧ NeverSustain withTone ∧
    ∃ t, step withTone = .next t := ⟨fun _ => rfl, rfl, by unfold NeverSustain; decide, step_withTone⟩

theorem witness_StepsKeepSequencerInRange : SynInv withTone ∧ ∃ t, step withTone = .next t :=
  ⟨⟨by unfold CfgInv; decide +kernel, by decide, fun _ => by decide, by decide,
    fun h => absurd h (by decide)⟩, step_withTone⟩

theorem witness_StepsKeepReadersBehind : ReaderInv withTone ∧ ∃ t, step withTone = .next t :=
  ⟨fun k => by cases k <;> decide, step_withTone⟩

theorem witness_StepsKeepFftReadable :
    let s := withBins.withAgenda [.fillSlot]
    FftInv s ∧ 0 < s.fftN ∧ ∃ t, step s = .next t := ⟨fftInv_withBins, by decide, _, rfl⟩

theorem witness_InvariantsHoldAtReset :
    State.reset = State.reset ∧ ∃ s, s = construct Params.setG := ⟨rfl, _, rfl⟩

theorem witness_NoStepFaultsOnMemory : QueueInv withStart ∧ FftInv withStart :=
  ⟨queueInv_withStart, by decide, fun k hk => absurd hk (Nat.not_lt_zero k)⟩

theorem witness_BasicOperationsRoundToNearestEven :
    isFinite 0x3F800000#32 = true ∧ isFinite 0x40400000#32 = true ∧
    isFinite (fadd 0x3F800000#32 0x40400000#32) = true ∧
    isInf (fmul 0x7F7FFFFF#32 0x40400000#32) = true ∧ toRat 0x40400000#32 ≠ 0 := by
  refine ⟨by decide, by decide, by decide +kernel, by decide +kernel, ?_⟩
  unfold toRat
  have h1 : scaledInt 0x40400000#32 ≠ 0 := by decide
  have h2 : unitScale ≠ 0 := by decide
  exact div_ne_zero (by exact_mod_cast h1) (by exact_mod_cast h2)

end Sys2Proof.Tests
end

section
/-!
PROOFS. A presented operation runs the instruction its code selects (00_scope R15, 30_encoding R91, R98).
-/

namespace Sys2Proof.Machine

/-- A step whose event is no reset, at a core that is not held, is the agent's step. -/
theorem step_of_not_held {s : State} (h0 : s.cfg.fault = 0#8) (hr : ∀ p, nextEvent s ≠ .reset p) :
    step s = runAgent (nextEvent s) (takeEvent s) := by
  have hh : ¬ isHeld (takeEvent s) = true := by simp [isHeld_iff, h0]
  unfold step runEvent
  split
  case h_1 p he => exact absurd he (hr p)
  all_goals exact if_neg hh

/-- An operation is presented at once unless AUD is filling. -/
theorem presentInOrder_of_not_busy {a : Agent} {s : State} (c : UopCode) (ops : Operands)
    (hb : a = .aud → s.aud.left = 0) : presentInOrder a c ops s = present a c ops s := by
  have hcond : ¬ (decide (a = .aud) && audBusy s) = true := by
    simpa [audBusy] using hb
  exact if_neg hcond

/-- A step that presents an operation, at a core that is not held and with AUD not filling. -/
theorem step_of_uop {s : State} {a : Agent} {c : UopCode} {ops : Operands}
    (h0 : s.cfg.fault = 0#8) (he : nextEvent s = .uop a c ops) (hb : a = .aud → s.aud.left = 0) :
    step s = present a c ops (takeEvent s) := by
  have hr : ∀ p, nextEvent s ≠ .reset p := fun p => by simp [he]
  rw [step_of_not_held h0 hr, he]
  exact presentInOrder_of_not_busy c ops hb

/-- Presenting a code that decodes runs its instruction with agent and operands on the ports. -/
theorem present_of_decode {c : UopCode} {i : Instr} (a : Agent) (ops : Operands) (s : State)
    (hi : decodeUop c = .ok i) : present a c ops s = exec i (s.withPort ⟨a, ops⟩) := by
  simp [present, hi]

end Sys2Proof.Machine

namespace Sys2Proof.Proofs
open Sys2Proof Sys2Proof.Machine

/-- Settles O5. -/
theorem stepRunsPresentedOperation : Obligations.StepRunsPresentedOperation := by
  refine ⟨fun s => rfl, fun s a c ops i h0 he hb hi => ?_⟩
  rw [step_of_uop h0 he hb]
  exact present_of_decode a ops (takeEvent s) hi

end Sys2Proof.Proofs
end

section
/-!
PROOFS. The four basic float operations are the exact result rounded once to nearest, ties to even
(00_scope R10). Sign and magnitude are treated apart: `roundMag_nearest` and `roundMag_inf_iff` speak of
magnitudes in units of 2^-149; here they are carried over to rationals, then to signed values, and each
operation is shown to be a signed rounded quotient.
-/

namespace Sys2Proof.Machine

/-! ## The rational value of a pattern -/

/-- The factor a sign bit stands for. -/
def signFactor (neg : Bool) : ℚ := if neg then -1 else 1

@[simp] theorem abs_signFactor (neg : Bool) : |signFactor neg| = 1 := by
  cases neg <;> simp [signFactor]

/-- The sign of a product or a quotient. -/
theorem signFactor_bne (p q : Bool) : signFactor (p != q) = signFactor p * signFactor q := by
  cases p <;> cases q <;> simp [signFactor]

@[simp] theorem signFactor_mul_self (neg : Bool) : signFactor neg * signFactor neg = 1 := by
  cases neg <;> simp [signFactor]

theorem signFactor_not (neg : Bool) : signFactor (!neg) = -signFactor neg := by
  cases neg <;> simp [signFactor]

/-- The rational value of a magnitude pattern. -/
def magRat (m : Nat) : ℚ := (scaledMag m : ℚ) / unitScale

theorem unitScale_pos : (0 : ℚ) < unitScale := by
  have h : 0 < unitScale := by decide
  exact_mod_cast h

theorem magRat_nonneg (m : Nat) : 0 ≤ magRat m := div_nonneg (Nat.cast_nonneg _) unitScale_pos.le

@[simp] theorem magRat_zero : magRat 0 = 0 := by simp [magRat, scaledMag]

theorem toRat_eq (a : F) : toRat a = signFactor (isNeg a) * magRat (fmag a) := by
  unfold toRat scaledInt signFactor magRat
  rw [scaled_eq]
  split <;> push_cast <;> ring

@[simp] theorem abs_toRat (a : F) : |toRat a| = magRat (fmag a) := by
  rw [toRat_eq, abs_mul, abs_signFactor, one_mul, abs_of_nonneg (magRat_nonneg _)]

theorem toRat_ofMag (neg : Bool) {m : Nat} (h : m < 0x80000000) :
    toRat (ofMag neg m) = signFactor neg * magRat m := by
  rw [toRat_eq, fmag_ofMag neg h, isNeg_ofMag neg h]

theorem isNaN_of_isFinite {a : F} (h : isFinite a = true) : isNaN a = false := by
  simp only [isFinite, isNaN, decide_eq_true_eq, decide_eq_false_iff_not] at *
  omega

theorem isInf_of_isFinite {a : F} (h : isFinite a = true) : isInf a = false := by
  simp only [isFinite, isInf, decide_eq_true_eq, decide_eq_false_iff_not] at *
  omega

/-! ## Negation -/

@[simp] theorem fmag_fneg (a : F) : fmag (fneg a) = fmag a := by
  have h31 : (0x80000000 : Nat) = 2 ^ 31 := by norm_num
  unfold fmag fneg
  rw [BitVec.toNat_xor, h31, Nat.xor_mod_two_pow]
  simp

@[simp] theorem isNeg_fneg (a : F) : isNeg (fneg a) = !isNeg a := by
  have hsign : (0x80000000#32).msb = true := by decide
  simp [isNeg, fneg, BitVec.msb_xor, hsign]

@[simp] theorem isFinite_fneg (a : F) : isFinite (fneg a) = isFinite a := by simp [isFinite]

@[simp] theorem toRat_fneg (a : F) : toRat (fneg a) = -toRat a := by
  simp [toRat_eq, signFactor_not]

/-! ## Rounding a magnitude, in rationals -/

/-- The quotient of `n` by `d`, read as a number of units of 2^-149. -/
def quotRat (n d : Nat) : ℚ := (n : ℚ) / d / unitScale

theorem quotRat_nonneg (n d : Nat) : 0 ≤ quotRat n d :=
  div_nonneg (div_nonneg (Nat.cast_nonneg _) (Nat.cast_nonneg _)) unitScale_pos.le

/-- A distance between magnitudes, by the integer distance that `roundMag_nearest` speaks of. -/
theorem abs_magRat_sub_quotRat (m n : Nat) {d : Nat} (hd : 0 < d) :
    |magRat m - quotRat n d| =
      ((|((scaledMag m * d : Nat) : ℤ) - n| : ℤ) : ℚ) / (d * unitScale) := by
  have hd' : (0 : ℚ) < d := by exact_mod_cast hd
  have hu := unitScale_pos
  have e : magRat m - quotRat n d = ((scaledMag m : ℚ) * d - n) / (d * unitScale) := by
    unfold magRat quotRat
    field_simp
  rw [e, abs_div, abs_of_pos (mul_pos hd' hu)]
  push_cast
  rfl

/-- `roundMag_nearest` in rationals. -/
theorem magRat_roundMag_nearest {n d m : Nat} (hd : 0 < d) (hr : roundMag n d < infMag)
    (hm : m < infMag) :
    |magRat (roundMag n d) - quotRat n d| ≤ |magRat m - quotRat n d| ∧
    (|magRat (roundMag n d) - quotRat n d| = |magRat m - quotRat n d| →
      m ≠ roundMag n d → roundMag n d % 2 = 0) := by
  obtain ⟨hle, heven⟩ := roundMag_nearest hd hr hm
  have hD : (0 : ℚ) < d * unitScale := mul_pos (by exact_mod_cast hd) unitScale_pos
  rw [abs_magRat_sub_quotRat _ _ hd, abs_magRat_sub_quotRat _ _ hd,
    div_le_div_iff_of_pos_right hD, div_left_inj' hD.ne', Int.cast_le, Int.cast_inj]
  exact ⟨hle, heven⟩

/-- Zero is rounded to zero. -/
theorem magRat_roundMag_of_quotRat_eq_zero {n d : Nat} (hd : 0 < d) (hr : roundMag n d < infMag)
    (hq : quotRat n d = 0) : magRat (roundMag n d) = 0 := by
  have h := (magRat_roundMag_nearest (m := 0) hd hr (by decide)).1
  rw [hq, magRat_zero, sub_zero, sub_zero, abs_zero] at h
  exact abs_nonpos_iff.mp h

/-- `roundMag_inf_iff` in rationals: the bound is half a unit in the last place beyond the greatest
finite value. -/
theorem roundMag_eq_infMag_iff {n d : Nat} (hd : 0 < d) :
    roundMag n d = infMag ↔ (2 ^ 128 - 2 ^ 103 : ℚ) ≤ quotRat n d := by
  have hd' : (0 : ℚ) < d := by exact_mod_cast hd
  have hbound : (2 ^ 128 - 2 ^ 103 : ℚ) * unitScale = ((2 ^ 25 - 1) * 2 ^ 252 : Nat) := by
    norm_num [unitScale]
  rw [roundMag_inf_iff hd, quotRat, le_div_iff₀ unitScale_pos, hbound, le_div_iff₀ hd', mul_comm d]
  norm_cast

/-! ## Rounding a signed value -/

/-- `r` is the rational `x` rounded to nearest, ties to even, infinite from the overflow bound on. -/
def RoundedFrom (r : F) (x : ℚ) : Prop :=
  isNaN r = false ∧ (isInf r = true ↔ (2 ^ 128 - 2 ^ 103 : ℚ) ≤ |x|) ∧
  (isFinite r = true → ∀ c : F, isFinite c = true →
    |toRat r - x| ≤ |toRat c - x| ∧
    (|toRat r - x| = |toRat c - x| → toRat c ≠ toRat r → r.toNat % 2 = 0))

/-- Values of one sign are as far apart as their magnitudes. -/
theorem abs_signFactor_mul_sub (neg : Bool) (p y : ℚ) :
    |signFactor neg * p - signFactor neg * y| = |p - y| := by
  rw [← mul_sub, abs_mul, abs_signFactor, one_mul]

/-- Only 0 is as far from a value other than 0 as from that value's negative. -/
theorem eq_zero_of_abs_sub_eq {r x : ℚ} (h : |r - x| = |-r - x|) (hr : r ≠ 0) : x = 0 := by
  rcases abs_eq_abs.mp h with h | h
  · exact absurd (by linarith) hr
  · linarith

/-- A pattern's parity is that of its magnitude. -/
theorem toNat_ofMag_mod_two (neg : Bool) {m : Nat} (h : m < 0x80000000) :
    (ofMag neg m).toNat % 2 = m % 2 := by
  rw [toNat_ofMag neg h]
  split <;> omega

/-- The signed quotient, its magnitude rounded: the sign of the exact value with the rounded magnitude
is no further from it than any finite pattern of either sign. -/
theorem roundedFrom_ofMag_roundMag (neg : Bool) (n : Nat) {d : Nat} (hd : 0 < d) :
    RoundedFrom (ofMag neg (roundMag n d)) (signFactor neg * quotRat n d) := by
  have hinf := roundMag_le_inf n d
  have h31 : roundMag n d < 0x80000000 := by unfold infMag at hinf; omega
  have hmag : fmag (ofMag neg (roundMag n d)) = roundMag n d := fmag_ofMag neg h31
  have habs : |signFactor neg * quotRat n d| = quotRat n d := by
    rw [abs_mul, abs_signFactor, one_mul, abs_of_nonneg (quotRat_nonneg n d)]
  refine ⟨by simpa [isNaN, hmag] using hinf, ?_, ?_⟩
  · rw [habs, ← roundMag_eq_infMag_iff hd]
    simp [isInf, hmag]
  intro hfin c hc
  have hr : roundMag n d < infMag := by simpa [isFinite, hmag] using hfin
  have hval := toRat_ofMag neg h31
  have hcm : fmag c < infMag := by simpa [isFinite] using hc
  obtain ⟨hle, heven⟩ := magRat_roundMag_nearest hd hr hcm
  have hmags : |magRat (fmag c) - quotRat n d| ≤ |toRat c - signFactor neg * quotRat n d| := by
    simpa [habs] using abs_abs_sub_abs_le (toRat c) (signFactor neg * quotRat n d)
  rw [toNat_ofMag_mod_two neg h31]
  have hdist : |toRat (ofMag neg (roundMag n d)) - signFactor neg * quotRat n d| =
      |magRat (roundMag n d) - quotRat n d| := by rw [hval, abs_signFactor_mul_sub]
  refine ⟨hdist.trans_le (hle.trans hmags), fun htie hne => ?_⟩
  by_cases hcr : fmag c = roundMag n d
  case neg => exact heven (le_antisymm hle (hmags.trans (htie ▸ hdist).le)) hcr
  -- `c` is the result with the other sign, so a tie leaves only an exact zero.
  have hopp : toRat c = -toRat (ofMag neg (roundMag n d)) :=
    (abs_eq_abs.mp (by rw [abs_toRat, abs_toRat, hmag, hcr])).resolve_left hne
  have hnz : toRat (ofMag neg (roundMag n d)) ≠ 0 := fun h0 => hne (by rw [hopp, h0, neg_zero])
  have hx := eq_zero_of_abs_sub_eq (hopp ▸ htie) hnz
  have hq : quotRat n d = 0 := by rw [← habs, hx, abs_zero]
  exact absurd (by rw [hval, magRat_roundMag_of_quotRat_eq_zero hd hr hq, mul_zero]) hnz

/-! ## The operations -/

theorem addFinite_rounded (a b : F) : RoundedFrom (addFinite a b) (toRat a + toRat b) := by
  have hx : toRat a + toRat b = ((scaledInt a + scaledInt b : ℤ) : ℚ) / unitScale := by
    simp only [toRat]
    push_cast
    ring
  unfold addFinite
  simp only [hx]
  generalize scaledInt a + scaledInt b = z
  split
  · next hz =>
    have h := roundedFrom_ofMag_roundMag (isNeg a && isNeg b) 0 (d := 1) (by decide)
    have h0 : roundMag 0 1 = 0 := by decide
    simpa [quotRat, h0, hz] using h
  · have hz : (z : ℚ) = signFactor (decide (z < 0)) * (z.natAbs : ℚ) := by
      rw [Nat.cast_natAbs, Int.cast_abs]
      by_cases hneg : z < 0
      · have : (z : ℚ) < 0 := by exact_mod_cast hneg
        simp [signFactor, hneg, abs_of_neg this]
      · have : (0 : ℚ) ≤ z := by exact_mod_cast not_lt.mp hneg
        simp [signFactor, hneg, abs_of_nonneg this]
    have h := roundedFrom_ofMag_roundMag (decide (z < 0)) z.natAbs (d := 1) (by decide)
    rwa [quotRat, Nat.cast_one, div_one, ← mul_div_assoc, ← hz] at h

/-- The sum of finite values does not depend on the NaN that invalid sums give. -/
theorem addWith_of_isFinite (nan : F) {a b : F} (ha : isFinite a = true) (hb : isFinite b = true) :
    addWith nan a b = addFinite a b := by
  simp [addWith, isNaN_of_isFinite, isInf_of_isFinite, ha, hb]

theorem fadd_rounded {a b : F} (ha : isFinite a = true) (hb : isFinite b = true) :
    RoundedFrom (fadd a b) (toRat a + toRat b) := by
  rw [fadd, addWith_of_isFinite _ ha hb]
  exact addFinite_rounded a b

theorem fsub_rounded {a b : F} (ha : isFinite a = true) (hb : isFinite b = true) :
    RoundedFrom (fsub a b) (toRat a - toRat b) := by
  rw [fsub, addWith_of_isFinite _ ha (by simpa using hb), sub_eq_add_neg, ← toRat_fneg]
  exact addFinite_rounded a (fneg b)

theorem fmul_rounded {a b : F} (ha : isFinite a = true) (hb : isFinite b = true) :
    RoundedFrom (fmul a b) (toRat a * toRat b) := by
  have hr : fmul a b = ofMag (isNeg a != isNeg b) (roundMag (scaled a * scaled b) unitScale) := by
    simp [fmul, isNaN_of_isFinite, isInf_of_isFinite, ha, hb]
  have hx : toRat a * toRat b =
      signFactor (isNeg a != isNeg b) * quotRat (scaled a * scaled b) unitScale := by
    rw [toRat_eq, toRat_eq, signFactor_bne, magRat, magRat, quotRat, ← scaled_eq, ← scaled_eq]
    push_cast
    ring
  rw [hr, hx]
  exact roundedFrom_ofMag_roundMag _ _ (by decide)

theorem fdiv_rounded {a b : F} (ha : isFinite a = true) (hb : isFinite b = true)
    (h0 : toRat b ≠ 0) : RoundedFrom (fdiv a b) (toRat a / toRat b) := by
  have hmag : fmag b ≠ 0 := fun h => h0 (by simp [toRat_eq, h])
  have hsc : 0 < scaled b := by
    rw [scaled_eq]
    exact (Nat.zero_le _).trans_lt (scaledMag_strictMono (Nat.pos_of_ne_zero hmag))
  have hr : fdiv a b = ofMag (isNeg a != isNeg b) (roundMag (scaled a * unitScale) (scaled b)) := by
    simp [fdiv, isNaN_of_isFinite, isInf_of_isFinite, ha, hb, hmag]
  have hx : toRat a / toRat b =
      signFactor (isNeg a != isNeg b) * quotRat (scaled a * unitScale) (scaled b) := by
    have hsb : (scaled b : ℚ) ≠ 0 := by exact_mod_cast hsc.ne'
    have hu := unitScale_pos.ne'
    have hinv : (signFactor (isNeg b))⁻¹ = signFactor (isNeg b) :=
      inv_eq_of_mul_eq_one_left (signFactor_mul_self _)
    rw [toRat_eq, toRat_eq, signFactor_bne, magRat, magRat, quotRat, ← scaled_eq, ← scaled_eq,
      mul_div_mul_comm, div_eq_mul_inv (signFactor _), hinv, div_div_div_cancel_right₀ hu]
    push_cast
    field_simp
  rw [hr, hx]
  exact roundedFrom_ofMag_roundMag _ _ hsc

end Sys2Proof.Machine

namespace Sys2Proof.Proofs
open Sys2Proof Sys2Proof.Machine

/-- Settles O60, one lemma per operation. -/
theorem basicOperationsRoundToNearestEven : Obligations.BasicOperationsRoundToNearestEven := by
  intro a b ha hb r x h
  change RoundedFrom r x
  rcases h with ⟨rfl, rfl⟩ | ⟨rfl, rfl⟩ | ⟨rfl, rfl⟩ | ⟨h0, rfl, rfl⟩
  · exact fadd_rounded ha hb
  · exact fsub_rounded ha hb
  · exact fmul_rounded ha hb
  · exact fdiv_rounded ha hb h0

end Sys2Proof.Proofs
end

section
/-!
PROOFS. What a step does to the registers of the units, once for all steps: a reset, or a chain of
moves of one unit each (10_state R22 to R43). The invariants of one state are then proved move by move.
-/

namespace Sys2Proof.Machine

/-! ## The moves -/

/-- What an operation can do to the oscillator's registers (40_oscillator R121, R122, R129). -/
inductive OscMove (p : Params) (o : Osc) : Osc → Prop where
  | frequency (f : F) (hf : legalFrequency f = true) : OscMove p o { o with frequency := f }
  | wave (k : WaveType) (hk : k ≠ .square) : OscMove p o { o with waveType := k }
  | square (d : F) (hd : isNaN d = false) :
      OscMove p o { o with waveType := .square, duty := clampDuty d }
  | advance : OscMove p o { o with phase := advancePhase p o }

/-- What an operation can do to the envelope's registers (42_envelope R162 to R165). -/
inductive EnvMove (p : Params) (e : Env) : Env → Prop where
  | press : EnvMove p e (pressEnv p e)
  | release : EnvMove p e (releaseEnv p e)
  | update : EnvMove p e (updateEnv p e)

/-- What a command and SYN's own sequence can do to the sequencer's registers (46_sequencer_commands
R261 to R264, R267, R270). -/
inductive SynMove (p : Params) (x : Syn) : Syn → Prop where
  | running (b : Bool) : SynMove p x { x with running := b }
  | noise (k : NoiseSel) : SynMove p x { x with noiseSel := k }
  | countWord (hd : x.drained ≠ p.cmdCap) : SynMove p x { x with drained := x.drained + 1 }
  | endDrain : SynMove p x { x with phase := .gen, pos := 0, drained := 0 }
  | stage (g : GenStage) (hg : x.phase = .gen) : SynMove p x { x with stage := g }
  | nextSlot : SynMove p x (nextSlot p x)

/-- Two states that differ at most in the metronome, the queues, the FFT's scratch buffer, the fill in
progress, the ports, the schedule and the count of free values. -/
structure SameUnits (s t : State) : Prop where
  osc : t.osc = s.osc
  env : t.env = s.env
  syn : t.syn = s.syn
  fftN : t.fftN = s.fftN
  ctr : t.ctr = s.ctr
  audSeen : t.audSeen = s.audSeen
  visSeen : t.visSeen = s.visSeen
  cfg : t.cfg = s.cfg
  fftA : ∀ k, t.mem.get .fftA k = s.mem.get .fftA k

/-- One move of one unit; `same` moves none of the units named here. -/
inductive UnitMove (s : State) : State → Prop where
  | same {t : State} (h : SameUnits s t) : UnitMove s t
  | osc {o : Osc} (h : OscMove s.cfg.params s.osc o) : UnitMove s (s.withOsc o)
  | env {e : Env} (h : EnvMove s.cfg.params s.env e) : UnitMove s (s.withEnv e)
  | syn {x : Syn} (h : SynMove s.cfg.params s.syn x) : UnitMove s (s.withSyn x)
  | count (k : CounterId) : UnitMove s (s.withCtr (s.ctr.set k (satInc (s.ctr.get k))))
  | readByAud (k : CounterId) (raw : Nat) :
      UnitMove s (s.withAudSeen
        (s.audSeen.set k (staleCount raw (s.audSeen.get k) (s.ctr.get k))))
  | readByVis (k : CounterId) (raw : Nat) :
      UnitMove s (s.withVisSeen
        (s.visSeen.set k (staleCount raw (s.visSeen.get k) (s.ctr.get k))))
  | fft (m : Memory) (n : Nat) (hn : n ≤ s.cfg.params.fftMaxN)
      (hm : ∀ k < n, (m.get .fftA k).isSome = true) : UnitMove s ((s.withMem m).withFftN n)

/-- A chain of moves. -/
abbrev UnitMoves : State → State → Prop := Relation.ReflTransGen UnitMove

theorem UnitMove.cfg {s t : State} (h : UnitMove s t) : t.cfg = s.cfg := by
  cases h with
  | same h => exact h.cfg
  | _ => rfl

theorem UnitMoves.cfg {s t : State} (h : UnitMoves s t) : t.cfg = s.cfg := by
  induction h with
  | refl => rfl
  | tail _ hm ih => exact hm.cfg.trans ih

theorem SameUnits.refl (s : State) : SameUnits s s :=
  ⟨rfl, rfl, rfl, rfl, rfl, rfl, rfl, rfl, fun _ => rfl⟩

theorem SameUnits.trans {s t u : State} (h : SameUnits s t) (h' : SameUnits t u) :
    SameUnits s u :=
  ⟨h'.osc.trans h.osc, h'.env.trans h.env, h'.syn.trans h.syn, h'.fftN.trans h.fftN,
   h'.ctr.trans h.ctr, h'.audSeen.trans h.audSeen, h'.visSeen.trans h.visSeen,
   h'.cfg.trans h.cfg, fun k => (h'.fftA k).trans (h.fftA k)⟩

theorem SameUnits.moves {s t : State} (h : SameUnits s t) : UnitMoves s t := .single (.same h)

/-! ## The updates outside the units -/

theorem SameUnits.withMet (s : State) (x : Met) : SameUnits s (s.withMet x) := by constructor <;> simp
theorem SameUnits.withAud (s : State) (x : AudFill) : SameUnits s (s.withAud x) := by
  constructor <;> simp
theorem SameUnits.withPort (s : State) (x : Port) : SameUnits s (s.withPort x) := by
  constructor <;> simp
theorem SameUnits.withRes (s : State) (x : Results) : SameUnits s (s.withRes x) := by
  constructor <;> simp
theorem SameUnits.withAgenda (s : State) (x : List Event) : SameUnits s (s.withAgenda x) := by
  constructor <;> simp
theorem SameUnits.withCur (s : State) (q : QueueId) (c : Cursors) : SameUnits s (s.withCur q c) := by
  constructor <;> simp
theorem SameUnits.takeEvent (s : State) : SameUnits s (takeEvent s) := by constructor <;> simp
theorem SameUnits.spendDraw (s : State) : SameUnits s (spendDraw s) := by constructor <;> simp

/-! ## The queue operations -/

theorem tryPush_sameUnits {q : QueueId} {v : Elem} {s t : State} (h : tryPush q v s = .ok t) :
    SameUnits s t := by
  rcases tryPush_ok h with ⟨-, rfl⟩ | ⟨-, -, rfl⟩
  · exact .withRes ..
  · refine .trans ?_ (.withRes ..)
    constructor <;> simp [Memory.get_put_other]

theorem tryPop_sameUnits {q : QueueId} {s t : State} (h : tryPop q s = .ok t) : SameUnits s t := by
  rcases tryPop_ok h with ⟨-, rfl⟩ | ⟨e, -, -, -, rfl⟩
  · exact .trans (.withRes ..) (.spendDraw _)
  · exact .trans (.withCur ..) (.withRes ..)

theorem syncStep_sameUnits (q : QueueId) (side : SyncSide) (d : Nat) (s : State) :
    SameUnits s (syncStep q side d s) := by
  rcases syncStep_cases q side d s with h | ⟨-, -, h⟩ <;> rw [h]
  · exact .refl s
  · exact .withCur ..

theorem fillSlot_moves {s u : State} (h : fillSlot s = .ok u) : UnitMoves s u := by
  obtain ⟨t, ht, ⟨-, rfl⟩ | ⟨-, rfl⟩⟩ := fillSlot_ok h
  · exact ((tryPop_sameUnits ht).trans (.withAud ..)).moves
  · exact (tryPop_sameUnits ht).moves.tail (.count .outUnderflows) |>.tail (.same (.withAud ..))

/-! ## The instructions -/

theorem setFrequency_moves {f : F} {s t : State} (h : setFrequency f s = .next t) :
    UnitMoves s t := by
  obtain ⟨hf, rfl⟩ := setFrequency_next h
  exact .single (.osc (.frequency f hf))

theorem setWaveType_moves {w : BitVec 8} {d : F} {s t : State} (h : setWaveType w d s = .next t) :
    UnitMoves s t := by
  rcases setWaveType_next h with ⟨-, rfl⟩ | ⟨-, hd, rfl⟩ | ⟨k, -, hk, rfl⟩
  · exact .refl
  · exact .single (.osc (.square d hd))
  · exact .single (.osc (.wave k hk))

theorem oscRun_moves (s : State) : UnitMoves s (oscRun s) := by
  obtain ⟨ph, y, h, ⟨-, rfl, -⟩ | ⟨-, rfl, -⟩⟩ := oscRun_eq s <;> rw [h]
  · exact (SameUnits.withRes s _).moves
  · exact .tail (.single (.osc .advance)) (.same (.withRes ..))

theorem noiseUniform_sameUnits (s : State) : SameUnits s (noiseUniform s) :=
  .trans (.withRes ..) (.spendDraw _)

theorem noiseGaussian_sameUnits (s : State) : SameUnits s (noiseGaussian s) :=
  .trans (.withRes ..) (.spendDraw _)

theorem noiseStep_sameUnits (s : State) : SameUnits s (noiseStep s) := by
  unfold noiseStep
  split
  · exact .refl s
  · exact noiseUniform_sameUnits s
  · exact noiseGaussian_sameUnits s

theorem envUpdate_moves (s : State) : UnitMoves s (envUpdate s) :=
  .tail (.single (.env .update)) (.same (.withRes ..))

/-- The result of a transform is readable: empty, kept, or every element of it was just read (45_fft
R232, R234). -/
theorem transform_moves {x : List Elem} {s t : State} (h : transform x s = .ok t) :
    UnitMoves s t := by
  rcases transform_ok h with ⟨-, rfl⟩ | ⟨-, -, rfl⟩ | ⟨-, hn, m, xs, -, hread, rfl⟩
  · exact .tail (.single (.fft s.mem 0 (Nat.zero_le _) (by simp))) (.same (.withRes ..))
  · exact (SameUnits.withRes ..).moves
  · have hm : ∀ k < paddedLength x.length, (m.get .fftA k).isSome = true := fun k hk => by
      simpa using ((readRun_ok _ 0 hread).2 k hk).2
    exact .tail (.single (.fft m _ hn hm)) (.same (.withRes ..))

/-- All that CTR.READ can do: one reader gets one count. -/
theorem execCtrRead_moves {s t : State} (h : execCtrRead s = .next t) : UnitMoves s t := by
  unfold execCtrRead at h
  split at h
  · cases h
  · rename_i k _
    split at h <;> cases h
    · exact .tail (.single (.readByAud k _)) (.same (.trans (.withRes ..) (.spendDraw _)))
    · exact .tail (.single (.readByVis k _)) (.same (.trans (.withRes ..) (.spendDraw _)))

/-- An owned operation that always answers the same next state. -/
theorem ifOwner_next_eq {a : Agent} {s u t : State} (h : ifOwner a s (.next u) = .next t) : t = u := by
  obtain ⟨-, h⟩ := (ifOwner_next_iff ..).mp h
  cases h
  rfl

/-- Every instruction is a chain of moves. -/
theorem exec_moves {i : Instr} {s t : State} (h : exec i s = .next t) : UnitMoves s t := by
  cases i with
  | start a | stop a => cases h; exact .single (.syn (.running _))
  | changeFrequency a => exact setFrequency_moves h
  | changeOscillator a => exact setWaveType_moves h
  | changeNoise a =>
    simp only [exec, execChangeNoise] at h
    split at h <;> cases h
    · exact .single (.syn (.noise _))
    · exact .refl
  | pressed a => cases h; exact .single (.env .press)
  | released a => cases h; exact .single (.env .release)
  | oscSetFrequency => exact setFrequency_moves ((ifOwner_next_iff ..).mp h).2
  | oscSetWaveType => exact setWaveType_moves ((ifOwner_next_iff ..).mp h).2
  | oscRun => exact ifOwner_next_eq h ▸ oscRun_moves s
  | noiseUniform => exact ifOwner_next_eq h ▸ (noiseUniform_sameUnits s).moves
  | noiseGaussian => exact ifOwner_next_eq h ▸ (noiseGaussian_sameUnits s).moves
  | envPress => exact ifOwner_next_eq h ▸ .single (.env .press)
  | envRelease => exact ifOwner_next_eq h ▸ .single (.env .release)
  | envUpdate => exact ifOwner_next_eq h ▸ envUpdate_moves s
  | metUpdate => exact ifOwner_next_eq h ▸ (SameUnits.withMet ..).moves
  | tsAccent => exact ifOwner_next_eq h ▸ (SameUnits.withRes ..).moves
  | metGetBeatIndex =>
    obtain ⟨-, h⟩ := (ifOwner_next_iff ..).mp h
    split at h <;> cases h
    exact (SameUnits.withRes ..).moves
  | qTryPush =>
    simp only [exec, execQTryPush] at h
    split at h
    · cases h
    · exact (tryPush_sameUnits ((done_next_iff ..).mp ((ifOwner_next_iff ..).mp h).2)).moves
  | qTryPop =>
    simp only [exec, execQTryPop] at h
    split at h
    · cases h
    · exact (tryPop_sameUnits ((done_next_iff ..).mp ((ifOwner_next_iff ..).mp h).2)).moves
  | qFill =>
    obtain ⟨-, h⟩ := (ifOwner_next_iff ..).mp h
    split at h <;> cases h
    exact (SameUnits.withAud ..).moves
  | fftTransform => exact transform_moves ((done_next_iff ..).mp ((ifOwner_next_iff ..).mp h).2)
  | fftMag =>
    obtain ⟨-, h⟩ := (ifOwner_next_iff ..).mp h
    obtain ⟨es, -, rfl⟩ := magnitudes_ok ((done_next_iff ..).mp h)
    exact (SameUnits.withRes ..).moves
  | ctrRead => exact execCtrRead_moves h

/-! ## The steps of SYN -/

/-- A drain step counts the word popped, then executes it, or ends the drain (R261, R262). -/
theorem drainStep_moves {s t : State} (h : drainStep s = .next t) : UnitMoves s t := by
  rcases drainStep_next h with ⟨-, rfl⟩ | ⟨hd, u, hu, hx⟩
  · exact .single (.syn .endDrain)
  · have hpop := tryPop_sameUnits hu
    rcases hx with ⟨-, rfl⟩ | ⟨-, hx⟩
    · exact hpop.moves.tail (.syn .endDrain)
    · have hd' : u.syn.drained ≠ u.cfg.params.cmdCap := by rwa [hpop.syn, hpop.cfg]
      have hcount := hpop.moves.tail (.syn (.countWord hd'))
      rcases executeWord_next hx with ⟨i, -, he⟩ | ⟨e, -, rfl⟩
      · exact hcount.trans (exec_moves he)
      · exact hcount

theorem oscRun_syn (s : State) : (oscRun s).syn = s.syn := by
  obtain ⟨ph, y, h, -⟩ := oscRun_eq s
  rw [h]
  simp

theorem advanceUnits_syn (s : State) : (advanceUnits s).syn = s.syn :=
  (noiseStep_sameUnits (oscRun s)).syn.trans (oscRun_syn s)

theorem advanceUnits_moves (s : State) : UnitMoves s (advanceUnits s) :=
  ((oscRun_moves s).tail (.same (noiseStep_sameUnits _))).trans (envUpdate_moves _)

/-- The first part of a sample step advances the units where the core plays, and then waits to push
(R270). -/
theorem genCompute_moves {s : State} (hg : s.syn.phase = .gen) : UnitMoves s (genCompute s) := by
  unfold genCompute
  split
  · have hg' : (metUpdate s.syn.sampleCount (advanceUnits s)).syn.phase = .gen := by
      rw [metUpdate, State.withMet_syn, advanceUnits_syn, hg]
    exact ((advanceUnits_moves s).tail (.same (.withMet ..))).tail (.syn (.stage _ hg'))
  · exact (SameUnits.withMet ..).moves.tail (.syn (.stage _ hg))

theorem genPushOut_moves {y : F} {s t : State} (hg : s.syn.phase = .gen)
    (h : genPushOut y s = .ok t) : UnitMoves s t := by
  obtain ⟨u, hu, hx⟩ := genPushOut_ok h
  have hpush := tryPush_sameUnits hu
  have hg' : u.syn.phase = .gen := by rw [hpush.syn, hg]
  rcases hx with ⟨-, rfl⟩ | ⟨-, rfl⟩
  · exact hpush.moves.tail (.syn (.stage _ hg'))
  · exact (hpush.moves.tail (.count .outDrops)).tail (.syn (.stage _ hg'))

theorem genPushViz_moves {y : F} {s t : State} (h : genPushViz y s = .ok t) : UnitMoves s t := by
  obtain ⟨u, hu, ⟨-, rfl⟩ | ⟨-, rfl⟩⟩ := genPushViz_ok h
  · exact (tryPush_sameUnits hu).moves.tail (.syn .nextSlot)
  · exact ((tryPush_sameUnits hu).moves.tail (.count .vizDrops)).tail (.syn .nextSlot)

theorem synStep_moves {s t : State} (h : synStep s = .next t) : UnitMoves s t := by
  unfold synStep at h
  split at h
  · exact drainStep_moves h
  · rename_i hg
    rcases genStep_next h with ⟨-, rfl⟩ | ⟨y, -, h⟩ | ⟨y, -, h⟩
    · exact genCompute_moves hg
    · exact genPushOut_moves hg h
    · exact genPushViz_moves h

/-! ## A step, and what every step keeps -/

/-- A reset leaves the units as construction does. -/
theorem construct_sameUnits_resetWith (p : Params) (s : State) :
    SameUnits (construct p) (resetWith p s) := by
  unfold resetWith
  constructor <;> simp

/-- All that a step can do to the units: a construction, or a chain of moves of a core that is not
held. -/
theorem step_moves {s t : State} (h : step s = .next t) :
    (∃ p, SameUnits (construct p) t) ∨ (s.cfg.fault = 0#8 ∧ UnitMoves s t) := by
  rcases step_next_cases h with ⟨p, -, rfl⟩ | ⟨h0, hs⟩
  · exact .inl ⟨p, construct_sameUnits_resetWith p _⟩
  · refine .inr ⟨h0, (SameUnits.takeEvent s).moves.trans ?_⟩
    rcases hs with ⟨-, hs⟩ | ⟨q, side, d, -, rfl⟩ | ⟨a, c, ops, -, hp⟩ | ⟨-, -, hf⟩ | ⟨-, -, rfl⟩
    · exact synStep_moves hs
    · exact (syncStep_sameUnits q side d _).moves
    · rcases presentInOrder_next hp with ⟨-, -, hf⟩ | ⟨i, -, he⟩
      · exact (SameUnits.withAgenda ..).moves.trans (fillSlot_moves hf)
      · exact (SameUnits.withPort ..).moves.trans (exec_moves he)
    · exact fillSlot_moves hf
    · exact .refl

/-- What every move of a core that is not held keeps, a chain of them keeps. -/
theorem UnitMoves.keep {P : State → Prop}
    (hmove : ∀ {s t}, s.cfg.fault = 0#8 → UnitMove s t → P s → P t) {s t : State}
    (h : UnitMoves s t) (h0 : s.cfg.fault = 0#8) (hs : P s) : P t := by
  induction h with
  | refl => exact hs
  | tail hchain hlast ih => exact hmove ((congrArg Cfg.fault (UnitMoves.cfg hchain)).trans h0) hlast ih

/-- What holds at every construction, and is kept where the units are the same and by every move of a
core that is not held, is kept by every step. -/
theorem step_keeps {P : State → Prop} (hconstruct : ∀ p, P (construct p))
    (hsame : ∀ {s t}, SameUnits s t → P s → P t)
    (hmove : ∀ {s t}, s.cfg.fault = 0#8 → UnitMove s t → P s → P t) {s t : State} (hs : P s)
    (h : step s = .next t) : P t := by
  rcases step_moves h with ⟨p, hp⟩ | ⟨h0, hm⟩
  · exact hsame hp (hconstruct p)
  · exact hm.keep hmove h0 hs

end Sys2Proof.Machine
end

section
/-!
PROOFS. What every step keeps of the units' registers, each invariant by `step_keeps`: it holds at
construction, it speaks of the units alone, and each move of its own unit keeps it (10_state R24, R25,
R29, R40 to R42, 42_envelope R170, 60_exceptions R312).
-/

namespace Sys2Proof.Machine

/-! ## The phase (10_state R25) -/

theorem phaseInv_construct (p : Params) : PhaseInv (construct p) := by
  have hzero : fge posZero posZero = true ∧ flt posZero one = true := by decide
  rw [construct_eq]
  exact hzero

theorem SameUnits.phaseInv {s t : State} (h : SameUnits s t) (hs : PhaseInv s) : PhaseInv t := by
  unfold PhaseInv
  rw [h.osc]
  exact hs

/-- Only ADVANCE writes the phase, and `fmod1` lies in `[0,1)` (40_oscillator R129). -/
theorem UnitMove.phaseInv {s t : State} (h : UnitMove s t) (hs : PhaseInv s) : PhaseInv t := by
  cases h with
  | same h => exact h.phaseInv hs
  | osc h =>
    cases h with
    | advance => exact fmod1_range _
    | frequency | wave | square => exact hs
  | env | syn | count | readByAud | readByVis | fft => exact hs

/-! ## The duty (10_state R24) -/

/-- Of two values that are no NaN, one is at or above the other where it is not below it. -/
theorem fge_of_not_flt {a b : F} (ha : isNaN a = false) (hb : isNaN b = false)
    (h : flt a b = false) : fge a b = true := by
  simpa [flt, fge, ordered, ha, hb] using h

/-- `fle` is `fge` with its operands exchanged. -/
theorem fle_eq_fge (a b : F) : fle a b = fge b a := by
  simp only [fle, fge, ordered, Bool.and_comm]

/-- A clamped duty lies in `[0,1]` (40_oscillator R122). -/
theorem dutyInRange_clampDuty {d : F} (hd : isNaN d = false) : dutyInRange (clampDuty d) = true := by
  rcases clampDuty_cases d with ⟨-, h⟩ | ⟨-, h⟩ | ⟨hlow, hhigh, h⟩ <;> rw [h]
  · decide
  · decide
  · rw [dutyInRange, fle_eq_fge, fge_of_not_flt hd (by decide) hlow,
      fge_of_not_flt (by decide) hd hhigh]
    rfl

theorem dutyInv_construct (p : Params) : DutyInv (construct p) := by
  rw [construct_eq]
  exact id

theorem SameUnits.dutyInv {s t : State} (h : SameUnits s t) (hs : DutyInv s) : DutyInv t := by
  unfold DutyInv
  rw [h.osc, h.cfg]
  exact hs

/-- Only SET_WAVE_TYPE for Square writes the duty, clamped. -/
theorem UnitMove.dutyInv {s t : State} (h : UnitMove s t) (hs : DutyInv s) : DutyInv t := by
  cases h with
  | same h => exact h.dutyInv hs
  | osc h =>
    cases h with
    | square d hd => exact fun _ => dutyInRange_clampDuty hd
    | frequency | wave | advance => exact hs
  | env | syn | count | readByAud | readByVis | fft => exact hs

/-! ## The envelope (10_state R29, 42_envelope R170) -/

/-- ENV.UPDATE either leaves the registers of a state without a segment, or goes along a segment, whose
next state is not Sustain (42_envelope R161, R165). -/
theorem updateEnv_cases (p : Params) (e : Env) :
    ((e.state = .idle ∨ e.state = .sustain) ∧ updateEnv p e = e) ∨
    (e.state ≠ .idle ∧ ∃ g, g.next ≠ .sustain ∧ updateEnv p e = updateAlong g e) := by
  cases h : e.state with
  | idle => exact .inl ⟨.inl rfl, updateEnv_at_rest p (.inl h)⟩
  | sustain => exact .inl ⟨.inr rfl, updateEnv_at_rest p (.inr h)⟩
  | attack | decay | release =>
    refine .inr ⟨by simp, _, ?_, by simp only [updateEnv, segmentOf, h]; rfl⟩
    simp

/-- Idle is entered only at the end of a segment, with the volume at `+0.0` (42_envelope R165). -/
theorem EnvMove.idle_silent {p : Params} {e e' : Env} (h : EnvMove p e e')
    (he : e.state = .idle → e.volume = posZero) : e'.state = .idle → e'.volume = posZero := by
  cases h with
  | press => simp [(pressEnv_state p e).1]
  | release =>
    rcases releaseEnv_cases p e with h | ⟨-, -, h⟩ <;> rw [h]
    · exact he
    · simp
  | update =>
    rcases updateEnv_cases p e with ⟨-, h⟩ | ⟨hidle, g, -, h⟩ <;> rw [h]
    · exact he
    · rcases updateAlong_cases g e with ⟨-, hnext, -, hvol⟩ | ⟨-, hstay, -⟩
      · rw [hnext]
        exact hvol
      · rw [hstay]
        exact fun hi => absurd hi hidle

/-- No operation enters Sustain (42_envelope R170). -/
theorem EnvMove.not_sustain {p : Params} {e e' : Env} (h : EnvMove p e e')
    (he : e.state ≠ .sustain) : e'.state ≠ .sustain := by
  cases h with
  | press => simp [(pressEnv_state p e).1]
  | release =>
    rcases releaseEnv_cases p e with h | ⟨-, -, h⟩ <;> rw [h]
    · exact he
    · simp
  | update =>
    rcases updateEnv_cases p e with ⟨-, h⟩ | ⟨-, g, hg, h⟩ <;> rw [h]
    · exact he
    · rcases updateAlong_cases g e with ⟨-, hnext, -, -⟩ | ⟨-, hstay, -⟩
      · rwa [hnext]
      · rwa [hstay]

theorem idleSilent_construct (p : Params) : IdleSilent (construct p) := by
  rw [construct_eq]
  exact fun _ => rfl

theorem SameUnits.idleSilent {s t : State} (h : SameUnits s t) (hs : IdleSilent s) :
    IdleSilent t := by
  unfold IdleSilent
  rw [h.env]
  exact hs

theorem UnitMove.idleSilent {s t : State} (h : UnitMove s t) (hs : IdleSilent s) :
    IdleSilent t := by
  cases h with
  | same h => exact h.idleSilent hs
  | env h => exact h.idle_silent hs
  | osc | syn | count | readByAud | readByVis | fft => exact hs

theorem neverSustain_construct (p : Params) : NeverSustain (construct p) := by
  rw [construct_eq]
  exact fun h => nomatch h

theorem SameUnits.neverSustain {s t : State} (h : SameUnits s t) (hs : NeverSustain s) :
    NeverSustain t := by
  unfold NeverSustain
  rw [h.env]
  exact hs

theorem UnitMove.neverSustain {s t : State} (h : UnitMove s t) (hs : NeverSustain s) :
    NeverSustain t := by
  cases h with
  | same h => exact h.neverSustain hs
  | env h => exact h.not_sustain hs
  | osc | syn | count | readByAud | readByVis | fft => exact hs

/-! ## The sequencer (10_state R40) -/

/-- A core that passed the check has blocks of at least one sample. -/
theorem SynInv.blockSize_pos {s : State} (hs : SynInv s) (h0 : s.cfg.fault = 0#8) :
    0 < s.cfg.params.blockSize :=
  (sizes_of_no_fault (hs.cfg.symm.trans h0)).2.1

/-- The invariant speaks of the configuration and of SYN's registers alone. -/
theorem SynInv.congr {s t : State} (hcfg : t.cfg = s.cfg) (hsyn : t.syn = s.syn) (hs : SynInv s) :
    SynInv t := by
  obtain ⟨hc, hpos, hlt, hdr, hstage⟩ := hs
  unfold CfgInv at hc
  constructor <;> simpa only [CfgInv, hcfg, hsyn]

/-- The end of a sample step: the next position, or Drain at the end of the block (46_sequencer_commands
R270). -/
theorem nextSlot_pos_lt {p : Params} {x : Syn} (h : x.pos < p.blockSize) :
    (nextSlot p x).pos < p.blockSize := by
  simp only [nextSlot]
  split <;> omega

/-- Every move of SYN at a core that is not held keeps the ranges. -/
theorem SynMove.synInv {s : State} {x : Syn} (h : SynMove s.cfg.params s.syn x)
    (h0 : s.cfg.fault = 0#8) (hs : SynInv s) : SynInv (s.withSyn x) := by
  have hpos := hs.pos_lt h0
  cases h with
  | running | noise => exact ⟨hs.cfg, hs.pos_le, hs.pos_lt, hs.drained_le, hs.stage⟩
  | countWord hd =>
    exact ⟨hs.cfg, hs.pos_le, hs.pos_lt, Nat.lt_of_le_of_ne hs.drained_le hd, hs.stage⟩
  | endDrain =>
    exact ⟨hs.cfg, Nat.zero_le _, fun _ => hs.blockSize_pos h0, Nat.zero_le _, fun h => nomatch h⟩
  | stage g hg =>
    exact ⟨hs.cfg, hs.pos_le, hs.pos_lt, hs.drained_le, fun h => nomatch hg.symm.trans h⟩
  | nextSlot =>
    have hnext := nextSlot_pos_lt hpos
    exact ⟨hs.cfg, hnext.le, fun _ => hnext, hs.drained_le, fun _ => rfl⟩

theorem synInv_construct (p : Params) : SynInv (construct p) := by
  rw [construct_eq]
  exact ⟨rfl, Nat.zero_le _, fun h0 => (sizes_of_no_fault h0).2.1, Nat.zero_le _, fun _ => rfl⟩

theorem UnitMove.synInv {s t : State} (h0 : s.cfg.fault = 0#8) (h : UnitMove s t) (hs : SynInv s) :
    SynInv t := by
  cases h with
  | same h => exact hs.congr h.cfg h.syn
  | syn h => exact h.synInv h0 hs
  | osc | env | count | readByAud | readByVis | fft => exact SynInv.congr (by simp) (by simp) hs

/-! ## The readers (60_exceptions R312) -/

/-- Every counter of one record is at most that of the other. -/
def Counters.Le (c d : Counters) : Prop := ∀ k, (c.get k).toNat ≤ (d.get k).toNat

theorem readerInv_iff (s : State) : ReaderInv s ↔ s.audSeen.Le s.ctr ∧ s.visSeen.Le s.ctr :=
  forall_and

/-- Counting on one counter leaves a record below where it was (10_state R42). -/
theorem Counters.Le.set_satInc {c d : Counters} (h : c.Le d) (k : CounterId) :
    c.Le (d.set k (satInc (d.get k))) := by
  intro j
  by_cases hj : j = k
  · subst hj
    rw [Counters.set_get_same]
    exact (h j).trans (satInc_ge _)
  · rw [Counters.set_get_other _ _ hj]
    exact h j

/-- A count that is read is not newer than the counter (60_exceptions R312). -/
theorem Counters.Le.set_staleCount {c d : Counters} (h : c.Le d) (k : CounterId) (raw : Nat) :
    (c.set k (staleCount raw (c.get k) (d.get k))).Le d := by
  intro j
  by_cases hj : j = k
  · subst hj
    rw [Counters.set_get_same]
    exact (staleCount_between raw (h j)).2
  · rw [Counters.set_get_other _ _ hj]
    exact h j

theorem readerInv_construct (p : Params) : ReaderInv (construct p) := by
  rw [construct_eq]
  exact fun _ => ⟨Nat.le_refl _, Nat.le_refl _⟩

theorem SameUnits.readerInv {s t : State} (h : SameUnits s t) (hs : ReaderInv s) :
    ReaderInv t := by
  unfold ReaderInv
  rw [h.audSeen, h.visSeen, h.ctr]
  exact hs

theorem UnitMove.readerInv {s t : State} (h : UnitMove s t) (hs : ReaderInv s) : ReaderInv t := by
  obtain ⟨haud, hvis⟩ := (readerInv_iff s).mp hs
  cases h with
  | same h => exact h.readerInv hs
  | count k => exact (readerInv_iff _).mpr ⟨haud.set_satInc k, hvis.set_satInc k⟩
  | readByAud k raw => exact (readerInv_iff _).mpr ⟨haud.set_staleCount k raw, hvis⟩
  | readByVis k raw => exact (readerInv_iff _).mpr ⟨haud, hvis.set_staleCount k raw⟩
  | osc | env | syn | fft => exact hs

/-! ## The FFT (10_state R41) -/

theorem fftInv_construct (p : Params) : FftInv (construct p) := by
  rw [construct_eq]
  exact ⟨Nat.zero_le _, fun k hk => absurd hk (Nat.not_lt_zero k)⟩

theorem SameUnits.fftInv {s t : State} (h : SameUnits s t) (hs : FftInv s) : FftInv t := by
  unfold FftInv
  simp only [h.fftN, h.cfg, h.fftA]
  exact hs

theorem UnitMove.fftInv {s t : State} (h : UnitMove s t) (hs : FftInv s) : FftInv t := by
  cases h with
  | same h => exact h.fftInv hs
  | fft m n hn hm => exact ⟨hn, hm⟩
  | osc | env | syn | count | readByAud | readByVis => exact hs

/-! ## Storage and queues at construction (10_state R37, R38, R45) -/

theorem memInv_construct (p : Params) : MemInv (construct p) := by
  rw [construct_eq]
  exact Memory.unwritten_wf

/-- Empty queues of any capacity meet the order of the cursors. -/
theorem cursorsOk_atReset {C : Nat} (hC : 0 < C) : CursorsOk C cursorsAtReset := by
  have h0 : modSub 0 0 (2 * C) = 0 := by simp [modSub]
  constructor <;> simp only [cursorsAtReset, availC, occ, occP, h0] <;> omega

theorem queueInv_construct (p : Params) : QueueInv (construct p) := by
  rw [construct_eq]
  refine ⟨rfl, fun h0 q => ?_⟩
  have hcur : ((State.atReset p).withCfg ⟨p, faultCode p⟩).cur q = cursorsAtReset := by
    cases q <;> rfl
  have hocc : occ (p.cap q) cursorsAtReset = 0 := by simp [occ, modSub, cursorsAtReset]
  rw [hcur]
  refine ⟨cursorsOk_atReset ((sizes_of_no_fault h0).1 q), fun k hk => ?_⟩
  exact absurd (hk.trans_eq hocc) (Nat.not_lt_zero k)

/-- Set G passes the construction check: `State.reset` is a construction (95_test_vectors V-X2). -/
theorem construct_setG : construct Params.setG = State.reset := by
  have hcode : faultCode Params.setG = 0#8 := by decide
  rw [construct_eq, hcode]
  rfl

end Sys2Proof.Machine

namespace Sys2Proof.Proofs
open Sys2Proof Sys2Proof.Machine

/-- Settles O52: only ADVANCE writes the phase, and it writes an `fmod1`. -/
theorem stepsKeepPhaseInRange : Obligations.StepsKeepPhaseInRange := fun _ _ =>
  step_keeps phaseInv_construct SameUnits.phaseInv fun _ => UnitMove.phaseInv

/-- Settles O53: only SET_WAVE_TYPE writes the duty, and it writes a clamped value that is no NaN. -/
theorem stepsKeepDutyInRange : Obligations.StepsKeepDutyInRange := fun _ _ =>
  step_keeps dutyInv_construct SameUnits.dutyInv fun _ => UnitMove.dutyInv

/-- Settles O54, one clause each. -/
theorem stepsKeepEnvelopeStates : Obligations.StepsKeepEnvelopeStates :=
  ⟨fun _ _ => step_keeps idleSilent_construct SameUnits.idleSilent fun _ => UnitMove.idleSilent,
   fun _ _ => step_keeps neverSustain_construct SameUnits.neverSustain fun _ => UnitMove.neverSustain⟩

/-- Settles O55; the end of a sample step needs a core that is not held. -/
theorem stepsKeepSequencerInRange : Obligations.StepsKeepSequencerInRange := fun _ _ =>
  step_keeps synInv_construct (fun h hs => hs.congr h.cfg h.syn) UnitMove.synInv

/-- Settles O56: counters only grow, and a read is not newer than its counter. -/
theorem stepsKeepReadersBehind : Obligations.StepsKeepReadersBehind := fun _ _ =>
  step_keeps readerInv_construct SameUnits.readerInv fun _ => UnitMove.readerInv

/-- Settles O57: a transform that completes has just read its result. -/
theorem stepsKeepFftReadable : Obligations.StepsKeepFftReadable := fun _ _ =>
  step_keeps fftInv_construct SameUnits.fftInv fun _ => UnitMove.fftInv

/-- Settles O15. -/
theorem resetTable : Obligations.ResetTable := by
  intro p hduty
  rw [construct_eq]
  have hosc : oscAtReset p = ⟨0#32, .sine, 0x3F000000#32, 0#32⟩ := by rw [oscAtReset, hduty]; rfl
  exact ⟨hosc, rfl, rfl, rfl, rfl, fun q => by cases q <;> rfl, Memory.get_unwritten, rfl, rfl, rfl,
    rfl, rfl, rfl, rfl, rfl, rfl⟩

/-- Settles O58; `State.reset` is the construction with set G. -/
theorem invariantsHoldAtReset : Obligations.InvariantsHoldAtReset := by
  intro s hs
  obtain ⟨p, rfl⟩ : ∃ p, s = construct p :=
    hs.elim (fun h => ⟨_, h.trans construct_setG.symm⟩) id
  exact ⟨memInv_construct p, queueInv_construct p, phaseInv_construct p, dutyInv_construct p,
    idleSilent_construct p, neverSustain_construct p, synInv_construct p, readerInv_construct p,
    fftInv_construct p⟩

end Sys2Proof.Proofs
end

section
/-!
PROOFS. Why no step meets a fault of the memory (20_memory R61): a push writes inside its ring, a pop
reads an element that the invariant of its queue says was written, and the FFT reads what it has loaded.
-/

namespace Sys2Proof.Machine

/-! ## The invariant of one queue (10_state R37, R38) -/

/-- The cursors of a queue are in order, and its elements not yet popped were written. -/
def QueueOk (s : State) (q : QueueId) : Prop :=
  CursorsOk (s.cap q) (s.cur q) ∧ RingWritten (s.cap q) (s.cur q) s.mem q

theorem QueueInv.queueOk {s : State} (h : QueueInv s) (h0 : s.cfg.fault = 0#8) (q : QueueId) :
    QueueOk s q := h.2 h0 q

theorem SameQueues.queueOk {s t : State} (h : SameQueues s t) {q : QueueId} (hs : QueueOk s q) :
    QueueOk t q := by
  unfold QueueOk RingWritten
  simp only [h.cap, h.cur, h.mem]
  exact hs

/-- The oldest element of a queue that is not empty was written, at the place of the read cursor. -/
theorem QueueOk.oldest_written {s : State} {q : QueueId} (h : QueueOk s q)
    (he : emptyC (s.cap q) (s.cur q) = false) :
    ∃ e, s.mem.get (.ring q) ((s.cur q).r % s.cap q) = some e := by
  obtain ⟨hc, hw⟩ := h
  have hocc : 0 < occ (s.cap q) (s.cur q) := by
    rw [(hc.pop he).2]
    exact Nat.succ_pos _
  have hslot : slotIndex (s.cap q) (s.cur q) 0 = (s.cur q).r % s.cap q := by
    rw [slotIndex, advance, Nat.add_zero, Nat.mod_eq_of_lt hc.r_lt]
  exact Option.isSome_iff_exists.mp (hslot ▸ hw 0 hocc)

/-! ## The queue operations do not fault -/

/-- Q.TRY_POP on a queue with its invariant never faults (44_fifo R208). -/
theorem tryPop_no_fault {q : QueueId} {s : State} (h : QueueOk s q) (f : Fault) :
    tryPop q s ≠ .error f := by
  unfold tryPop
  simp only
  split
  · simp
  · rename_i he
    obtain ⟨e, hg⟩ := h.oldest_written (by simpa using he)
    have hcap : 0 < s.cap q := by
      have := h.1.r_lt
      omega
    have hr : readElem s.cfg.params s.mem (.ring q) ((s.cur q).r % s.cap q) = .ok e :=
      (readElem_ok_iff ..).mpr ⟨Nat.mod_lt _ hcap, hg⟩
    rw [hr]
    simp

theorem fillSlot_no_fault {s : State} (h : QueueOk s .out) (f : Fault) : fillSlot s ≠ .error f := by
  unfold fillSlot
  split
  · rename_i g hg
    exact absurd hg (tryPop_no_fault h g)
  · simp

/-! ## The FFT does not fault -/

theorem padded_length {n : Nat} {x : List Elem} (h : x.length ≤ n) : (padded n x).length = n := by
  simp [padded, h]

theorem padded_getElem? {n k : Nat} {x : List Elem} (h : x.length ≤ n) (hk : k < n) :
    (padded n x)[k]? = some (x.getD k (Complex.pack ⟨posZero, posZero⟩)) := by
  unfold padded
  by_cases hx : k < x.length
  · simp [List.getElem?_append_left hx, hx]
  · have hrest : k - x.length < n - x.length := by omega
    simp [List.getElem?_append_right (not_lt.mp hx), hrest, hx]

/-- A buffer that the padded input was loaded into holds it, as complex values (45_fft R233). -/
theorem holds_padded {m : Memory} {a : ArrayId} {n : Nat} {x : List Elem} (h : x.length ≤ n)
    (hm : ∀ k < n, m.get a k = some (x.getD k (Complex.pack ⟨posZero, posZero⟩))) :
    Holds m a 0 1 ((padded n x).map Complex.unpack) := by
  intro k z hz
  have hk : k < n := by
    simpa [padded_length h] using (List.getElem?_eq_some_iff.mp hz).1
  rw [List.getElem?_map, padded_getElem? h hk, Option.map_some, Option.some.injEq] at hz
  rw [Nat.zero_add, Nat.mul_one, hm k hk, ← hz, Complex.pack_unpack]

/-- The three parts of a transform complete on every input that fits (45_fft R233 to R236). -/
theorem transform_parts_complete (p : Params) {x : List Elem} (m : Memory) (hx : x.length ≠ 0)
    (hN : paddedLength x.length ≤ p.fftMaxN) :
    ∃ m₁ m₂ xs, loadInput p x (paddedLength x.length) 0 m = .ok m₁ ∧
      fftRec p (Nat.log2 (paddedLength x.length) + 1) .fftA .fftB 0 (paddedLength x.length) 1 m₁
        = .ok m₂ ∧
      readRun p m₂ .fftA (paddedLength x.length) 0 = .ok xs := by
  obtain ⟨hpow, hle⟩ := paddedLength_pow hx
  generalize paddedLength x.length = N at *
  obtain ⟨m₁, hload, hloaded, -⟩ := loadInput_spec p x N 0 m (by omega)
  have hbuf : ∀ b, isFft b → ∀ k < N, m₁.get b k = some (x.getD k _) := fun b hb k hk =>
    hloaded b k hb (Nat.zero_le k) (by omega)
  obtain ⟨m₂, hrec, -, -⟩ := fftRec_spec p hN (Nat.log2 N) (Nat.log2 N + 1) 0 .fftA .fftB 0
    ((padded N x).map Complex.unpack) m₁ (.inl rfl) (.inr rfl) (by simp) (by simpa using hpow)
    (Nat.le_succ _) (by simp) (by simpa [padded_length hle] using hpow)
    (holds_padded hle (hbuf _ (.inl rfl))) (holds_padded hle (hbuf _ (.inr rfl)))
  obtain ⟨xs, hread⟩ := readRun_total (p := p) (m := m₂) (a := .fftA) N 0
    (by simpa [arraySize] using hN) fun k hk => by
      have hwritten : (m₁.get .fftA (0 + k)).isSome = true := by
        rw [Nat.zero_add, hbuf _ (.inl rfl) k hk]
        rfl
      exact (fftRec_only _ hrec).keeps _ _ hwritten
  exact ⟨m₁, m₂, xs, hload, hrec, hread⟩

/-- FFT.TRANSFORM never faults, whatever the buffers hold (45_fft R231 to R236). -/
theorem transform_no_fault (x : List Elem) (s : State) (f : Fault) : transform x s ≠ .error f := by
  unfold transform
  simp only
  split
  · simp
  · rename_i hx
    split
    · simp
    · rename_i hN
      obtain ⟨m₁, m₂, xs, hload, hrec, hread⟩ :=
        transform_parts_complete s.cfg.params s.mem hx (not_lt.mp hN)
      simp [hload, hrec, hread]

/-- FFT.MAG never faults on a readable result (45_fft R238). -/
theorem magnitudes_no_fault {s : State} (h : FftInv s) (f : Fault) : magnitudes s ≠ .error f := by
  obtain ⟨hsize, hwritten⟩ := h
  have hfits : 0 + s.fftN / 2 ≤ arraySize s.cfg.params .fftA := by
    simp only [arraySize]
    omega
  obtain ⟨es, hes⟩ := readRun_total (p := s.cfg.params) (s.fftN / 2) 0 hfits fun k hk =>
    hwritten (0 + k) (by omega)
  simp [magnitudes, hes]

/-! ## The instructions -/

theorem setFrequency_no_fault (x : F) (s : State) (f : Fault) : setFrequency x s ≠ .fault f := by
  unfold setFrequency
  split <;> simp

theorem setWaveType_no_fault (w : BitVec 8) (d : F) (s : State) (f : Fault) :
    setWaveType w d s ≠ .fault f := by
  unfold setWaveType
  split
  case h_2 => split <;> simp
  all_goals simp

theorem execCtrRead_no_fault (s : State) (f : Fault) : execCtrRead s ≠ .fault f := by
  unfold execCtrRead
  split
  · simp
  · split <;> simp

/-- Of the instructions only Q.TRY_POP and FFT.MAG can fault: the others read no element that they have
not written themselves. -/
theorem exec_fault_cases {i : Instr} {s : State} {f : Fault} (h : exec i s = .fault f) :
    (i = .qTryPop ∧ ∃ q, tryPop q s = .error f) ∨ (i = .fftMag ∧ magnitudes s = .error f) := by
  cases i with
  | start | stop | pressed | released => cases h
  | changeFrequency => exact absurd h (setFrequency_no_fault _ _ _)
  | changeOscillator => exact absurd h (setWaveType_no_fault _ _ _ _)
  | changeNoise =>
    simp only [exec, execChangeNoise] at h
    split at h <;> cases h
  | oscSetFrequency =>
    exact absurd ((ifOwner_fault_iff ..).mp h).2 (setFrequency_no_fault _ _ _)
  | oscSetWaveType =>
    exact absurd ((ifOwner_fault_iff ..).mp h).2 (setWaveType_no_fault _ _ _ _)
  | oscRun | noiseUniform | noiseGaussian | envPress | envRelease | envUpdate | metUpdate
  | tsAccent =>
    exact nomatch ((ifOwner_fault_iff ..).mp h).2
  | metGetBeatIndex | qFill =>
    have h := ((ifOwner_fault_iff ..).mp h).2
    split at h <;> cases h
  | qTryPush =>
    simp only [exec, execQTryPush] at h
    split at h
    · cases h
    · have h := (done_fault_iff ..).mp ((ifOwner_fault_iff ..).mp h).2
      exact absurd h (tryPush_no_fault _ _ _ _)
  | qTryPop =>
    simp only [exec, execQTryPop] at h
    split at h
    · cases h
    · exact .inl ⟨rfl, _, (done_fault_iff ..).mp ((ifOwner_fault_iff ..).mp h).2⟩
  | fftTransform =>
    have h := (done_fault_iff ..).mp ((ifOwner_fault_iff ..).mp h).2
    exact absurd h (transform_no_fault _ _ _)
  | fftMag => exact .inr ⟨rfl, (done_fault_iff ..).mp ((ifOwner_fault_iff ..).mp h).2⟩
  | ctrRead => exact absurd h (execCtrRead_no_fault _ _)

theorem exec_no_fault {i : Instr} {s : State} (hq : ∀ q, QueueOk s q) (hfft : FftInv s)
    (f : Fault) : exec i s ≠ .fault f := by
  intro h
  rcases exec_fault_cases h with ⟨-, q, h⟩ | ⟨-, h⟩
  · exact tryPop_no_fault (hq q) f h
  · exact magnitudes_no_fault hfft f h

/-- A command word is never a pop or FFT.MAG, so that no command faults (46_sequencer_commands R263 to
R269). -/
theorem executeWord_no_fault (w : CmdWord) (s : State) (f : Fault) : executeWord w s ≠ .fault f := by
  unfold executeWord
  split
  · rename_i i hi
    intro h
    rcases exec_fault_cases h with ⟨rfl, -⟩ | ⟨rfl, -⟩ <;> unfold decodeCmd at hi <;>
      split at hi <;> cases hi
  · simp

/-! ## The steps -/

theorem drainStep_no_fault {s : State} (h : QueueOk s .cmd) (f : Fault) :
    drainStep s ≠ .fault f := by
  unfold drainStep
  split
  · simp
  · split
    · rename_i g hg
      exact absurd hg (tryPop_no_fault h g)
    · split
      · exact executeWord_no_fault _ _ f
      · simp

theorem genPushOut_no_fault (y : F) (s : State) (f : Fault) : genPushOut y s ≠ .error f := by
  unfold genPushOut
  split
  · rename_i g hg
    exact absurd hg (tryPush_no_fault _ _ _ g)
  · simp

theorem genPushViz_no_fault (y : F) (s : State) (f : Fault) : genPushViz y s ≠ .error f := by
  unfold genPushViz
  split
  · rename_i g hg
    exact absurd hg (tryPush_no_fault _ _ _ g)
  · simp

theorem synStep_no_fault {s : State} (h : QueueOk s .cmd) (f : Fault) : synStep s ≠ .fault f := by
  unfold synStep
  split
  · exact drainStep_no_fault h f
  · unfold genStep
    split
    · simp
    · exact fun he => genPushOut_no_fault _ _ f ((done_fault_iff ..).mp he)
    · exact fun he => genPushViz_no_fault _ _ f ((done_fault_iff ..).mp he)

/-- An agent's operation reads the memory of the state as it is but for the agenda or the ports. -/
theorem presentInOrder_no_fault {a : Agent} {c : UopCode} {ops : Operands} {s : State}
    (hq : ∀ q, QueueOk s q) (hfft : FftInv s) (f : Fault) :
    presentInOrder a c ops s ≠ .fault f := by
  unfold presentInOrder
  split
  · have hsame : SameQueues s (s.withAgenda (.uop a c ops :: s.agenda)) :=
      .of_fields rfl rfl rfl rfl rfl
    exact fun he => fillSlot_no_fault (hsame.queueOk (hq .out)) f ((done_fault_iff ..).mp he)
  · unfold present
    split
    · have hsame : SameQueues s (s.withPort ⟨a, ops⟩) := .of_fields rfl rfl rfl rfl rfl
      exact exec_no_fault (fun q => hsame.queueOk (hq q)) ((SameUnits.withPort ..).fftInv hfft) f
    · simp

/-- No event at a core that is not held faults. -/
theorem runAgent_no_fault {e : Event} {s : State} (hq : ∀ q, QueueOk s q) (hfft : FftInv s)
    (f : Fault) : runAgent e s ≠ .fault f := by
  cases e with
  | syn => exact synStep_no_fault (hq .cmd) f
  | sync | reset => exact fun h => nomatch h
  | uop a c ops => exact presentInOrder_no_fault hq hfft f
  | fillSlot =>
    simp only [runAgent]
    split
    · exact fun he => fillSlot_no_fault (hq .out) f ((done_fault_iff ..).mp he)
    · simp

/-- An event faults as the stuck core (60_exceptions R302), or as its agent does at a core that is not
held. -/
theorem runEvent_fault {e : Event} {s : State} {f : Fault} (h : runEvent e s = .fault f) :
    f = .held s.cfg.fault ∨ (s.cfg.fault = 0#8 ∧ runAgent e s = .fault f) := by
  unfold runEvent at h
  split at h
  case h_1 => cases h
  all_goals
    split at h
    · cases h
      exact .inl rfl
    · rename_i hheld
      exact .inr ⟨not_not.mp fun h0 => hheld ((isHeld_iff s).mpr h0), h⟩

end Sys2Proof.Machine

namespace Sys2Proof.Proofs
open Sys2Proof Sys2Proof.Machine

/-- Settles O59: at a core that is not held every read of memory finds what was written. -/
theorem noStepFaultsOnMemory : Obligations.NoStepFaultsOnMemory := by
  intro s hq hfft f hf
  rcases runEvent_fault hf with rfl | ⟨h0, hf⟩
  · exact ⟨_, rfl⟩
  · have hqueues : ∀ q, QueueOk (takeEvent s) q := fun q =>
      (takeEvent_same s).queueOk (hq.queueOk h0 q)
    exact absurd hf (runAgent_no_fault hqueues ((SameUnits.takeEvent s).fftInv hfft) f)

end Sys2Proof.Proofs
end

section
/-!
PROOFS. The storage (20_memory R60, R61): what a write and a read do, and the canonical form of the
arrays under every step. Only a push and a transform write to an array.
-/

namespace Sys2Proof.Machine

/-! ## Reads -/

/-- A read sees of the arrays only the element it names. -/
theorem readElem_congr (p : Params) {m m' : Memory} {a : ArrayId} {i : Nat}
    (h : m'.get a i = m.get a i) : readElem p m' a i = readElem p m a i := by
  unfold readElem
  rw [h]

theorem readElem_unwritten (p : Params) {m : Memory} {a : ArrayId} {i : Nat}
    (hi : i < arraySize p a) (h : m.get a i = none) :
    readElem p m a i = .error (.unwrittenElement a i) := by
  simp [readElem, hi, h]

theorem readElem_outside (p : Params) (m : Memory) {a : ArrayId} {i : Nat}
    (h : arraySize p a ≤ i) : readElem p m a i = .error (.outsideArray a i) :=
  if_neg (not_lt.mpr h)

theorem writeElem_outside (p : Params) (m : Memory) {a : ArrayId} {i : Nat} (v : Elem)
    (h : arraySize p a ≤ i) : writeElem p m a i v = .error (.outsideArray a i) :=
  if_neg (not_lt.mpr h)

/-! ## The arrays under the operations -/

/-- An accepted push writes one element; a refused one writes none (44_fifo R206, R207). -/
theorem tryPush_mem {q : QueueId} {v : Elem} {s t : State} (h : tryPush q v s = .ok t) :
    t.mem = s.mem ∨ t.mem = s.mem.put (.ring q) ((s.cur q).w % s.cap q) v := by
  rcases tryPush_ok h with ⟨-, rfl⟩ | ⟨-, -, rfl⟩
  · exact .inl rfl
  · exact .inr (by simp)

theorem tryPush_memInv {q : QueueId} {v : Elem} {s t : State} (h : tryPush q v s = .ok t)
    (hs : MemInv s) : MemInv t := by
  unfold MemInv
  rcases tryPush_mem h with h | h <;> rw [h]
  · exact hs
  · exact Memory.wf_put _ _ _ _ hs

theorem tryPop_mem {q : QueueId} {s t : State} (h : tryPop q s = .ok t) : t.mem = s.mem := by
  rcases tryPop_ok h with ⟨-, rfl⟩ | ⟨e, -, -, -, rfl⟩ <;> simp

theorem fillSlot_mem {s u : State} (h : fillSlot s = .ok u) : u.mem = s.mem := by
  obtain ⟨t, ht, ⟨-, rfl⟩ | ⟨-, rfl⟩⟩ := fillSlot_ok h <;> simp [tryPop_mem ht]

theorem syncStep_mem (q : QueueId) (side : SyncSide) (d : Nat) (s : State) :
    (syncStep q side d s).mem = s.mem := by
  rcases syncStep_cases q side d s with h | ⟨-, -, h⟩ <;> rw [h]
  simp

theorem transform_memInv {x : List Elem} {s t : State} (h : transform x s = .ok t)
    (hs : MemInv s) : MemInv t := by
  rcases transform_ok h with ⟨-, rfl⟩ | ⟨-, -, rfl⟩ | ⟨-, -, m, xs, hm, -, rfl⟩
  · exact hs
  · exact hs
  · exact hm.wf hs

theorem setFrequency_mem {f : F} {s t : State} (h : setFrequency f s = .next t) :
    t.mem = s.mem := by
  obtain ⟨-, rfl⟩ := setFrequency_next h
  rfl

theorem setWaveType_mem {w : BitVec 8} {d : F} {s t : State} (h : setWaveType w d s = .next t) :
    t.mem = s.mem := by
  rcases setWaveType_next h with ⟨-, rfl⟩ | ⟨-, -, rfl⟩ | ⟨k, -, -, rfl⟩ <;> rfl

theorem oscRun_mem (s : State) : (oscRun s).mem = s.mem := by
  obtain ⟨ph, y, h, -⟩ := oscRun_eq s
  rw [h]
  rfl

theorem noiseStep_mem (s : State) : (noiseStep s).mem = s.mem := by
  unfold noiseStep
  split <;> rfl

theorem genCompute_mem (s : State) : (genCompute s).mem = s.mem := by
  unfold genCompute
  split
  · exact (noiseStep_mem _).trans (oscRun_mem s)
  · rfl

/-! ## The arrays under the instructions and the steps -/

/-- No instruction but Q.TRY_PUSH and FFT.TRANSFORM writes to an array. -/
theorem exec_mem {i : Instr} {s t : State} (hpush : i ≠ .qTryPush) (hfft : i ≠ .fftTransform)
    (h : exec i s = .next t) : t.mem = s.mem := by
  cases i with
  | start | stop | pressed | released => cases h; rfl
  | changeFrequency => exact setFrequency_mem h
  | changeOscillator => exact setWaveType_mem h
  | changeNoise =>
    simp only [exec, execChangeNoise] at h
    split at h <;> cases h <;> rfl
  | oscSetFrequency => exact setFrequency_mem ((ifOwner_next_iff ..).mp h).2
  | oscSetWaveType => exact setWaveType_mem ((ifOwner_next_iff ..).mp h).2
  | oscRun => exact ifOwner_next_eq h ▸ oscRun_mem s
  | noiseUniform | noiseGaussian | envPress | envRelease | envUpdate | metUpdate | tsAccent =>
    exact ifOwner_next_eq h ▸ rfl
  | metGetBeatIndex | qFill =>
    obtain ⟨-, h⟩ := (ifOwner_next_iff ..).mp h
    split at h <;> cases h
    rfl
  | qTryPush => exact absurd rfl hpush
  | qTryPop =>
    simp only [exec, execQTryPop] at h
    split at h
    · cases h
    · exact tryPop_mem ((done_next_iff ..).mp ((ifOwner_next_iff ..).mp h).2)
  | fftTransform => exact absurd rfl hfft
  | fftMag =>
    obtain ⟨-, h⟩ := (ifOwner_next_iff ..).mp h
    obtain ⟨es, -, rfl⟩ := magnitudes_ok ((done_next_iff ..).mp h)
    rfl
  | ctrRead =>
    simp only [exec, execCtrRead] at h
    split at h
    · cases h
    · split at h <;> cases h <;> rfl

theorem exec_memInv {i : Instr} {s t : State} (h : exec i s = .next t) (hs : MemInv s) :
    MemInv t := by
  by_cases hpush : i = .qTryPush
  · subst hpush
    simp only [exec, execQTryPush] at h
    split at h
    · cases h
    · exact tryPush_memInv ((done_next_iff ..).mp ((ifOwner_next_iff ..).mp h).2) hs
  by_cases hfft : i = .fftTransform
  · subst hfft
    exact transform_memInv ((done_next_iff ..).mp ((ifOwner_next_iff ..).mp h).2) hs
  unfold MemInv
  rw [exec_mem hpush hfft h]
  exact hs

theorem synStep_memInv {s t : State} (h : synStep s = .next t) (hs : MemInv s) : MemInv t := by
  unfold synStep at h
  split at h
  · rcases drainStep_next h with ⟨-, rfl⟩ | ⟨-, u, hu, hx⟩
    · exact hs
    · have hu' : MemInv u := by rwa [MemInv, tryPop_mem hu]
      rcases hx with ⟨-, rfl⟩ | ⟨-, hx⟩
      · exact hu'
      · rcases executeWord_next hx with ⟨i, -, he⟩ | ⟨e, -, rfl⟩
        · exact exec_memInv he hu'
        · exact hu'
  · rcases genStep_next h with ⟨-, rfl⟩ | ⟨y, -, hg⟩ | ⟨y, -, hg⟩
    · rwa [MemInv, genCompute_mem]
    · obtain ⟨u, hu, hx⟩ := genPushOut_ok hg
      have hu' := tryPush_memInv hu hs
      rcases hx with ⟨-, rfl⟩ | ⟨-, rfl⟩ <;> exact hu'
    · obtain ⟨u, hu, hx⟩ := genPushViz_ok hg
      have hu' := tryPush_memInv hu hs
      rcases hx with ⟨-, rfl⟩ | ⟨-, rfl⟩ <;> exact hu'

/-- Every step keeps the canonical form; a reset leaves nothing written. -/
theorem step_memInv {s t : State} (hs : MemInv s) (h : step s = .next t) : MemInv t := by
  rcases step_next_cases h with ⟨p, -, rfl⟩ | ⟨-, h⟩
  · rw [resetWith_eq]
    exact Memory.unwritten_wf
  · have hs' : MemInv (takeEvent s) := hs
    rcases h with ⟨-, h⟩ | ⟨q, side, d, -, rfl⟩ | ⟨a, c, ops, -, hp⟩ | ⟨-, -, hf⟩ | ⟨-, -, rfl⟩
    · exact synStep_memInv h hs'
    · rwa [MemInv, syncStep_mem]
    · rcases presentInOrder_next hp with ⟨-, -, hf⟩ | ⟨i, -, he⟩
      · rwa [MemInv, fillSlot_mem hf]
      · exact exec_memInv he hs'
    · rwa [MemInv, fillSlot_mem hf]
    · exact hs'

end Sys2Proof.Machine

namespace Sys2Proof.Proofs
open Sys2Proof Sys2Proof.Machine

/-- Settles O50. -/
theorem stepsKeepMemoryCanonical : Obligations.StepsKeepMemoryCanonical := fun _ _ => step_memInv

/-- Settles O49: the write is a `put`, and a read is the `get` of its element. -/
theorem readsReturnTheLastWrite : Obligations.ReadsReturnTheLastWrite := by
  intro p m a i v
  refine ⟨fun hi => ⟨m.put a i v, writeElem_inside p m a i v hi, ?_, fun b j hne => ?_⟩,
    fun hi => readElem_unwritten p hi,
    fun hi => ⟨readElem_outside p m hi, writeElem_outside p m v hi⟩, Memory.get_unwritten a i⟩
  · exact (readElem_ok_iff ..).mpr ⟨hi, Memory.get_put_same m a i v⟩
  · exact readElem_congr p (get_put_ne m v hne)

end Sys2Proof.Proofs
end

section
/-!
PROOFS. An operation that AUD presents during its Q.FILL waits for the fill's slots (20_memory R65,
44_fifo R210; entry 5): the step does one slot and puts the operation back first on the agenda.
-/

namespace Sys2Proof.Machine

/-- While AUD fills, an operation it presents is put back, and one slot is done. -/
theorem presentInOrder_of_busy {s : State} (c : UopCode) (ops : Operands) (hb : s.aud.left ≠ 0) :
    presentInOrder .aud c ops s = done (fillSlot (s.withAgenda (.uop .aud c ops :: s.agenda))) := by
  have hcond : (decide (Agent.aud = .aud) && audBusy s) = true := by
    simpa [audBusy] using hb
  exact if_pos hcond

/-- A step whose event is an operation of AUD, at a core that is not held and with AUD filling. -/
theorem step_of_waiting_uop {s : State} {c : UopCode} {ops : Operands} (h0 : s.cfg.fault = 0#8)
    (he : nextEvent s = .uop .aud c ops) (hb : s.aud.left ≠ 0) :
    step s = done (fillSlot ((takeEvent s).withAgenda (.uop .aud c ops :: s.agenda.tail))) := by
  have hr : ∀ p, nextEvent s ≠ .reset p := fun p => by simp [he]
  rw [step_of_not_held h0 hr, he]
  exact presentInOrder_of_busy c ops hb

/-- A slot of Q.FILL leaves one slot fewer to do and one value more in the block (44_fifo R210). -/
theorem fillSlot_aud {s u : State} (h : fillSlot s = .ok u) :
    ∃ y, u.aud = ⟨s.aud.left - 1, s.aud.block ++ [y]⟩ := by
  obtain ⟨t, ht, ⟨-, rfl⟩ | ⟨-, rfl⟩⟩ := fillSlot_ok h
  all_goals
    rw [← (tryPop_schedule ht).2]
    exact ⟨_, rfl⟩

end Sys2Proof.Machine

namespace Sys2Proof.Proofs
open Sys2Proof Sys2Proof.Machine

/-- Settles O43: the step is one slot of the fill, with the operation first on the agenda again. -/
theorem audFinishesItsFillFirst : Obligations.AudFinishesItsFillFirst := by
  intro s t c ops h0 he hb h
  rw [step_of_waiting_uop h0 he hb, done_next_iff] at h
  have hagenda : t.agenda = .uop .aud c ops :: s.agenda.tail := (fillSlot_schedule h).1.agenda
  obtain ⟨y, haud⟩ := fillSlot_aud h
  refine ⟨?_, ?_, nextEvent_of_agenda hagenda, by rw [hagenda]; rfl⟩
  · rw [haud]
    exact Nat.sub_add_cancel (Nat.pos_of_ne_zero hb)
  · simp [haud]

end Sys2Proof.Proofs
end

section
/-!
PROOFS. The queue invariants along a run, under any schedule (10_state R37, R38, 44_fifo R216): they hold
at every construction, and every move of a queue keeps them.
-/

namespace Sys2Proof.Machine

/-- Every move of a queue keeps its invariant. -/
theorem QueueMove.queueOk {s t : State} {q : QueueId} (h : QueueMove s t q) (hcfg : t.cfg = s.cfg)
    (hs : QueueOk s q) : QueueOk t q := by
  have hcap : t.cap q = s.cap q := by rw [State.cap, hcfg, State.cap]
  obtain ⟨hc, hw⟩ := hs
  unfold QueueOk
  rw [hcap]
  cases h with
  | none hcur hmem =>
    rw [hcur]
    exact ⟨hc, fun k hk => by rw [hmem]; exact hw k hk⟩
  | push v hfull hcur hnew hmem =>
    obtain ⟨hc', hlen⟩ := hc.push hfull
    rw [hcur]
    refine ⟨hc', fun k hk => ?_⟩
    change (t.mem.get _ (slotIndex (s.cap q) (s.cur q) k)).isSome = true
    rcases Nat.lt_succ_iff_lt_or_eq.mp (hk.trans_eq hlen) with hk | rfl
    · rw [hmem _ (slotIndex_ne hc hfull hk)]
      exact hw k hk
    · rw [slotIndex_occ hc, hnew]
      rfl
  | pop e hempty hdata hcur hmem =>
    obtain ⟨hc', hlen⟩ := hc.pop hempty
    rw [hcur]
    refine ⟨hc', fun k hk => ?_⟩
    rw [hmem, slotIndex_pop]
    exact hw (k + 1) ((Nat.succ_lt_succ hk).trans_eq hlen.symm)
  | sync side d h1 hd hcur hmem =>
    obtain ⟨hc', hlen⟩ := hc.sync side h1 hd
    rw [hcur]
    refine ⟨hc', fun k hk => ?_⟩
    have hslot : slotIndex (s.cap q) (moveCopy (s.cap q) (s.cur q) side d) k
        = slotIndex (s.cap q) (s.cur q) k := by cases side <;> rfl
    rw [hmem, hslot]
    exact hw k (hk.trans_eq hlen)

/-- The invariants speak of the configuration and of the queues alone. -/
theorem SameQueues.queueInv {s t : State} (h : SameQueues s t) (hs : QueueInv s) : QueueInv t := by
  refine ⟨?_, fun h0 q => h.queueOk (hs.queueOk (h.cfg ▸ h0) q)⟩
  rw [CfgInv, h.cfg]
  exact hs.1

theorem construct_same_resetWith (p : Params) (s : State) :
    SameQueues (construct p) (resetWith p s) := by
  unfold resetWith
  constructor <;> simp

theorem queueInv_resetWith (p : Params) (s : State) : QueueInv (resetWith p s) :=
  (construct_same_resetWith p s).queueInv (queueInv_construct p)

/-- Every event, under any schedule, keeps the queue invariants. -/
theorem runEvent_queueInv {e : Event} {s t : State} (h : runEvent e (takeEvent s) = .next t)
    (hs : QueueInv s) : QueueInv t := by
  rcases runEvent_move h with ⟨p, -, rfl⟩ | ⟨h0, hcfg, hm⟩
  · exact queueInv_resetWith p _
  · refine ⟨?_, fun _ q => (hm q).queueOk hcfg (hs.queueOk h0 q)⟩
    rw [CfgInv, hcfg]
    exact hs.1

theorem IsRun.queueInv {e : Nat → Event} {σ : Nat → State} (h : IsRun e σ) (h0 : QueueInv (σ 0))
    (n : Nat) : QueueInv (σ n) := by
  induction n with
  | zero => exact h0
  | succ n ih => exact runEvent_queueInv (h n) ih

end Sys2Proof.Machine
end

section
/-!
PROOFS. Eventual delivery (20_memory R66 (d), 44_fifo R213, 70_reset_and_hazards R347). The measure is the
lag of a copy behind its cursor: while the cursor stands still no step makes it greater, a step of the
copy's own SYNC agent makes it smaller, and it is 0 exactly where the copy equals the cursor.
-/

namespace Sys2Proof.Machine

/-! ## The lag of a copy -/

/-- How far a SYNC agent's copy is behind its cursor. -/
abbrev syncLag (s : State) (q : QueueId) (side : SyncSide) : Nat := lagOf (s.cap q) (s.cur q) side

theorem syncLag_eq (s : State) (q : QueueId) (side : SyncSide) :
    syncLag s q side = modSub (trueCursor s q side) (copiedCursor s q side) (2 * s.cap q) := by
  cases side <;> rfl

theorem QueueOk.syncLag_eq_zero_iff {s : State} {q : QueueId} (h : QueueOk s q) (side : SyncSide) :
    syncLag s q side = 0 ↔ copiedCursor s q side = trueCursor s q side := by
  obtain ⟨hw, hr, hws, hrs, -, -, -⟩ := h.1
  have htrue : trueCursor s q side < 2 * s.cap q := by cases side <;> assumption
  have hcopy : copiedCursor s q side < 2 * s.cap q := by cases side <;> assumption
  rw [syncLag_eq, modSub_eq htrue hcopy]
  split_ifs <;> omega

theorem trueCursor_moved (s : State) (q : QueueId) (side : SyncSide) (d : Nat) :
    trueCursor (s.withCur q (moveCopy (s.cap q) (s.cur q) side d)) q side = trueCursor s q side := by
  cases side <;> simp [trueCursor, moveCopy]

/-- A copy moved on by `d`, not past its cursor, is `d` nearer (44_fifo R212, R213). -/
theorem CursorsOk.lagOf_moveCopy {C : Nat} {c : Cursors} (h : CursorsOk C c) {side : SyncSide}
    {d : Nat} (hd : d ≤ lagOf C c side) :
    lagOf C (moveCopy C c side d) side = lagOf C c side - d := by
  cases side with
  | read => exact modSub_advance_right h.r_lt h.rSync_lt hd
  | write => exact modSub_advance_right h.w_lt h.wSync_lt hd

/-- A copy is moved by its own SYNC agent alone. -/
theorem QueueMove.copiedCursor_cases {s t : State} {q : QueueId} (h : QueueMove s t q)
    (side : SyncSide) :
    copiedCursor t q side = copiedCursor s q side ∨
    ∃ d, d ≤ syncLag s q side ∧ t.cur q = moveCopy (s.cap q) (s.cur q) side d := by
  cases h with
  | none hcur | push _ _ hcur | pop _ _ _ hcur =>
    left
    cases side <;> simp [copiedCursor, hcur]
  | sync side' d h1 hd hcur =>
    by_cases hside : side' = side
    · subst hside
      exact .inr ⟨d, hd, hcur⟩
    · left
      cases side with
      | read =>
        obtain rfl : side' = .write := by cases side' <;> simp_all
        simp [copiedCursor, moveCopy, hcur]
      | write =>
        obtain rfl : side' = .read := by cases side' <;> simp_all
        simp [copiedCursor, moveCopy, hcur]

/-- While the cursor stands still no move of the queue takes the copy further from it. -/
theorem QueueMove.syncLag_le {s t : State} {q : QueueId} {side : SyncSide} (h : QueueMove s t q)
    (hcfg : t.cfg = s.cfg) (hs : QueueOk s q)
    (hstill : trueCursor t q side = trueCursor s q side) : syncLag t q side ≤ syncLag s q side := by
  have hcap : t.cap q = s.cap q := by rw [State.cap, hcfg, State.cap]
  rcases h.copiedCursor_cases side with hcopy | ⟨d, hd, hcur⟩
  · rw [syncLag_eq, syncLag_eq, hcap, hstill, hcopy]
  · rw [syncLag, hcap, hcur, hs.1.lagOf_moveCopy hd]
    exact Nat.sub_le _ _

/-! ## One event -/

/-- After a reset every copy equals its cursor (10_state R45). -/
theorem copiedCursor_resetWith (p : Params) (s : State) (q : QueueId) (side : SyncSide) :
    copiedCursor (resetWith p s) q side = trueCursor (resetWith p s) q side := by
  rw [resetWith_eq]
  cases side <;> cases q <;> rfl

/-- An event while the cursor stands still delivers it by a reset, or leaves the copy no further from it
at a core that is not held. -/
theorem runEvent_syncLag {e : Event} {s t : State} {q : QueueId} {side : SyncSide}
    (h : runEvent e (takeEvent s) = .next t) (hs : QueueInv s)
    (hstill : trueCursor t q side = trueCursor s q side) :
    copiedCursor t q side = trueCursor t q side ∨
    (s.cfg.fault = 0#8 ∧ t.cfg = s.cfg ∧ syncLag t q side ≤ syncLag s q side) := by
  rcases runEvent_move h with ⟨p, -, rfl⟩ | ⟨h0, hcfg, hm⟩
  · exact .inl (copiedCursor_resetWith ..)
  · exact .inr ⟨h0, hcfg, (hm q).syncLag_le hcfg (hs.queueOk h0 q) hstill⟩

/-- A cursor that was delivered stays so while it stands still. -/
theorem runEvent_keeps_delivered {e : Event} {s t : State} {q : QueueId} {side : SyncSide}
    (h : runEvent e (takeEvent s) = .next t) (hs : QueueInv s)
    (hstill : trueCursor t q side = trueCursor s q side)
    (hd : copiedCursor s q side = trueCursor s q side) :
    copiedCursor t q side = trueCursor t q side := by
  rcases runEvent_syncLag h hs hstill with ht | ⟨h0, hcfg, hle⟩
  · exact ht
  · have hok : QueueOk t q := (runEvent_queueInv h hs).queueOk (hcfg ▸ h0) q
    have hzero := ((hs.queueOk h0 q).syncLag_eq_zero_iff side).mpr hd
    exact (hok.syncLag_eq_zero_iff side).mp (by omega)

/-- A SYNC agent's step, with an admitted draw, leaves the cursor and brings the copy nearer. -/
theorem runEvent_of_syncTaken {e : Event} {s : State} {q : QueueId} {side : SyncSide}
    (h : SyncTaken e s q side) (h0 : s.cfg.fault = 0#8) (hs : QueueOk s q) :
    ∃ t, runEvent e (takeEvent s) = .next t ∧ trueCursor t q side = trueCursor s q side ∧
      syncLag t q side < syncLag s q side := by
  obtain ⟨d, rfl, h1, hd⟩ := h
  have hheld : ¬ isHeld (takeEvent s) = true := by simp [isHeld_iff, h0]
  refine ⟨(takeEvent s).withCur q (moveCopy (s.cap q) (s.cur q) side d), ?_, ?_, ?_⟩
  · simp [runEvent, hheld, runAgent, syncStep, h1, hd]
  · have h := trueCursor_moved (takeEvent s) q side d
    rw [takeEvent_cap, takeEvent_cur] at h
    rw [h]
    cases side <;> simp [trueCursor]
  · have hlag := hs.1.lagOf_moveCopy hd
    simp only [syncLag, State.withCur_cap, takeEvent_cap, State.withCur_cur_same, hlag]
    omega

/-! ## Runs -/

/-- A cursor that stands still is delivered at some step, where the SYNC agent is treated weakly
fairly: it would else be enabled without end, and each of its steps makes the lag smaller. -/
theorem WeaklyFair.reaches_delivered {e : Nat → Event} {σ : Nat → State} {q : QueueId}
    {side : SyncSide} (hfair : WeaklyFair e σ q side) (hrun : IsRun e σ)
    (hq : ∀ m, QueueInv (σ m)) {n : Nat}
    (hstill : ∀ m ≥ n, trueCursor (σ (m + 1)) q side = trueCursor (σ m) q side) :
    ∃ k ≥ n, copiedCursor (σ k) q side = trueCursor (σ k) q side := by
  by_contra hnot
  have hnever : ∀ k ≥ n, copiedCursor (σ k) q side ≠ trueCursor (σ k) q side := fun k hk hc =>
    hnot ⟨k, hk, hc⟩
  have hstep : ∀ m ≥ n, (σ m).cfg.fault = 0#8 ∧
      syncLag (σ (m + 1)) q side ≤ syncLag (σ m) q side := fun m hm => by
    rcases runEvent_syncLag (hrun m) (hq m) (hstill m hm) with hc | ⟨h0, -, hle⟩
    · exact absurd hc (hnever (m + 1) (by omega))
    · exact ⟨h0, hle⟩
  have hmono : ∀ m ≥ n, ∀ k ≥ m, syncLag (σ k) q side ≤ syncLag (σ m) q side := fun m hm k hk => by
    induction k, hk using Nat.le_induction with
    | base => exact le_rfl
    | succ k hk ih => exact (hstep k (hm.trans hk)).2.trans ih
  suffices H : ∀ lag, ∀ m ≥ n, syncLag (σ m) q side = lag → False from H _ n le_rfl rfl
  intro lag
  induction lag using Nat.strong_induction_on with
  | _ lag ih =>
    intro m hm hlag
    obtain ⟨k, hk, htaken⟩ := hfair m fun j hj =>
      ⟨(hstep j (hm.trans hj)).1, hnever j (hm.trans hj)⟩
    have hkn : n ≤ k := hm.trans hk
    have h0 := (hstep k hkn).1
    obtain ⟨t, ht, -, hlt⟩ := runEvent_of_syncTaken htaken h0 ((hq k).queueOk h0 q)
    obtain rfl : t = σ (k + 1) := Host.Outcome.next.inj (ht.symm.trans (hrun k))
    exact ih _ ((hlt.trans_le (hmono m hm k hk)).trans_eq hlag) (k + 1) (by omega) rfl

/-- Weak fairness of a SYNC agent delivers its cursor, under any schedule. -/
theorem WeaklyFair.delivers {e : Nat → Event} {σ : Nat → State} {q : QueueId} {side : SyncSide}
    (hfair : WeaklyFair e σ q side) (hrun : IsRun e σ) (h0 : QueueInv (σ 0)) :
    Delivers σ q side := by
  intro n hconst
  have hq := hrun.queueInv h0
  have hstill : ∀ m ≥ n, trueCursor (σ (m + 1)) q side = trueCursor (σ m) q side := fun m hm =>
    (hconst (m + 1) (by omega)).trans (hconst m hm).symm
  obtain ⟨k, hk, hdel⟩ := hfair.reaches_delivered hrun hq hstill
  refine ⟨k, hk, fun m hm => ?_⟩
  induction m, hm using Nat.le_induction with
  | base => exact hdel
  | succ m hm ih => exact runEvent_keeps_delivered (hrun m) (hq m) (hstill m (hk.trans hm)) ih

/-! ## The model's own schedule (entry 20) -/

/-- An enabled SYNC agent whose turn has come takes its step. -/
theorem SyncEnabled.taken_at_turn {s : State} {q : QueueId} {side : SyncSide}
    (h : SyncEnabled s q side) (hs : QueueInv s) (ha : s.agenda = [])
    (hr : s.rota = ⟨0, ⟨q, side⟩⟩) : SyncTaken (nextEvent s) s q side := by
  obtain ⟨h0, hne⟩ := h
  have hlag : syncLag s q side ≠ 0 := fun hz =>
    hne (((hs.queueOk h0 q).syncLag_eq_zero_iff side).mp hz)
  exact turn_is_taken ha hr (Nat.pos_of_ne_zero hlag)

theorem step_runFrom {s : State} (h : ¬ ∃ n, ∀ u, step (runFrom s n) ≠ .next u) (n : Nat) :
    step (runFrom s n) = .next (runFrom s (n + 1)) := by
  obtain ⟨u, hu⟩ : ∃ u, step (runFrom s n) = .next u := by
    by_contra hnone
    exact h ⟨n, fun u hu => hnone ⟨u, hu⟩⟩
  simp [runFrom, follow, hu]

/-- The machine's own run, where it does not end, is weakly fair to every SYNC agent: each gets its turn
again and again. -/
theorem runFrom_weaklyFair {s : State} (hs : QueueInv s)
    (h : ∀ n, step (runFrom s n) = .next (runFrom s (n + 1))) (q : QueueId) (side : SyncSide) :
    WeaklyFair (fun n => nextEvent (runFrom s n)) (runFrom s) q side := by
  intro n hen
  have hrun : IsRun (fun n => nextEvent (runFrom s n)) (runFrom s) := h
  obtain ⟨m, hm, ha, hr⟩ := run_gives_turn h n ⟨q, side⟩
  exact ⟨m, hm, (hen m hm).taken_at_turn (hrun.queueInv hs m) ha hr⟩

end Sys2Proof.Machine

namespace Sys2Proof.Proofs
open Sys2Proof Sys2Proof.Machine

/-- Settles O40: any weakly fair schedule delivers, and the model's own schedule is weakly fair. -/
theorem cursorsAreDelivered : Obligations.CursorsAreDelivered := by
  refine ⟨fun e σ hrun h0 q side hfair => hfair.delivers hrun h0,
    fun s q side hs hen ha hr => ?_, fun s hs => ?_⟩
  · have htaken := hen.taken_at_turn hs ha hr
    exact ⟨htaken, runEvent_of_syncTaken htaken hen.1 (hs.queueOk hen.1 q)⟩
  · by_cases hend : ∃ n, ∀ u, step (runFrom s n) ≠ .next u
    · exact .inl hend
    · exact .inr (runFrom_weaklyFair hs (step_runFrom hend))

end Sys2Proof.Proofs
end

section
/-!
PROOFS. The encodings (30_encoding R90 to R101). The table of commands (R92) stands as a relation
between an `op` and a command; the decoder and the encoder are each tied to it once, so that neither is
compared with the other command by command. The operation codes (R97) need no such table: a code
decodes to an instruction exactly where the instruction is encoded as that code.
-/

namespace Sys2Proof

/-! ## The fields of a command word (R90) -/

@[simp] theorem cmdOp_cmdWord (op : BitVec 8) (a : BitVec 32) : cmdOp (cmdWord op a) = op :=
  BitVec.extractLsb'_append_eq_left

@[simp] theorem cmdArg_cmdWord (op : BitVec 8) (a : BitVec 32) : cmdArg (cmdWord op a) = a :=
  BitVec.extractLsb'_append_eq_right

@[simp] theorem cmdWord_cmdOp_cmdArg (w : CmdWord) : cmdWord (cmdOp w) (cmdArg w) = w :=
  BitVec.extractLsb'_append_extractLsb'_eq_extractLsb' rfl |>.trans BitVec.extractLsb'_eq_self

theorem setWidth_eq_cmdArg (w : CmdWord) : w.setWidth 32 = cmdArg w := rfl

theorem setWidth_ushiftRight_eq_cmdOp (w : CmdWord) : (w >>> 32).setWidth 8 = cmdOp w := rfl

/-- The shifted word keeps no bit above its `op`. -/
theorem ushiftRight_toNat_eq_cmdOp (w : CmdWord) : (w >>> 32).toNat = (cmdOp w).toNat := by
  simp only [cmdOp, BitVec.extractLsb'_toNat, BitVec.toNat_ushiftRight]
  omega

/-- "`w AND mask = match`" (R92) reads the `op` field. -/
theorem and_opMask_eq_iff (w : CmdWord) (op : BitVec 8) :
    w &&& 0xFF00000000#40 = cmdWord op 0#32 ↔ cmdOp w = op := by
  have hw : (w &&& 0xFF00000000#40).toNat = (cmdOp w).toNat * 0x100000000 := by
    simpa using Laws.cmdWord_and_opMask (cmdOp w) (cmdArg w)
  have hm : (cmdWord op 0#32).toNat = op.toNat * 0x100000000 :=
    (BitVec.toNat_append op 0#32).trans (by simp [Nat.shiftLeft_eq])
  rw [← BitVec.toNat_inj, hw, hm, ← BitVec.toNat_inj]
  omega

/-! ## The bits an encoder writes (R93) -/

/-- A well-formed instruction has no bit outside its mask. -/
theorem Instr.arg_and_argMask_of_wf {i : Instr} (h : i.wf = true) : i.arg &&& i.argMask = i.arg := by
  have h0 : i.arg &&& ~~~i.argMask = 0#32 := by simpa [Instr.wf] using h
  calc i.arg &&& i.argMask
      = (i.arg &&& i.argMask) ||| (i.arg &&& ~~~i.argMask) := by rw [h0, BitVec.or_zero]
    _ = i.arg := by rw [← BitVec.and_or_distrib_left, BitVec.or_not_self, BitVec.and_allOnes]

/-! ## The commands (R92) -/

/-- The rows of the table of R92: an `op` and the command it selects. -/
inductive CommandRow : BitVec 8 → (BitVec 32 → Instr) → Prop
  | start : CommandRow 0x00#8 .start
  | stop : CommandRow 0x01#8 .stop
  | changeFrequency : CommandRow 0x02#8 .changeFrequency
  | changeOscillator : CommandRow 0x03#8 .changeOscillator
  | changeNoise : CommandRow 0x04#8 .changeNoise
  | pressed : CommandRow 0x05#8 .pressed
  | released : CommandRow 0x06#8 .released

section
variable {op : BitVec 8} {mk : BitVec 32 → Instr}

theorem CommandRow.op_lt (h : CommandRow op mk) : op.toNat < 0x07 := by
  cases h <;> decide

theorem CommandRow.arg_eq (h : CommandRow op mk) (a : BitVec 32) : (mk a).arg = a := by
  cases h <;> rfl

/-- The encoder writes the row's `op`, and `arg` without its ignored bits. -/
theorem CommandRow.encode_eq (h : CommandRow op mk) (a : BitVec 32) :
    encode (mk a) = .cmd (cmdWord op (a &&& (mk a).argMask)) := by
  cases h <;> rfl

/-- The decoder gives a row's command with the `arg` field of the word. -/
theorem CommandRow.decodeCmd_eq (h : CommandRow op mk) {w : CmdWord} (hw : cmdOp w = op) :
    decodeCmd w = .ok (mk (cmdArg w)) := by
  cases h <;> simp [decodeCmd, hw]

end

/-- The decoder of command words gives a row's command, or refuses an `op` from 07 on (R100). -/
theorem decodeCmd_cases (w : CmdWord) :
    (∃ mk, CommandRow (cmdOp w) mk ∧ decodeCmd w = .ok (mk (cmdArg w))) ∨
    (0x07 ≤ (cmdOp w).toNat ∧ decodeCmd w = .error (.unknownCommand (cmdOp w))) := by
  have row : ∀ {op mk}, CommandRow op mk → (cmdOp w).toNat = op.toNat →
      ∃ mk, CommandRow (cmdOp w) mk ∧ decodeCmd w = .ok (mk (cmdArg w)) := fun h hop => by
    obtain rfl := BitVec.eq_of_toNat_eq hop
    exact ⟨_, h, h.decodeCmd_eq rfl⟩
  by_cases hlt : (cmdOp w).toNat < 0x07
  · left
    generalize hn : (cmdOp w).toNat = n at hlt
    match n with
    | 0 => exact row .start hn
    | 1 => exact row .stop hn
    | 2 => exact row .changeFrequency hn
    | 3 => exact row .changeOscillator hn
    | 4 => exact row .changeNoise hn
    | 5 => exact row .pressed hn
    | 6 => exact row .released hn
  · refine .inr ⟨not_lt.mp hlt, ?_⟩
    unfold decodeCmd
    split
    case h_8 => rfl
    all_goals omega

/-- A command decoded stands in the row of the word's `op`. -/
theorem exists_commandRow_of_decodeCmd {w : CmdWord} {i : Instr} (h : decodeCmd w = .ok i) :
    ∃ mk, CommandRow (cmdOp w) mk ∧ i = mk (cmdArg w) := by
  rcases decodeCmd_cases w with ⟨mk, hrow, hok⟩ | ⟨-, herr⟩
  · exact ⟨mk, hrow, Except.ok.inj (h.symm.trans hok)⟩
  · cases h.symm.trans herr

/-- A row's command has no other `op`, since the encoder writes the `op` of its row. -/
theorem CommandRow.op_eq {op op' : BitVec 8} {mk mk' : BitVec 32 → Instr} {a a' : BitVec 32}
    (h : CommandRow op mk) (h' : CommandRow op' mk') (he : mk a = mk' a') : op = op' := by
  have hw := (h.encode_eq a).symm.trans ((congrArg encode he).trans (h'.encode_eq a'))
  simpa using congrArg cmdOp (Encoded.cmd.inj hw)

/-- A word decodes to a row's command exactly where its bits under the mask are the row's match value
(R92). -/
theorem CommandRow.decodeCmd_eq_iff {op : BitVec 8} {mk : BitVec 32 → Instr} (h : CommandRow op mk)
    (w : CmdWord) :
    decodeCmd w = .ok (mk (cmdArg w)) ↔ w &&& 0xFF00000000#40 = cmdWord op 0#32 := by
  rw [and_opMask_eq_iff]
  refine ⟨fun hd => ?_, h.decodeCmd_eq⟩
  obtain ⟨mk', hrow, he⟩ := exists_commandRow_of_decodeCmd hd
  exact hrow.op_eq h he.symm

/-! ## The operation codes (R97) -/

/-- The seventeen codes of R97. -/
def assignedCodes : List UopCode :=
  [0x00#8, 0x01#8, 0x02#8, 0x10#8, 0x11#8, 0x20#8, 0x21#8, 0x22#8, 0x30#8, 0x31#8, 0x32#8,
    0x40#8, 0x41#8, 0x42#8, 0x50#8, 0x51#8, 0x60#8]

theorem mem_assignedCodes_of_encode {c : UopCode} {i : Instr} (h : encode i = .uop c) :
    c ∈ assignedCodes := by
  cases i <;> cases h
  all_goals simp [assignedCodes]

/-- A code decodes to an instruction exactly where the instruction is encoded as that code. -/
theorem decodeUop_eq_ok_iff {c : UopCode} {i : Instr} : decodeUop c = .ok i ↔ encode i = .uop c := by
  constructor <;> intro h
  · unfold decodeUop at h
    split at h <;> cases h
    all_goals
      rename_i hc
      exact congrArg Encoded.uop (BitVec.eq_of_toNat_eq hc.symm)
  · cases i <;> cases h
    all_goals rfl

/-! ## Both formats -/

/-- Every instruction is a row's command or is encoded as an operation code. -/
theorem Instr.format_cases (i : Instr) :
    (∃ op mk a, CommandRow op mk ∧ i = mk a) ∨ (∃ c, encode i = .uop c) := by
  cases i with
  | start a => exact .inl ⟨_, _, a, .start, rfl⟩
  | stop a => exact .inl ⟨_, _, a, .stop, rfl⟩
  | changeFrequency a => exact .inl ⟨_, _, a, .changeFrequency, rfl⟩
  | changeOscillator a => exact .inl ⟨_, _, a, .changeOscillator, rfl⟩
  | changeNoise a => exact .inl ⟨_, _, a, .changeNoise, rfl⟩
  | pressed a => exact .inl ⟨_, _, a, .pressed, rfl⟩
  | released a => exact .inl ⟨_, _, a, .released, rfl⟩
  | _ => exact .inr ⟨_, rfl⟩

/-- A well-formed command is written with its whole `arg`. -/
theorem CommandRow.encode_of_wf {op : BitVec 8} {mk : BitVec 32 → Instr} (h : CommandRow op mk)
    {a : BitVec 32} (hwf : (mk a).wf = true) : encode (mk a) = .cmd (cmdWord op a) := by
  have ha : a &&& (mk a).argMask = a := by
    simpa [h.arg_eq] using Instr.arg_and_argMask_of_wf hwf
  rw [h.encode_eq, ha]

theorem decode_encode_of_wf {i : Instr} (hwf : i.wf = true) : decode (encode i) = .ok i := by
  rcases i.format_cases with ⟨op, mk, a, hrow, rfl⟩ | ⟨c, hc⟩
  · rw [hrow.encode_of_wf hwf]
    simpa [decode] using hrow.decodeCmd_eq (cmdOp_cmdWord op a)
  · rw [hc]
    exact decodeUop_eq_ok_iff.mpr hc

theorem encode_of_decode {e : Encoded} {i : Instr} (h : decode e = .ok i) (hwf : i.wf = true) :
    encode i = e := by
  cases e with
  | cmd w =>
    obtain ⟨mk, hrow, rfl⟩ := exists_commandRow_of_decodeCmd h
    rw [hrow.encode_of_wf hwf, cmdWord_cmdOp_cmdArg]
  | uop c => exact decodeUop_eq_ok_iff.mp h

/-- A code outside R97 decodes to nothing (R101), and the operation presented is refused. -/
theorem present_of_reserved {c : UopCode} (hc : c ∉ assignedCodes) (a : Agent)
    (ops : Operands) (s : Machine.State) :
    Machine.present a c ops s = .refused (.reservedCode c) := by
  cases hd : decodeUop c with
  | ok i => exact absurd (mem_assignedCodes_of_encode (decodeUop_eq_ok_iff.mp hd)) hc
  | error e => simp [Machine.present, hd]

end Sys2Proof

namespace Sys2Proof.Proofs
open Sys2Proof Sys2Proof.Machine

/-- Settles O1. -/
theorem encodeDecodeAgree : Obligations.EncodeDecodeAgree :=
  ⟨fun _ => decode_encode_of_wf, fun _ _ => encode_of_decode⟩

/-- Settles O2, one row of the table for each command. -/
theorem commandWordsSelect : Obligations.CommandWordsSelect := by
  intro w
  simp only [setWidth_eq_cmdArg, setWidth_ushiftRight_eq_cmdOp, ushiftRight_toNat_eq_cmdOp]
  refine ⟨CommandRow.start.decodeCmd_eq_iff w, CommandRow.stop.decodeCmd_eq_iff w,
    CommandRow.changeFrequency.decodeCmd_eq_iff w, CommandRow.changeOscillator.decodeCmd_eq_iff w,
    CommandRow.changeNoise.decodeCmd_eq_iff w, CommandRow.pressed.decodeCmd_eq_iff w,
    CommandRow.released.decodeCmd_eq_iff w, fun h => ?_⟩
  rcases decodeCmd_cases w with ⟨mk, hrow, -⟩ | ⟨-, herr⟩
  · exact absurd h (not_le.mpr hrow.op_lt)
  · exact herr

/-- Settles O3. -/
theorem sampleWordsDecode : Obligations.SampleWordsDecode :=
  ⟨CommandRow.start.decodeCmd_eq rfl, CommandRow.stop.decodeCmd_eq rfl,
    CommandRow.changeFrequency.decodeCmd_eq rfl, CommandRow.changeOscillator.decodeCmd_eq rfl,
    CommandRow.pressed.decodeCmd_eq rfl, decodeUop_eq_ok_iff.mpr rfl, decodeUop_eq_ok_iff.mpr rfl,
    decodeUop_eq_ok_iff.mpr rfl, decodeUop_eq_ok_iff.mpr rfl, decodeUop_eq_ok_iff.mpr rfl,
    decodeUop_eq_ok_iff.mpr rfl, decodeUop_eq_ok_iff.mpr rfl⟩

/-- Settles O4. -/
theorem reservedCodesRefused : Obligations.ReservedCodesRefused := by
  intro s a c ops hc h0 he hb
  rw [step_of_uop h0 he hb]
  exact present_of_reserved hc a ops (takeEvent s)

end Sys2Proof.Proofs
end

section
/-!
PROOFS. The oscillator: which frequencies are in contract, what each waveform id does, and what one
OSC.RUN drives and advances (40_oscillator R121 to R133, 46_sequencer_commands R265).
-/

namespace Sys2Proof.Machine

/-! ## Legal frequencies (R121, R133) -/

/-- A finite value is at or above zero where its sign is clear or it is `-0.0`. -/
theorem fge_posZero_iff {a : F} (h : isFinite a = true) :
    fge a posZero = true ↔ isNeg a = false ∨ fmag a = 0 := by
  have hkey : orderKey posZero = 0 := by decide
  have hnan : isNaN posZero = false := by decide
  have hcmp : fge a posZero = decide (0 ≤ orderKey a) := by
    rw [fge, ordered, isNaN_of_isFinite h, hnan, hkey]
    rfl
  rw [hcmp, decide_eq_true_iff, orderKey]
  cases isNeg a <;> simp

/-- The sign bit is clear on the patterns below that of `-0.0`. -/
theorem isNeg_eq_false_iff (a : F) : isNeg a = false ↔ a.toNat < 0x80000000 := by
  rw [isNeg, BitVec.msb_eq_decide]
  simp

/-- A legal frequency is a finite pattern with the sign clear, or `-0.0`. -/
theorem legalFrequency_iff (f : F) :
    legalFrequency f = true ↔ f.toNat < 0x7F800000 ∨ f = 0x80000000#32 := by
  have hsplit : legalFrequency f = true ↔
      fmag f < infMag ∧ (f.toNat < 0x80000000 ∨ fmag f = 0) := by
    rw [legalFrequency, Bool.and_eq_true, and_congr_right fge_posZero_iff, isNeg_eq_false_iff,
      isFinite, decide_eq_true_iff]
  have hzero : f = 0x80000000#32 ↔ f.toNat = 0x80000000 := BitVec.toNat_inj.symm
  have hlt := f.isLt
  rw [hsplit, hzero, fmag, infMag]
  omega

/-- OSC.SET_FREQUENCY within its contract. -/
theorem setFrequency_of_legal {f : F} (h : legalFrequency f = true) (s : State) :
    setFrequency f s = .next (s.withOsc { s.osc with frequency := f }) := if_pos h

/-- OSC.SET_FREQUENCY out of its contract. -/
theorem setFrequency_of_not_legal {f : F} (h : ¬ legalFrequency f = true) (s : State) :
    setFrequency f s = .refused (.badFrequency f) := if_neg h

/-! ## Waveforms by id (R122, 30_encoding R94, R95) -/

/-- The ids above 4 name no waveform. -/
theorem waveOf_of_gt {w : BitVec 8} (h : 4 < w.toNat) : waveOf w = none := by
  unfold waveOf
  split
  case h_6 => rfl
  all_goals omega

/-- The ids up to 4 name the waveform with that code. -/
theorem waveOf_of_le {w : BitVec 8} (h : w.toNat ≤ 4) :
    ∃ k : WaveType, waveOf w = some k ∧ k.code.toNat = w.toNat := by
  unfold waveOf
  interval_cases w.toNat
  · exact ⟨.sine, rfl, rfl⟩
  · exact ⟨.sawtooth, rfl, rfl⟩
  · exact ⟨.square, rfl, rfl⟩
  · exact ⟨.triangle, rfl, rfl⟩
  · exact ⟨.fastSine, rfl, rfl⟩

theorem setWaveType_of_unknown {w : BitVec 8} (h : waveOf w = none) (d : F) (s : State) :
    setWaveType w d s = .next s := by
  simp only [setWaveType, h]

/-- Any waveform but Square is set by itself. -/
theorem setWaveType_of_ne_square {w : BitVec 8} {k : WaveType} (h : waveOf w = some k)
    (hk : k ≠ .square) (d : F) (s : State) :
    setWaveType w d s = .next (s.withOsc { s.osc with waveType := k }) := by
  cases k with
  | square => exact absurd rfl hk
  | sine | sawtooth | triangle | fastSine => simp only [setWaveType, h]

/-- Square also takes the duty, clamped. -/
theorem setWaveType_square {w : BitVec 8} {d : F} (hw : w = 2#8) (hd : isNaN d = false)
    (s : State) : setWaveType w d s =
      .next (s.withOsc { s.osc with waveType := .square, duty := clampDuty d }) := by
  subst hw
  exact if_neg (by simp [hd])

/-- Square refuses a duty that is a NaN (R133). -/
theorem setWaveType_square_nan {w : BitVec 8} {d : F} (hw : w = 2#8) (hd : isNaN d = true)
    (s : State) : setWaveType w d s = .refused (.nanDuty d) := by
  subst hw
  exact if_pos hd

/-! ## OSC.RUN (R123, R129, R130) -/

theorem oscRun_of_zero {s : State} (h : feq s.osc.frequency posZero = true) :
    oscRun s = s.withRes { s.res with oscSample := posZero } := if_pos h

theorem oscRun_of_nonzero {s : State} (h : feq s.osc.frequency posZero = false) :
    oscRun s = (s.withOsc { s.osc with phase := advancePhase s.cfg.params s.osc }).withRes
      { s.res with oscSample := waveSample s.cfg.params s.osc } :=
  if_neg (by simp [h])

/-! ## The operations, presented by SYN -/

theorem exec_oscSetFrequency_of_syn {s : State} (h : s.port.agent = .syn) :
    exec .oscSetFrequency s = setFrequency s.port.ops.f s := ifOwner_of_owner _ h

theorem exec_oscSetWaveType_of_syn {s : State} (h : s.port.agent = .syn) :
    exec .oscSetWaveType s = setWaveType s.port.ops.w s.port.ops.d s := ifOwner_of_owner _ h

theorem exec_oscRun_of_syn {s : State} (h : s.port.agent = .syn) :
    exec .oscRun s = .next (oscRun s) := ifOwner_of_owner _ h

/-- CHANGE_FREQUENCY is OSC.SET_FREQUENCY of its argument (46_sequencer_commands R265). -/
theorem exec_changeFrequency (f : F) (s : State) :
    exec (.changeFrequency f) s = setFrequency f s := rfl

end Sys2Proof.Machine

namespace Sys2Proof.Proofs
open Sys2Proof Sys2Proof.Machine

/-- Settles O21: both operations are `setFrequency`, which asks whether the frequency is legal. -/
theorem frequencyIsWrittenOrRefused : Obligations.FrequencyIsWrittenOrRefused := by
  intro s f
  rw [← legalFrequency_iff]
  have hop (ha : s.port.agent = .syn) (hf : s.port.ops.f = f) :
      exec .oscSetFrequency s = setFrequency f s := by
    rw [exec_oscSetFrequency_of_syn ha, hf]
  refine ⟨fun h => ?_, fun h => ?_⟩
  · have hset := setFrequency_of_legal h s
    exact ⟨hset, fun ha hf => (hop ha hf).trans hset⟩
  · have hset := setFrequency_of_not_legal h s
    exact ⟨hset, fun ha hf => (hop ha hf).trans hset⟩

/-- Settles O22, by what the id names. -/
theorem waveTypeIsSet : Obligations.WaveTypeIsSet := by
  intro s ha w d
  rw [exec_oscSetWaveType_of_syn ha]
  refine ⟨fun hw => ?unknown, fun hw hne => ?other, fun hw hd => ?square, fun hw hd => ?nan⟩
  case unknown => exact setWaveType_of_unknown (waveOf_of_gt hw) d s
  case other =>
    obtain ⟨k, hk, hcode⟩ := waveOf_of_le hw
    have hsq : k ≠ .square := by
      rintro rfl
      exact hne (BitVec.eq_of_toNat_eq hcode.symm)
    refine ⟨k, BitVec.eq_of_toNat_eq ?_, setWaveType_of_ne_square hk hsq d s⟩
    rw [hcode, BitVec.toNat_setWidth]
    omega
  case square => exact setWaveType_square hw hd s
  case nan => exact setWaveType_square_nan hw hd s

/-- Settles O25, at a frequency other than zero by the waveform's formula. -/
theorem oscRunGivesTheWaveform : Obligations.OscRunGivesTheWaveform := by
  intro s ha p x
  rw [exec_oscRun_of_syn ha]
  refine ⟨fun hzero => ?_, fun hne => ?_⟩
  · rw [oscRun_of_zero hzero]
    rfl
  · rw [oscRun_of_nonzero hne, waveSample]
    cases s.osc.waveType with
    | sine | fastSine | sawtooth | square | triangle => rfl

end Sys2Proof.Proofs
end

section
/-!
PROOFS. The noise generator: both operations drive a draw of the admitted set, and every admitted
draw can be driven (41_noise R151, R152).
-/

namespace Sys2Proof.Machine

/-! ## The admitted draws of NOISE.UNIFORM (R151) -/

theorem legalUniform_iff (d : F) :
    legalUniform d = true ↔ isFinite d = true ∧ fle minusOne d = true ∧ fle d one = true := by
  rw [legalUniform, Bool.and_eq_true, Bool.and_eq_true, and_assoc]

/-! ## The operations, presented by SYN -/

/-- NOISE.UNIFORM drives its draw and spends it. -/
theorem exec_noiseUniform_of_syn {s : State} (h : s.port.agent = .syn) :
    exec .noiseUniform s = .next { s with
      res := { s.res with noiseSample := uniformOf (Config.uniformDraw s.draws) }
      draws := s.draws + 1 } :=
  ifOwner_of_owner (.next (noiseUniform s)) h

/-- NOISE.GAUSSIAN drives its draw and spends it. -/
theorem exec_noiseGaussian_of_syn {s : State} (h : s.port.agent = .syn) :
    exec .noiseGaussian s = .next { s with
      res := { s.res with noiseSample := gaussianOf (Config.gaussianDraw s.draws) }
      draws := s.draws + 1 } :=
  ifOwner_of_owner (.next (noiseGaussian s)) h

end Sys2Proof.Machine

namespace Sys2Proof.Proofs
open Sys2Proof Sys2Proof.Machine

/-- Settles O26: what is driven is a free value kept in the admitted set, where an admitted value is
its own draw. -/
theorem noiseDrawsAreAdmitted : Obligations.NoiseDrawsAreAdmitted := by
  refine ⟨fun s ha => ⟨⟨_, exec_noiseUniform_of_syn ha, ?driven⟩,
    ⟨_, exec_noiseGaussian_of_syn ha, isFinite_gaussianOf _⟩⟩,
    fun d hfin => ⟨gaussianOf_of_finite hfin, fun hlo hhi => ?taken⟩⟩
  case driven => exact (legalUniform_iff _).mp (legalUniform_uniformOf _)
  case taken => exact uniformOf_of_legal ((legalUniform_iff d).mpr ⟨hfin, hlo, hhi⟩)

end Sys2Proof.Proofs
end

section
/-!
PROOFS. The envelope: what press, release and update write to its registers, and the unit operations
and commands that carry them out (42_envelope R161 to R170, 46_sequencer_commands R268, R269).
-/

namespace Sys2Proof.Machine

/-! ## The registers after a press and after a release (R162 to R164) -/

/-- A press from Idle starts the attack line at its beginning; from any other state it starts where the
line has the volume. -/
theorem pressEnv_eq (p : Params) (e : Env) :
    pressEnv p e = { e with
      state := .attack
      tick := if e.state = .idle then posZero
        else fmul (inverseLerp attackStart attackEnd e.volume) p.attackDur } := by
  cases h : e.state with
  | idle | attack | decay | sustain | release => simp [pressEnv, h]

/-- A release acts in mode Forced alone, and there in Attack, Decay and Sustain. -/
theorem releaseEnv_eq (p : Params) (e : Env) :
    releaseEnv p e =
      if p.releaseMode = .forced ∧ e.state ≠ .idle ∧ e.state ≠ .release then
        { e with state := .release, tick := releaseTick p e.volume }
      else e := by
  cases hm : p.releaseMode with
  | noOp => simp [releaseEnv, hm]
  | forced =>
    cases h : e.state with
    | idle | attack | decay | sustain | release => simp [releaseEnv, hm, h]

/-! ## The registers after an update (R161, R165) -/

/-- A sounding state is updated along its segment. -/
theorem updateEnv_of_segment {p : Params} {e : Env} {g : Segment} (h : segmentOf p e.state = some g) :
    updateEnv p e = updateAlong g e := by
  simp only [updateEnv, h]

/-! ## The operations, presented by SYN, and the commands -/

/-- PRESSED is a press, whatever its ignored argument (46_sequencer_commands R268). -/
theorem exec_pressed (arg : BitVec 32) (s : State) :
    exec (.pressed arg) s = .next (s.withEnv (pressEnv s.cfg.params s.env)) := rfl

/-- RELEASED is a release, whatever its ignored argument (46_sequencer_commands R269). -/
theorem exec_released (arg : BitVec 32) (s : State) :
    exec (.released arg) s = .next (s.withEnv (releaseEnv s.cfg.params s.env)) := rfl

theorem exec_envPress_of_syn {s : State} (h : s.port.agent = .syn) :
    exec .envPress s = .next (s.withEnv (pressEnv s.cfg.params s.env)) :=
  ifOwner_of_owner (.next (envPress s)) h

theorem exec_envRelease_of_syn {s : State} (h : s.port.agent = .syn) :
    exec .envRelease s = .next (s.withEnv (releaseEnv s.cfg.params s.env)) :=
  ifOwner_of_owner (.next (envRelease s)) h

/-- ENV.UPDATE writes the updated registers and drives its result from them. -/
theorem exec_envUpdate_of_syn {s : State} (h : s.port.agent = .syn) :
    exec .envUpdate s = .next ((s.withEnv (updateEnv s.cfg.params s.env)).withRes
      { s.res with volume := updateResult s.env (updateEnv s.cfg.params s.env) }) :=
  ifOwner_of_owner (.next (envUpdate s)) h

end Sys2Proof.Machine

namespace Sys2Proof.Proofs
open Sys2Proof Sys2Proof.Machine

/-- Settles O27: command and operation are one press. -/
theorem pressGoesToAttack : Obligations.PressGoesToAttack := by
  intro s arg e
  have henv : pressEnv s.cfg.params s.env = e := pressEnv_eq s.cfg.params s.env
  refine ⟨?_, fun ha => ?_⟩
  · rw [exec_pressed, henv]
    rfl
  · rw [exec_envPress_of_syn ha, henv]
    rfl

/-- Settles O28: command and operation are one release. -/
theorem releaseFollowsTheMode : Obligations.ReleaseFollowsTheMode := by
  intro s arg e
  have henv : releaseEnv s.cfg.params s.env = e := releaseEnv_eq s.cfg.params s.env
  refine ⟨?_, fun ha => ?_⟩
  · rw [exec_released, henv]
    rfl
  · rw [exec_envRelease_of_syn ha, henv]
    rfl

/-- Settles O29, by the segment of each state; Idle and Sustain have none. -/
theorem envUpdateFollowsTheSegment : Obligations.EnvUpdateFollowsTheSegment := by
  intro s ha p k along e
  have halong (g : Segment) : updateAlong g s.env = along g.a g.b g.dur g.next := rfl
  have henv : updateEnv s.cfg.params s.env = e := by
    cases h : s.env.state with
    | idle => simp only [e, h, updateEnv_at_rest _ (.inl h)]
    | sustain => simp only [e, h, updateEnv_at_rest _ (.inr h)]
    | attack | decay | release =>
      rw [updateEnv_of_segment (congrArg (segmentOf p) h), halong]
      simp only [e, h]
      rfl
  rw [exec_envUpdate_of_syn ha, henv]
  rfl

end Sys2Proof.Proofs
end

section
/-!
PROOFS. The metronome and the time signature: the beat index is the quotient of the elapsed count,
the two flags are read off it, and what the three operations drive (43_metronome R190 to R195).
-/

namespace Sys2Proof.Machine

/-! ## The registers after an update (R192) -/

/-- The quotient never exceeds the count, so the 64-bit index holds it for every period. -/
theorem beatOf_toNat (p : Params) (e : BitVec 64) :
    (beatOf p e).toNat = e.toNat / p.tickPeriod.toNat := by
  have hlt : e.toNat / p.tickPeriod.toNat < 2 ^ 64 := (Nat.div_le_self ..).trans_lt e.isLt
  rw [beatOf, BitVec.toNat_ofNat, Nat.mod_eq_of_lt hlt]

/-- The samples since the beat are the remainder of the count. -/
theorem sub_beatOf_mul (p : Params) (e : BitVec 64) :
    e.toNat - (beatOf p e).toNat * p.tickPeriod.toNat = e.toNat % p.tickPeriod.toNat := by
  rw [beatOf_toNat, Nat.mod_eq_sub_div_mul]

/-- The count lies in the period that its beat begins. -/
theorem beatOf_bounds {p : Params} (hP : p.tickPeriod ≠ 0#64) (e : BitVec 64) :
    (beatOf p e).toNat * p.tickPeriod.toNat ≤ e.toNat ∧
      e.toNat < ((beatOf p e).toNat + 1) * p.tickPeriod.toNat := by
  have hpos : 0 < p.tickPeriod.toNat := Nat.pos_of_ne_zero (BitVec.toNat_ne.mp hP)
  rw [beatOf_toNat]
  exact ⟨Nat.div_mul_le_self .., Nat.lt_mul_of_div_lt (Nat.lt_succ_self _) hpos⟩

/-- The window is open for the first `CLICK_WINDOW` samples of a beat. -/
theorem showBeatFlag_iff (p : Params) (e : BitVec 64) :
    showBeatFlag p e = true ↔
      e.toNat - (beatOf p e).toNat * p.tickPeriod.toNat < p.clickWindow.toNat := by
  rw [showBeatFlag, decide_eq_true_iff, sub_beatOf_mul]

theorem accentFlag_iff (p : Params) (b : BitVec 64) :
    accentFlag p b = true ↔ p.tsNumerator.toNat ∣ b.toNat := by
  rw [accentFlag, decide_eq_true_iff, Nat.dvd_iff_mod_eq_zero]

/-! ## The operations -/

theorem exec_metUpdate_of_syn {s : State} (h : s.port.agent = .syn) :
    exec .metUpdate s = .next (s.withMet (updateMet s.cfg.params s.port.ops.e)) :=
  ifOwner_of_owner (.next (metUpdate s.port.ops.e s)) h

/-- Where MET.UPDATE completes, its index is the quotient of the count. -/
theorem metUpdate_beatIndex {s t : State} (h : exec .metUpdate s = .next t) :
    t.met.beatIndex.toNat = s.port.ops.e.toNat / s.cfg.params.tickPeriod.toNat := by
  have ht : t = metUpdate s.port.ops.e s := ifOwner_next_eq h
  subst ht
  exact beatOf_toNat s.cfg.params s.port.ops.e

/-- An index below 2^32 is driven, cut to its low 32 bits. -/
theorem exec_metGetBeatIndex_of_fits {s : State} (h : s.port.agent = .syn)
    (hb : s.met.beatIndex.toNat < 2 ^ 32) :
    exec .metGetBeatIndex s =
      .next (s.withRes { s.res with beat := s.met.beatIndex.setWidth 32 }) :=
  (ifOwner_of_owner _ h).trans (if_pos hb)

/-- An index from 2^32 on is out of contract. -/
theorem exec_metGetBeatIndex_of_too_wide {s : State} (h : s.port.agent = .syn)
    (hb : 2 ^ 32 ≤ s.met.beatIndex.toNat) :
    exec .metGetBeatIndex s = .refused (.beatIndexTooWide s.met.beatIndex) :=
  (ifOwner_of_owner _ h).trans (if_neg hb.not_gt)

theorem exec_tsAccent_of_syn {s : State} (h : s.port.agent = .syn) :
    exec .tsAccent s = .next (s.withRes { s.res with accent := s.met.accent }) :=
  ifOwner_of_owner _ h

end Sys2Proof.Machine

namespace Sys2Proof.Proofs
open Sys2Proof Sys2Proof.Machine

/-- Settles O30: the registers written are the quotient and the flags of that quotient. -/
theorem metUpdateEvaluatesTheCount : Obligations.MetUpdateEvaluatesTheCount := by
  intro s ha hP _
  refine ⟨_, exec_metUpdate_of_syn ha, rfl, rfl, ?quotient, ?window, ?accent⟩
  case quotient => exact beatOf_bounds hP s.port.ops.e
  case window => exact showBeatFlag_iff s.cfg.params s.port.ops.e
  case accent => exact accentFlag_iff s.cfg.params (beatOf s.cfg.params s.port.ops.e)

/-- Settles O31: both indices are quotients by one period, and division is monotone. -/
theorem beatIndexIsMonotone : Obligations.BeatIndexIsMonotone := by
  intro s s' t t' hp he h h'
  refine ⟨metUpdate_beatIndex h, ?_⟩
  rw [metUpdate_beatIndex h, metUpdate_beatIndex h', hp]
  exact Nat.div_le_div_right he

/-- Settles O32: an index below 2^32 survives the cut to the width of the port. -/
theorem getBeatIndexFitsOrIsRefused : Obligations.GetBeatIndexFitsOrIsRefused := by
  refine fun s ha => ⟨fun hfits => ?fits, exec_metGetBeatIndex_of_too_wide ha⟩
  case fits =>
    have hcut : (s.met.beatIndex.setWidth 32).toNat = s.met.beatIndex.toNat := by
      rw [BitVec.toNat_setWidth, Nat.mod_eq_of_lt hfits]
    exact ⟨_, hcut, exec_metGetBeatIndex_of_fits ha hfits⟩

/-- Settles O33. -/
theorem tsAccentReadsTheFlag : Obligations.TsAccentReadsTheFlag :=
  fun _ ha => exec_tsAccent_of_syn ha

end Sys2Proof.Proofs
end

section
/-!
PROOFS. Every step keeps the queue invariants (10_state R37, R38, 44_fifo R216).
-/

namespace Sys2Proof.Proofs
open Sys2Proof Sys2Proof.Machine

/-- Settles O51: a step runs the event that stands next, and every event keeps the invariants. -/
theorem stepsKeepQueueInvariants : Obligations.StepsKeepQueueInvariants :=
  fun _ _ hs h => runEvent_queueInv h hs

end Sys2Proof.Proofs
end

section
/-!
PROOFS. Q.TRY_PUSH and Q.TRY_POP as an agent presents them (44_fifo R206 to R209, 60_exceptions R320):
what each does where it finds room or data and where it does not, and what that means for the elements
not yet popped (20_memory R67).
-/

namespace Sys2Proof.Machine

/-! ## The operations, case by case -/

/-- A full queue takes nothing (R207). -/
theorem tryPush_of_full {q : QueueId} {s : State} (v : Elem)
    (h : fullP (s.cap q) (s.cur q) = true) : tryPush q v s = .ok (driveAccepted q false s) :=
  if_pos h

/-- Where the producer sees room the element is written at `q.w` (R206). -/
theorem tryPush_of_room {q : QueueId} {s : State} (v : Elem)
    (h : fullP (s.cap q) (s.cur q) = false) :
    tryPush q v s = .ok (driveAccepted q true
      ((s.withMem (s.mem.put (.ring q) ((s.cur q).w % s.cap q) v)).withCur q
        { s.cur q with w := advance (s.cap q) (s.cur q).w 1 })) := by
  cases ht : tryPush q v s with
  | error f => exact absurd ht (tryPush_no_fault q v s f)
  | ok t =>
    rcases tryPush_ok ht with ⟨hfull, -⟩ | ⟨-, -, rfl⟩
    · exact nomatch h.symm.trans hfull
    · rfl

/-- An empty queue gives a free value (R209). -/
theorem tryPop_of_empty {q : QueueId} {s : State} (h : emptyC (s.cap q) (s.cur q) = true) :
    tryPop q s = .ok (spendDraw (drivePopped q false (Config.popData s.draws) s)) :=
  if_pos h

/-- Where the consumer sees data the element at `q.r` is taken (R208). -/
theorem tryPop_of_data {q : QueueId} {s : State} {e : Elem} (hC : 0 < s.cap q)
    (h : emptyC (s.cap q) (s.cur q) = false)
    (he : s.mem.get (.ring q) ((s.cur q).r % s.cap q) = some e) :
    tryPop q s = .ok (drivePopped q true (e.setWidth 40)
      (s.withCur q { s.cur q with r := advance (s.cap q) (s.cur q).r 1 })) := by
  have hread : readElem s.cfg.params s.mem (.ring q) ((s.cur q).r % s.cap q) = .ok e :=
    (readElem_ok_iff ..).mpr ⟨Nat.mod_lt _ hC, he⟩
  simp [tryPop, h, hread]

/-! ## The operations as presented -/

theorem exec_qTryPush_of_queue {s : State} {q : QueueId} (hq : queueOf s.port.ops.q = some q) :
    exec .qTryPush s = ifOwner (producer q) s (done (tryPush q (portElem s.port.ops.v) s)) := by
  simp only [exec, execQTryPush, hq]

theorem exec_qTryPop_of_queue {s : State} {q : QueueId} (hq : queueOf s.port.ops.q = some q) :
    exec .qTryPop s = ifOwner (consumer q) s (done (tryPop q s)) := by
  simp only [exec, execQTryPop, hq]

/-- A Q.TRY_PUSH that completes is the push of the producer of the queue selected. -/
theorem exec_qTryPush_next {s t : State} (h : exec .qTryPush s = .next t) :
    ∃ q, queueOf s.port.ops.q = some q ∧ s.port.agent = producer q ∧
      tryPush q (portElem s.port.ops.v) s = .ok t := by
  cases hq : queueOf s.port.ops.q with
  | none => simp [exec, execQTryPush, hq] at h
  | some q =>
    rw [exec_qTryPush_of_queue hq, ifOwner_next_iff, done_next_iff] at h
    exact ⟨q, rfl, h⟩

/-- A Q.TRY_POP that completes is the pop of the consumer of the queue selected. -/
theorem exec_qTryPop_next {s t : State} (h : exec .qTryPop s = .next t) :
    ∃ q, queueOf s.port.ops.q = some q ∧ s.port.agent = consumer q ∧ tryPop q s = .ok t := by
  cases hq : queueOf s.port.ops.q with
  | none => simp [exec, execQTryPop, hq] at h
  | some q =>
    rw [exec_qTryPop_of_queue hq, ifOwner_next_iff, done_next_iff] at h
    exact ⟨q, rfl, h⟩

/-- The producer of each queue (60_exceptions R320): VIS for CMD, SYN for the others. -/
theorem producer_eq (q : QueueId) : producer q = if q = .cmd then .vis else .syn := by
  cases q <;> rfl

theorem elemMask_ring (q : QueueId) :
    elemMask (.ring q) = if q = .cmd then 0xFFFFFFFFFF#64 else 0xFFFFFFFF#64 := by
  cases q <;> rfl

end Sys2Proof.Machine

namespace Sys2Proof.Proofs
open Sys2Proof Sys2Proof.Machine

/-- Settles O34: the write is to the one slot that `q.w` names. -/
theorem tryPushIsAcceptedOrRefused : Obligations.TryPushIsAcceptedOrRefused := by
  intro s q hq ha hC
  have hexec : exec .qTryPush s = done (tryPush q (portElem s.port.ops.v) s) := by
    rw [exec_qTryPush_of_queue hq, ifOwner_of_owner _ (ha.trans (producer_eq q).symm)]
  refine ⟨fun hroom => ?room, fun hfull => ?full⟩
  case room =>
    have hnot : fullP (s.cap q) (s.cur q) = false := decide_eq_false (not_le.mpr hroom)
    refine ⟨s.mem.put (.ring q) ((s.cur q).w % s.cap q) (portElem s.port.ops.v), ?_, ?_, ?_⟩
    · rw [Memory.get_put_same, elemMask_ring]
      rfl
    · exact fun a j h => Memory.get_put_other _ _ (not_and_or.mp h)
    · rw [hexec, tryPush_of_room _ hnot]
      cases q <;> rfl
  case full =>
    have hnot : fullP (s.cap q) (s.cur q) = true := decide_eq_true hfull.ge
    rw [hexec, tryPush_of_full _ hnot]
    rfl

/-- Settles O35: the element driven is the one at `q.r`. -/
theorem tryPopTakesOrFindsNothing : Obligations.TryPopTakesOrFindsNothing := by
  intro s q hq ha hC
  have howner : s.port.agent = consumer q := by cases q <;> exact ha
  have hexec : exec .qTryPop s = done (tryPop q s) := by
    rw [exec_qTryPop_of_queue hq, ifOwner_of_owner _ howner]
  refine ⟨fun hdata e he => ?data, fun hnone => ⟨Config.popData s.draws, ?empty⟩⟩
  case data =>
    rw [hexec, tryPop_of_data hC (decide_eq_false hdata) he]
    cases q <;> rfl
  case empty =>
    rw [hexec, tryPop_of_empty (decide_eq_true hnone)]
    rfl

/-- Settles O36: the operation selected is the push, or the pop, of that queue. -/
theorem queuesAreFirstInFirstOut : Obligations.QueuesAreFirstInFirstOut := by
  intro s t q hq ho
  refine ⟨fun h => ?push, fun h => ?pop⟩
  case push =>
    obtain ⟨q', hq', -, h⟩ := exec_qTryPush_next h
    obtain rfl : q = q' := Option.some.inj (hq.symm.trans hq')
    have hother : ∀ r, r ≠ q → contents t r = contents s r := fun r => tryPush_contents_other h
    rcases tryPush_contents h ho with ⟨haccepted, hc⟩ | ⟨hrefused, hc⟩
    · exact ⟨fun _ => hc, by simp [haccepted], hother⟩
    · exact ⟨by simp [hrefused], fun _ => hc, hother⟩
  case pop =>
    obtain ⟨q', hq', -, h⟩ := exec_qTryPop_next h
    obtain rfl : q = q' := Option.some.inj (hq.symm.trans hq')
    have hother : ∀ r, r ≠ q → contents t r = contents s r := fun r => tryPop_contents_other h
    rcases tryPop_contents h ho with ⟨e, hvalid, hd, hc⟩ | ⟨hnone, hc⟩
    · exact ⟨fun _ => ⟨e, hd, hc⟩, by simp [hvalid], hother⟩
    · exact ⟨by simp [hnone], fun _ => hc, hother⟩

end Sys2Proof.Proofs
end

section
/-!
PROOFS. The cursor synchronisers: a lagging copy moves on by the draw, and so nearer to its cursor
(44_fifo R212, R213).
-/

namespace Sys2Proof.Machine

/-- A SYNC agent's step with an admitted draw, at a core that is not held. -/
theorem step_of_sync {s : State} {q : QueueId} {side : SyncSide} {d : Nat} (h0 : s.cfg.fault = 0#8)
    (he : nextEvent s = .sync q side d) (h1 : 1 ≤ d) (hd : d ≤ lagOf (s.cap q) (s.cur q) side) :
    step s = .next ((takeEvent s).withCur q (moveCopy (s.cap q) (s.cur q) side d)) := by
  have hr : ∀ p, nextEvent s ≠ .reset p := fun p => by simp [he]
  rw [step_of_not_held h0 hr, he]
  simp [runAgent, syncStep, h1, hd]

end Sys2Proof.Machine

namespace Sys2Proof.Proofs
open Sys2Proof Sys2Proof.Machine

/-- Settles O38: a draw within the lag brings the copy nearer by as much. -/
theorem syncReadFollowsTheReadCursor : Obligations.SyncReadFollowsTheReadCursor :=
  fun _ _ _ h0 he hr hrs h1 hd =>
    ⟨_, rfl, step_of_sync h0 he h1 hd, modSub_advance_right hr hrs hd⟩

/-- Settles O39: as O38, for the copy of `q.w`. -/
theorem syncWriteFollowsTheWriteCursor : Obligations.SyncWriteFollowsTheWriteCursor :=
  fun _ _ _ h0 he hw hws h1 hd =>
    ⟨_, rfl, step_of_sync h0 he h1 hd, modSub_advance_right hw hws hd⟩

end Sys2Proof.Proofs
end

section
/-!
PROOFS. No step but a reset reorders, loses or invents an element of a queue (20_memory R66, R67,
44_fifo R206 to R210, R216). The event that stands next fixes the queue that the step may push on or pop
from; the step is then that one push or pop, followed by changes that no queue and no queue's port sees,
or it touches no queue's elements.
-/

namespace Sys2Proof.Machine

/-! ## The pushes and the pops that each event stands for -/

theorem pushesNext_of_syn {s : State} (he : nextEvent s = .syn) (q : QueueId) (v : Elem) :
    pushesNext s q v ↔ s.syn.phase = .gen ∧ ∃ y : F, v = y.setWidth 64 ∧
      ((q = .out ∧ s.syn.stage = .pushOut y) ∨ (q = .viz ∧ s.syn.stage = .pushViz y)) := by
  simp [pushesNext, he]

theorem popsNext_of_syn {s : State} (he : nextEvent s = .syn) (q : QueueId) :
    popsNext s q ↔ q = .cmd ∧ s.syn.phase = .drain ∧ s.syn.drained ≠ s.cfg.params.cmdCap := by
  simp [popsNext, fillsNext, he]

theorem pushesNext_of_uop {s : State} {a : Agent} {c : UopCode} {ops : Operands}
    (he : nextEvent s = .uop a c ops) (q : QueueId) (v : Elem) :
    pushesNext s q v ↔ a = producer q ∧ c = 0x40#8 ∧ queueOf ops.q = some q ∧
      v = ops.v.setWidth 64 &&& elemMask (.ring q) := by
  simp [pushesNext, he, and_assoc]

theorem popsNext_of_uop {s : State} {a : Agent} {c : UopCode} {ops : Operands}
    (he : nextEvent s = .uop a c ops) (hb : a = .aud → s.aud.left = 0) (q : QueueId) :
    popsNext s q ↔ a = consumer q ∧ c = 0x41#8 ∧ queueOf ops.q = some q := by
  have hfill : ¬ fillsNext s := by simpa [fillsNext, he, imp_not_comm] using hb
  have hout : a = consumer q → q = .out → s.aud.left = 0 := by
    rintro rfl rfl
    exact hb rfl
  constructor
  · rintro (⟨-, h, -⟩ | ⟨ops', h, hsel, -⟩ | ⟨-, h⟩)
    · exact nomatch he.symm.trans h
    · obtain ⟨rfl, rfl, rfl⟩ := Event.uop.inj (he.symm.trans h)
      exact ⟨rfl, rfl, hsel⟩
    · exact absurd h hfill
  · rintro ⟨ha, rfl, hsel⟩
    exact .inr (.inl ⟨ops, ha ▸ he, hsel, hout ha⟩)

/-- A slot of Q.FILL pops from OUT alone. -/
theorem fillsNext.popsNext_iff {s : State} (h : fillsNext s) (q : QueueId) :
    popsNext s q ↔ q = .out := by
  refine ⟨fun hp => ?_, fun hq => .inr (.inr ⟨hq, h⟩)⟩
  rcases hp with ⟨-, hsyn, -⟩ | ⟨ops', huop, -⟩ | ⟨hq, -⟩
  · obtain ⟨-, he | ⟨c, ops, he⟩⟩ := h <;> exact nomatch he.symm.trans hsyn
  · obtain ⟨-, he | ⟨c, ops, he⟩⟩ := h
    · exact nomatch he.symm.trans huop
    · have hagent : .aud = consumer q := (Event.uop.inj (he.symm.trans huop)).1
      cases q with
      | out => rfl
      | viz | cmd => cases hagent
  · exact hq

/-- AUD pushes on no queue. -/
theorem fillsNext.not_pushesNext {s : State} (h : fillsNext s) (q : QueueId) (v : Elem) :
    ¬ pushesNext s q v := by
  obtain ⟨-, he | ⟨c, ops, he⟩⟩ := h
  · simp [pushesNext, he]
  · cases q <;> simp [pushesNext, he, producer]

/-! ## What a step does to the elements of one queue -/

/-- A step from `s` to `t` leaves the elements of a queue, or puts the element it pushes behind them, or
takes and drives the oldest. -/
def KeepsOrder (s t : State) (q : QueueId) : Prop :=
  (contents t q = contents s q ∧
    (∀ v, pushesNext s q v → (t.res.queue q).accepted = false) ∧
    (popsNext s q → (t.res.queue q).valid = false)) ∨
  (∃ v, pushesNext s q v ∧ (t.res.queue q).accepted = true ∧
    contents t q = contents s q ++ [some v]) ∨
  (∃ v, popsNext s q ∧ (t.res.queue q).valid = true ∧
    (t.res.queue q).data = v.setWidth 40 ∧ contents s q = some v :: contents t q ∧
    (q = .out → fillsNext s → t.aud.block = s.aud.block ++ [v.setWidth 32]))

theorem KeepsOrder.of_idle {s t : State} {q : QueueId} (hc : contents t q = contents s q)
    (hpush : ∀ v, ¬ pushesNext s q v) (hpop : ¬ popsNext s q) : KeepsOrder s t q :=
  .inl ⟨hc, fun v h => absurd h (hpush v), fun h => absurd h hpop⟩

/-- The steps of a SYNC agent and an idle slot push and pop nothing. -/
theorem KeepsOrder.of_other_event {s t : State} {q : QueueId} (hc : contents t q = contents s q)
    (hsyn : nextEvent s ≠ .syn) (huop : ∀ a c ops, nextEvent s ≠ .uop a c ops)
    (hfill : ¬ fillsNext s) : KeepsOrder s t q :=
  .of_idle hc (fun v => by simp [pushesNext, hsyn, huop]) (by simp [popsNext, hsyn, huop, hfill])

theorem SameQueues.cursorsOk {s t : State} (h : SameQueues s t) {q : QueueId}
    (ho : CursorsOk (s.cap q) (s.cur q)) : CursorsOk (t.cap q) (t.cur q) := by
  rwa [h.cap, h.cur]

/-- A step that is one push on queue `r`, up to changes that no queue sees. -/
theorem KeepsOrder.of_tryPush {s s' u t : State} {r : QueueId} {v : Elem}
    (hu : tryPush r v s' = .ok u) (hs : SameQueues s s') (ht : SameQueues u t)
    (hres : t.res = u.res) (ho : CursorsOk (s.cap r) (s.cur r))
    (hpush : pushesNext s r (v &&& elemMask (.ring r)))
    (honly : ∀ q w, pushesNext s q w → q = r) (hpop : ∀ q, ¬ popsNext s q) (q : QueueId) :
    KeepsOrder s t q := by
  by_cases hq : q = r
  · subst hq
    rcases tryPush_contents hu (hs.cursorsOk ho) with ⟨ha, hc⟩ | ⟨ha, hc⟩ <;>
      rw [hs.contents, ← ht.contents] at hc <;> rw [← hres] at ha
    · exact .inr (.inl ⟨_, hpush, ha, hc⟩)
    · exact .inl ⟨hc, fun _ _ => ha, fun h => absurd h (hpop q)⟩
  · have hc : contents t q = contents s q := by
      rw [ht.contents, tryPush_contents_other hu hq, hs.contents]
    exact .of_idle hc (fun w hw => hq (honly q w hw)) (hpop q)

/-- A step that is one pop from queue `r`, up to changes that no queue sees; a slot of Q.FILL adds what
it popped to the block. -/
theorem KeepsOrder.of_tryPop {s s' u t : State} {r : QueueId}
    (hu : tryPop r s' = .ok u) (hs : SameQueues s s') (ht : SameQueues u t)
    (hres : t.res = u.res) (ho : CursorsOk (s.cap r) (s.cur r))
    (hpop : popsNext s r) (honly : ∀ q, popsNext s q → q = r) (hpush : ∀ q v, ¬ pushesNext s q v)
    (hfill : fillsNext s → u.res.outQ.valid = true →
      t.aud.block = s.aud.block ++ [u.res.outQ.data.setWidth 32]) (q : QueueId) :
    KeepsOrder s t q := by
  by_cases hq : q = r
  · subst hq
    rcases tryPop_contents hu (hs.cursorsOk ho) with ⟨e, hv, hd, hc⟩ | ⟨hv, hc⟩ <;>
      rw [hs.contents, ← ht.contents] at hc <;> rw [← hres] at hv
    · rw [← hres] at hd hfill
      refine .inr (.inr ⟨e, hpop, hv, hd, hc, ?_⟩)
      rintro rfl hf
      have hcut : t.res.outQ.data.setWidth 32 = e.setWidth 32 := by
        change (t.res.queue .out).data.setWidth 32 = _
        rw [hd, BitVec.setWidth_setWidth_of_le e (by decide)]
      rw [hfill hf hv, hcut]
    · exact .inl ⟨hc, fun v h => absurd h (hpush q v), fun _ => hv⟩
  · have hc : contents t q = contents s q := by
      rw [ht.contents, tryPop_contents_other hu hq, hs.contents]
    exact .of_idle hc (hpush q) fun h => hq (honly q h)

/-! ## The steps of SYN -/

/-- A command word touches no queue and drives no port. -/
theorem executeWord_same {w : CmdWord} {s t : State} (h : executeWord w s = .next t) :
    SameQueues s t ∧ t.res = s.res := by
  rcases executeWord_next h with ⟨i, hd, he⟩ | ⟨-, -, rfl⟩
  · exact command_same hd he
  · exact ⟨.refl _, rfl⟩

/-- SYN in Drain pops from CMD, unless the drain is at its bound (46_sequencer_commands R261, R262). -/
theorem drainStep_keepsOrder {s t : State} (he : nextEvent s = .syn) (hphase : s.syn.phase = .drain)
    (hq : ∀ q, QueueOk s q) (h : drainStep (takeEvent s) = .next t) (q : QueueId) :
    KeepsOrder s t q := by
  have hpush : ∀ q v, ¬ pushesNext s q v := by simp [pushesNext_of_syn he, hphase]
  have hfill : ¬ fillsNext s := by simp [fillsNext, he]
  rcases drainStep_next h with ⟨hend, rfl⟩ | ⟨hmore, u, hu, hrest⟩
  · have hsame : SameQueues s (endDrain (takeEvent s)) := .of_fields rfl rfl rfl rfl rfl
    refine .of_idle (hsame.contents q) (hpush q) fun hp => ?_
    obtain ⟨-, -, hne⟩ := (popsNext_of_syn he q).mp hp
    exact hne hend
  · obtain ⟨ht, hres⟩ : SameQueues u t ∧ t.res = u.res := by
      rcases hrest with ⟨-, rfl⟩ | ⟨-, hx⟩
      · exact ⟨.of_fields rfl rfl rfl rfl rfl, rfl⟩
      · obtain ⟨hsame, hres⟩ := executeWord_same hx
        exact ⟨SameQueues.trans (by exact .of_fields rfl rfl rfl rfl rfl) hsame, hres⟩
    exact .of_tryPop hu (takeEvent_same s) ht hres (hq .cmd).1
      ((popsNext_of_syn he .cmd).mpr ⟨rfl, hphase, hmore⟩)
      (fun q hp => ((popsNext_of_syn he q).mp hp).1) hpush (fun hf => absurd hf hfill) q

/-- A ring of samples keeps every bit of a sample. -/
theorem sampleElem_and_mask (y : F) : sampleElem y &&& 0x00000000FFFFFFFF#64 = y.setWidth 64 := by
  rw [← setWidth_back_32, sampleElem, BitVec.setWidth_setWidth_of_le y (by decide)]
  simp

/-- SYN in Gen pushes its sample on OUT, then on VIZ (R270). -/
theorem genStep_keepsOrder {s t : State} (he : nextEvent s = .syn) (hphase : s.syn.phase = .gen)
    (hq : ∀ q, QueueOk s q) (h : genStep (takeEvent s) = .next t) (q : QueueId) :
    KeepsOrder s t q := by
  have hpop : ∀ q, ¬ popsNext s q := by simp [popsNext_of_syn he, hphase]
  rcases genStep_next h with ⟨hstage, rfl⟩ | ⟨y, hstage, hg⟩ | ⟨y, hstage, hg⟩ <;>
    rw [takeEvent_syn] at hstage
  · have hc := ((takeEvent_same s).trans (genCompute_same _)).contents q
    exact .of_idle hc (by simp [pushesNext_of_syn he, hstage]) (hpop q)
  · obtain ⟨u, hu, hrest⟩ := genPushOut_ok hg
    obtain ⟨ht, hres⟩ : SameQueues u t ∧ t.res = u.res := by
      rcases hrest with ⟨-, rfl⟩ | ⟨-, rfl⟩ <;> exact ⟨.of_fields rfl rfl rfl rfl rfl, rfl⟩
    exact .of_tryPush hu (takeEvent_same s) ht hres (hq .out).1
      ((pushesNext_of_syn he ..).mpr
        ⟨hphase, y, sampleElem_and_mask y, .inl ⟨rfl, hstage⟩⟩)
      (by simp +contextual [pushesNext_of_syn he, hstage]) hpop q
  · obtain ⟨u, hu, hrest⟩ := genPushViz_ok hg
    obtain ⟨ht, hres⟩ : SameQueues u t ∧ t.res = u.res := by
      rcases hrest with ⟨-, rfl⟩ | ⟨-, rfl⟩ <;> exact ⟨.of_fields rfl rfl rfl rfl rfl, rfl⟩
    exact .of_tryPush hu (takeEvent_same s) ht hres (hq .viz).1
      ((pushesNext_of_syn he ..).mpr
        ⟨hphase, y, sampleElem_and_mask y, .inr ⟨rfl, hstage⟩⟩)
      (by simp +contextual [pushesNext_of_syn he, hstage]) hpop q

/-! ## The slots of Q.FILL and the operations presented -/

/-- What a slot of Q.FILL adds to its pop is AUD's own (44_fifo R210). -/
theorem fillSlot_pop {s u : State} (h : fillSlot s = .ok u) :
    ∃ t, tryPop .out s = .ok t ∧ SameQueues t u ∧ u.res = t.res ∧
      (t.res.outQ.valid = true → u.aud.block = s.aud.block ++ [t.res.outQ.data.setWidth 32]) := by
  obtain ⟨t, ht, ⟨hv, rfl⟩ | ⟨hv, rfl⟩⟩ := fillSlot_ok h
  · refine ⟨t, ht, .of_fields rfl rfl rfl rfl rfl, rfl, fun _ => ?_⟩
    simp [slotSample, hv, (tryPop_schedule ht).2]
  · exact ⟨t, ht, .of_fields rfl rfl rfl rfl rfl, rfl, fun hv' => nomatch hv.symm.trans hv'⟩

/-- A slot of Q.FILL, of itself or before an operation of AUD that waits for it. -/
theorem fillSlot_keepsOrder {s s' t : State} (h : fillSlot s' = .ok t) (hf : fillsNext s)
    (hq : QueueOk s .out) (hs : SameQueues s s') (haud : s'.aud = s.aud) (q : QueueId) :
    KeepsOrder s t q := by
  obtain ⟨u, hu, ht, hres, hblock⟩ := fillSlot_pop h
  exact .of_tryPop hu hs ht hres hq.1 ((hf.popsNext_iff .out).mpr rfl)
    (fun q => (hf.popsNext_iff q).mp) hf.not_pushesNext (fun _ => haud ▸ hblock) q

/-- An operation presented at once is a push, a pop, or one that touches no queue. -/
theorem exec_keepsOrder {s t : State} {a : Agent} {c : UopCode} {ops : Operands} {i : Instr}
    (he : nextEvent s = .uop a c ops) (hb : a = .aud → s.aud.left = 0) (hq : ∀ q, QueueOk s q)
    (hi : encode i = .uop c) (h : exec i ((takeEvent s).withPort ⟨a, ops⟩) = .next t)
    (q : QueueId) : KeepsOrder s t q := by
  have hs : SameQueues s ((takeEvent s).withPort ⟨a, ops⟩) := .of_fields rfl rfl rfl rfl rfl
  have hpush := pushesNext_of_uop he
  have hpop := popsNext_of_uop he hb
  by_cases hipush : i = .qTryPush
  · subst hipush
    obtain ⟨r, hr, ha, hu⟩ := exec_qTryPush_next h
    obtain rfl : 0x40#8 = c := Encoded.uop.inj hi
    exact .of_tryPush hu hs (.refl t) rfl (hq r).1 ((hpush ..).mpr ⟨ha, rfl, hr, rfl⟩)
      (fun q w hw => Option.some.inj (((hpush q w).mp hw).2.2.1.symm.trans hr))
      (by simp [hpop]) q
  by_cases hipop : i = .qTryPop
  · subst hipop
    obtain ⟨r, hr, ha, hu⟩ := exec_qTryPop_next h
    obtain rfl : 0x41#8 = c := Encoded.uop.inj hi
    have hfill : ¬ fillsNext s := by simpa [fillsNext, he, imp_not_comm] using hb
    exact .of_tryPop hu hs (.refl t) rfl (hq r).1 ((hpop r).mpr ⟨ha, rfl, hr⟩)
      (fun q hp => Option.some.inj (((hpop q).mp hp).2.2.symm.trans hr))
      (by simp [hpush]) (fun hf => absurd hf hfill) q
  have hc := (hs.trans (exec_same hipush hipop h)).contents q
  have hcode : ∀ j, encode j = .uop c → i = j := fun j hj =>
    Except.ok.inj ((decodeUop_eq_ok_iff.mpr hi).symm.trans (decodeUop_eq_ok_iff.mpr hj))
  refine .of_idle hc (fun v hw => ?_) (fun hp => ?_)
  · obtain ⟨-, rfl, -⟩ := (hpush q v).mp hw
    exact hipush (hcode _ rfl)
  · obtain ⟨-, rfl, -⟩ := (hpop q).mp hp
    exact hipop (hcode _ rfl)

/-- An operation that completes runs the instruction encoded as its code. -/
theorem present_next {a : Agent} {c : UopCode} {ops : Operands} {s t : State}
    (h : present a c ops s = .next t) :
    ∃ i, encode i = .uop c ∧ exec i (s.withPort ⟨a, ops⟩) = .next t := by
  unfold present at h
  split at h
  · rename_i i hi
    exact ⟨i, decodeUop_eq_ok_iff.mp hi, h⟩
  · cases h

/-- An agent's operation in program order: AUD's waits while it fills (20_memory R65). -/
theorem presentInOrder_keepsOrder {s t : State} {a : Agent} {c : UopCode} {ops : Operands}
    (he : nextEvent s = .uop a c ops) (hq : ∀ q, QueueOk s q)
    (h : presentInOrder a c ops (takeEvent s) = .next t) (q : QueueId) : KeepsOrder s t q := by
  by_cases hbusy : a = .aud ∧ s.aud.left ≠ 0
  · obtain ⟨rfl, hl⟩ := hbusy
    rw [presentInOrder_of_busy (s := takeEvent s) c ops hl, done_next_iff] at h
    have hsame : SameQueues s
        ((takeEvent s).withAgenda (.uop .aud c ops :: (takeEvent s).agenda)) :=
      .of_fields rfl rfl rfl rfl rfl
    exact fillSlot_keepsOrder h ⟨hl, .inr ⟨c, ops, he⟩⟩ (hq .out) hsame rfl q
  · have hb : a = .aud → s.aud.left = 0 := by simpa using hbusy
    rw [presentInOrder_of_not_busy (s := takeEvent s) c ops hb] at h
    obtain ⟨i, hi, hx⟩ := present_next h
    exact exec_keepsOrder he hb hq hi hx q

/-! ## The steps -/

/-- A synchroniser changes the elements of no queue (44_fifo R212, R213). -/
theorem syncStep_contents (r : QueueId) (side : SyncSide) (d : Nat) (s : State) (q : QueueId) :
    contents (syncStep r side d s) q = contents s q := by
  rcases syncStep_cases r side d s with h | ⟨-, -, h⟩ <;> rw [h]
  by_cases hq : q = r
  · subst hq
    exact contents_sync (side := side) (d := d) (by simp) (by simp) (by simp)
  · simp [contents, cur_withCur_other hq]

/-- Every step but a reset. -/
theorem step_keepsOrder {s t : State} (hs : QueueInv s) (h : step s = .next t)
    (hr : ∀ p, nextEvent s ≠ .reset p) (q : QueueId) : KeepsOrder s t q := by
  rcases step_next_cases h with ⟨p, hp, -⟩ | ⟨h0, hs'⟩
  · exact absurd hp (hr p)
  have hq := hs.queueOk h0
  rcases hs' with ⟨he, h⟩ | ⟨r, side, d, he, rfl⟩ | ⟨a, c, ops, he, h⟩ | ⟨he, hl, h⟩ |
    ⟨he, hl, rfl⟩
  · unfold synStep at h
    split at h
    · exact drainStep_keepsOrder he ‹_› hq h q
    · exact genStep_keepsOrder he ‹_› hq h q
  · have hfill : ¬ fillsNext s := by simp [fillsNext, he]
    exact .of_other_event ((syncStep_contents ..).trans ((takeEvent_same s).contents q))
      (by simp [he]) (by simp [he]) hfill
  · exact presentInOrder_keepsOrder he hq h q
  · exact fillSlot_keepsOrder h ⟨hl, .inl he⟩ (hq .out) (takeEvent_same s) rfl q
  · have hfill : ¬ fillsNext s := by simp [fillsNext, hl]
    exact .of_other_event ((takeEvent_same s).contents q) (by simp [he]) (by simp [he]) hfill

end Sys2Proof.Machine

namespace Sys2Proof.Proofs
open Sys2Proof Sys2Proof.Machine

/-- Settles O37: the event that stands next decides, and each event keeps the order. -/
theorem noStepReordersAQueue : Obligations.NoStepReordersAQueue :=
  fun _ _ hs h hr q => step_keepsOrder hs h hr q

end Sys2Proof.Proofs
end

section
/-!
PROOFS. Q.FILL (44_fifo R210): it begins with no slot done; each slot then takes the next sample that AUD
sees, or is silent and counted. A whole fill is a run of slots with samples, then a run of silent ones.
-/

namespace Sys2Proof.Machine

/-! ## The operation -/

theorem queueOf_eq_out_iff (x : BitVec 2) : queueOf x = some .out ↔ x = 0#2 := by
  revert x
  decide

/-! ## One slot -/

/-- `min(c + 1, 0xFFFFFFFF)` (10_state R42). -/
theorem satInc_toNat (c : BitVec 32) : (satInc c).toNat = min (c.toNat + 1) 0xFFFFFFFF := by
  have hc := c.isLt
  unfold satInc
  split
  · rename_i h
    simp [h]
  · rename_i h
    have hne : c.toNat ≠ 0xFFFFFFFF := fun he => h (BitVec.eq_of_toNat_eq he)
    rw [BitVec.toNat_add_of_lt (by simp; omega)]
    simp
    omega

/-- A counter raised `m` times, saturating. -/
def satAdd (c : BitVec 32) (m : Nat) : BitVec 32 := BitVec.ofNat 32 (min (c.toNat + m) 0xFFFFFFFF)

@[simp] theorem satAdd_toNat (c : BitVec 32) (m : Nat) :
    (satAdd c m).toNat = min (c.toNat + m) 0xFFFFFFFF := by
  rw [satAdd, BitVec.toNat_ofNat, Nat.mod_eq_of_lt (by omega)]

@[simp] theorem satAdd_zero (c : BitVec 32) : satAdd c 0 = c :=
  BitVec.eq_of_toNat_eq (by have := c.isLt; simp; omega)

theorem satAdd_satInc (c : BitVec 32) (m : Nat) : satAdd (satInc c) m = satAdd c (m + 1) :=
  BitVec.eq_of_toNat_eq (by simp [satInc_toNat]; omega)

/-- What the slots of a Q.FILL leave as it was. -/
structure FillFrame (s t : State) : Prop where
  mem : t.mem = s.mem
  osc : t.osc = s.osc
  env : t.env = s.env
  met : t.met = s.met
  vizQ : t.vizQ = s.vizQ
  cmdQ : t.cmdQ = s.cmdQ
  syn : t.syn = s.syn
  fftN : t.fftN = s.fftN
  cfg : t.cfg = s.cfg
  audSeen : t.audSeen = s.audSeen
  visSeen : t.visSeen = s.visSeen
  port : t.port = s.port
  rota : t.rota = s.rota

theorem FillFrame.refl (s : State) : FillFrame s s := by constructor <;> rfl

theorem FillFrame.trans {s t u : State} (h : FillFrame s t) (h' : FillFrame t u) : FillFrame s u := by
  constructor
  exacts [h'.mem.trans h.mem, h'.osc.trans h.osc, h'.env.trans h.env, h'.met.trans h.met,
    h'.vizQ.trans h.vizQ, h'.cmdQ.trans h.cmdQ, h'.syn.trans h.syn, h'.fftN.trans h.fftN,
    h'.cfg.trans h.cfg, h'.audSeen.trans h.audSeen, h'.visSeen.trans h.visSeen,
    h'.port.trans h.port, h'.rota.trans h.rota]

theorem fillSlot_frame {s u : State} (h : fillSlot s = .ok u) : FillFrame s u := by
  obtain ⟨t, ht, ⟨-, rfl⟩ | ⟨-, rfl⟩⟩ := fillSlot_ok h <;>
    rcases tryPop_ok ht with ⟨-, rfl⟩ | ⟨e, -, -, -, rfl⟩ <;> constructor <;> rfl

/-- A slot that finds no sample is silent, and counted (R210, 60_exceptions R310). -/
theorem fillSlot_of_empty {s u : State} (h : fillSlot s = .ok u)
    (he : emptyC (s.cap .out) s.outQ = true) :
    u.outQ = s.outQ ∧ u.aud = ⟨s.aud.left - 1, s.aud.block ++ [posZero]⟩ ∧
      u.ctr = { s.ctr with outUnderflows := satInc s.ctr.outUnderflows } := by
  obtain ⟨t, ht, hrest⟩ := fillSlot_ok h
  obtain rfl : _ = t := Except.ok.inj ((tryPop_of_empty he).symm.trans ht)
  rcases hrest with ⟨hv, -⟩ | ⟨-, rfl⟩
  · cases hv
  · exact ⟨rfl, rfl, rfl⟩

/-- A slot that finds a sample takes it (R208, R210). -/
theorem fillSlot_of_data {s u : State} (h : fillSlot s = .ok u)
    (he : emptyC (s.cap .out) s.outQ = false) :
    ∃ e, s.mem.get (.ring .out) (s.outQ.r % s.cap .out) = some e ∧
      u.outQ = { s.outQ with r := advance (s.cap .out) s.outQ.r 1 } ∧
      u.aud = ⟨s.aud.left - 1, s.aud.block ++ [e.setWidth 32]⟩ ∧ u.ctr = s.ctr := by
  obtain ⟨t, ht, hrest⟩ := fillSlot_ok h
  rcases tryPop_ok ht with ⟨he', -⟩ | ⟨e, -, -, hg, rfl⟩
  · exact nomatch he.symm.trans he'
  · rcases hrest with ⟨-, rfl⟩ | ⟨hv, -⟩
    · have hcut : (e.setWidth 40).setWidth 32 = e.setWidth 32 :=
        BitVec.setWidth_setWidth_of_le e (by decide)
      exact ⟨e, hg, rfl, by rw [← hcut]; rfl, rfl⟩
    · cases hv

/-! ## A fill whose slots stand next on the agenda -/

/-- A Q.FILL with `n` slots to do and the block so far, no other agent stepping before they are done. -/
structure Filling (s : State) (n : Nat) (block : List F) (rest : List Event) : Prop where
  fault : s.cfg.fault = 0#8
  queue : QueueOk s .out
  aud : s.aud = ⟨n, block⟩
  agenda : s.agenda = List.replicate n .fillSlot ++ rest

theorem Filling.cursorsOk {s : State} {n : Nat} {block : List F} {rest : List Event}
    (h : Filling s n block rest) : CursorsOk (s.cap .out) s.outQ := h.queue.1

/-- The next slot is done. -/
theorem Filling.step {s : State} {n : Nat} {block : List F} {rest : List Event}
    (h : Filling s (n + 1) block rest) :
    ∃ t y, step s = .next t ∧ FillFrame s t ∧ Filling t n (block ++ [y]) rest ∧
      ((availC (s.cap .out) s.outQ = 0 ∧ y = posZero ∧ t.outQ = s.outQ ∧
          t.ctr = { s.ctr with outUnderflows := satInc s.ctr.outUnderflows }) ∨
        (availC (s.cap .out) s.outQ ≠ 0 ∧
          ∃ e, s.mem.get (.ring .out) (s.outQ.r % s.cap .out) = some e ∧ y = e.setWidth 32 ∧
            t.outQ = { s.outQ with r := advance (s.cap .out) s.outQ.r 1 } ∧ t.ctr = s.ctr)) := by
  obtain ⟨h0, hq, haud, hagenda⟩ := h
  have hagenda : s.agenda = .fillSlot :: (List.replicate n .fillSlot ++ rest) := hagenda
  have he := nextEvent_of_agenda hagenda
  have hstep : Machine.step s = done (fillSlot (takeEvent s)) := by
    rw [step_of_not_held h0 (by simp [he]), he]
    simp [runAgent, audBusy, haud]
  have hq' := (takeEvent_same s).queueOk hq
  cases hfill : fillSlot (takeEvent s) with
  | error f => exact absurd hfill (fillSlot_no_fault hq' f)
  | ok t =>
    have hframe : FillFrame s t := by
      refine FillFrame.trans ?_ (fillSlot_frame hfill)
      constructor <;> simp [nextRota, hagenda]
    have hfilling : ∀ y, t.aud = ⟨s.aud.left - 1, s.aud.block ++ [y]⟩ →
        Filling t n (block ++ [y]) rest := fun y hy => by
      refine ⟨hframe.cfg ▸ h0, (fillSlot_move hfill .out).1.queueOk hframe.cfg hq', ?_, ?_⟩
      · simpa [haud] using hy
      · rw [(fillSlot_schedule hfill).1.agenda, takeEvent_agenda, hagenda, List.tail_cons]
    cases hempty : emptyC (s.cap .out) s.outQ with
    | true =>
      obtain ⟨hcur, hy, hctr⟩ := fillSlot_of_empty hfill hempty
      exact ⟨t, _, by rw [hstep, hfill, done_ok], hframe, hfilling _ hy,
        .inl ⟨of_decide_eq_true hempty, rfl, hcur, hctr⟩⟩
    | false =>
      obtain ⟨e, hg, hcur, hy, hctr⟩ := fillSlot_of_data hfill hempty
      exact ⟨t, _, by rw [hstep, hfill, done_ok], hframe, hfilling _ hy,
        .inr ⟨of_decide_eq_false hempty, e, hg, rfl, hcur, hctr⟩⟩

/-! ## Runs of slots -/

/-- A consumer that takes `k` of the elements it sees, sees `k` fewer. -/
theorem CursorsOk.availC_advance {C : Nat} {c : Cursors} (h : CursorsOk C c) {k : Nat}
    (hk : k ≤ availC C c) : availC C { c with r := advance C c.r k } = availC C c - k :=
  modSub_advance_right h.wSync_lt h.r_lt hk

theorem runSteps_succ {s t : State} (n : Nat) (h : step s = .next t) :
    runSteps (n + 1) s = runSteps n t := by
  simp only [runSteps, h]

theorem runSteps_add {m : Nat} {s t : State} (h : runSteps m s = .next t) (n : Nat) :
    runSteps (m + n) s = runSteps n t := by
  induction m generalizing s with
  | zero =>
    obtain rfl : s = t := Host.Outcome.next.inj h
    rw [Nat.zero_add]
  | succ m ih =>
    cases hs : step s with
    | next u =>
      rw [runSteps_succ m hs] at h
      rw [Nat.add_right_comm, runSteps_succ _ hs, ih h]
    | fault f => simp [runSteps, hs] at h
    | refused r => simp [runSteps, hs] at h

/-- The first `k` samples not yet popped from OUT. -/
def samplesSeen (C : Nat) (m : Memory) (c : Cursors) (k : Nat) : List F :=
  (List.range k).map fun j => ((m.get (.ring .out) (slotIndex C c j)).getD 0#64).setWidth 32

/-- The sample at the read cursor, then those that stand behind it once it is popped. -/
theorem samplesSeen_succ {C : Nat} {m : Memory} {c : Cursors} {e : Elem} (hr : c.r < 2 * C)
    (he : m.get (.ring .out) (c.r % C) = some e) (k : Nat) :
    samplesSeen C m c (k + 1) =
      e.setWidth 32 :: samplesSeen C m { c with r := advance C c.r 1 } k := by
  have hfirst : slotIndex C c 0 = c.r % C := by
    rw [slotIndex, advance, Nat.add_zero, Nat.mod_eq_of_lt hr]
  simp [samplesSeen, List.range_succ_eq_map, hfirst, he, Function.comp_def, slotIndex_pop]

/-- While AUD sees samples the slots take them, in order. -/
theorem Filling.takes_samples {s : State} {k m : Nat} {block : List F} {rest : List Event}
    (h : Filling s (k + m) block rest) (hk : k ≤ availC (s.cap .out) s.outQ) :
    ∃ t, runSteps k s = .next t ∧ FillFrame s t ∧
      Filling t m (block ++ samplesSeen (s.cap .out) s.mem s.outQ k) rest ∧
      t.outQ = { s.outQ with r := advance (s.cap .out) s.outQ.r k } ∧ t.ctr = s.ctr := by
  induction k generalizing s block with
  | zero =>
    have hr : advance (s.cap .out) s.outQ.r 0 = s.outQ.r := Nat.mod_eq_of_lt h.cursorsOk.r_lt
    rw [Nat.zero_add] at h
    exact ⟨s, rfl, .refl s, by simpa [samplesSeen] using h, by rw [hr], rfl⟩
  | succ k ih =>
    rw [Nat.add_right_comm] at h
    have hok := h.cursorsOk
    obtain ⟨u, y, hstep, hframe, hu, ⟨h0, -⟩ | ⟨-, e, he, rfl, hcur, hctr⟩⟩ := h.step
    · omega
    have hcap : u.cap .out = s.cap .out := by rw [State.cap, hframe.cfg, State.cap]
    have havail : availC (u.cap .out) u.outQ = availC (s.cap .out) s.outQ - 1 := by
      rw [hcap, hcur, hok.availC_advance (by omega)]
    obtain ⟨t, hrun, hframe', ht, hcur', hctr'⟩ := ih hu (by omega)
    rw [hcap, hcur] at hcur'
    rw [hcap, hcur, hframe.mem, List.append_assoc, List.singleton_append,
      ← samplesSeen_succ hok.r_lt he] at ht
    refine ⟨t, by rw [runSteps_succ k hstep, hrun], hframe.trans hframe', ht, ?_,
      hctr'.trans hctr⟩
    rw [hcur', advance_advance, Nat.add_comm]

/-- Once AUD sees no sample every slot left is silent, and counted. -/
theorem Filling.falls_silent {s : State} {m : Nat} {block : List F} {rest : List Event}
    (h : Filling s m block rest) (hempty : m ≠ 0 → availC (s.cap .out) s.outQ = 0) :
    ∃ t, runSteps m s = .next t ∧ FillFrame s t ∧
      Filling t 0 (block ++ List.replicate m posZero) rest ∧ t.outQ = s.outQ ∧
      t.ctr = { s.ctr with outUnderflows := satAdd s.ctr.outUnderflows m } := by
  induction m generalizing s block with
  | zero => exact ⟨s, rfl, .refl s, by simpa using h, rfl, by simp⟩
  | succ m ih =>
    obtain ⟨u, y, hstep, hframe, hu, ⟨h0, rfl, hcur, hctr⟩ | ⟨hne, -⟩⟩ := h.step
    · have hcap : u.cap .out = s.cap .out := by rw [State.cap, hframe.cfg, State.cap]
      obtain ⟨t, hrun, hframe', ht, hcur', hctr'⟩ := ih hu fun _ => by rw [hcap, hcur, h0]
      rw [List.append_assoc, List.singleton_append, ← List.replicate_succ] at ht
      rw [hctr, satAdd_satInc] at hctr'
      exact ⟨t, by rw [runSteps_succ m hstep, hrun], hframe.trans hframe', ht,
        hcur'.trans hcur, hctr'⟩
    · exact absurd (hempty m.succ_ne_zero) hne

/-- The whole fill: the samples that AUD sees, then silence. -/
theorem Filling.completes {s : State} {n : Nat} {block : List F} {rest : List Event}
    (h : Filling s n block rest) :
    let k := min n (availC (s.cap .out) s.outQ)
    ∃ t, runSteps n s = .next t ∧ FillFrame s t ∧
      Filling t 0 (block ++ samplesSeen (s.cap .out) s.mem s.outQ k ++
        List.replicate (n - k) posZero) rest ∧
      t.outQ = { s.outQ with r := advance (s.cap .out) s.outQ.r k } ∧
      t.ctr = { s.ctr with outUnderflows := satAdd s.ctr.outUnderflows (n - k) } := by
  intro k
  have hsum : k + (n - k) = n := Nat.add_sub_of_le (Nat.min_le_left ..)
  have hk : k ≤ availC (s.cap .out) s.outQ := Nat.min_le_right ..
  have hsplit : Filling s (k + (n - k)) block rest := hsum.symm ▸ h
  obtain ⟨u, hrun, hframe, hu, hcur, hctr⟩ := hsplit.takes_samples hk
  have hcap : u.cap .out = s.cap .out := by rw [State.cap, hframe.cfg, State.cap]
  have hempty : n - k ≠ 0 → availC (u.cap .out) u.outQ = 0 := fun hne => by
    rw [hcap, hcur, h.cursorsOk.availC_advance hk]
    omega
  obtain ⟨t, hrun', hframe', ht, hcur', hctr'⟩ := hu.falls_silent hempty
  refine ⟨t, ?_, hframe.trans hframe', ht, hcur'.trans hcur, hctr ▸ hctr'⟩
  rw [← hsum, runSteps_add hrun, hrun']

end Sys2Proof.Machine

namespace Sys2Proof.Proofs
open Sys2Proof Sys2Proof.Machine

/-- Settles O41: selector 0 alone names OUT. -/
theorem fillBegins : Obligations.FillBegins := by
  intro s ha
  have hexec : exec .qFill s = if queueOf s.port.ops.q = some .out then
      .next (startFill s.port.ops.n s) else .refused .fillNotOnOut := ifOwner_of_owner _ ha
  rw [hexec]
  exact ⟨fun h => if_pos ((queueOf_eq_out_iff _).mpr h),
    fun h => if_neg (mt (queueOf_eq_out_iff _).mp h)⟩

/-- Settles O42: the fill as a run of slots with samples, then a run of silent ones. -/
theorem fillTakesSamplesThenSilence : Obligations.FillTakesSamplesThenSilence := by
  intro s n rest h0 hcur hwritten haud hagenda
  have hfilling : Filling s n [] rest := ⟨h0, ⟨hcur, hwritten⟩, haud, hagenda⟩
  obtain ⟨t, hrun, hframe, ht, hcur', hctr⟩ := hfilling.completes
  exact ⟨t, hrun, ht.aud, hcur', hctr, ht.agenda, hframe.mem, hframe.osc, hframe.env, hframe.met,
    hframe.vizQ, hframe.cmdQ, hframe.syn, hframe.fftN, hframe.cfg, hframe.audSeen, hframe.visSeen,
    hframe.port, hframe.rota⟩

end Sys2Proof.Proofs
end

section
/-!
PROOFS. The FFT operations of VIS (45_fft): the working length is the least power of two that holds the
input, FFT.TRANSFORM is the recursion of R235 on the padded input, and FFT.MAG gives the bins of the
first half.
-/

namespace Sys2Proof.Machine

/-! ## The working length (45_fft R231) -/

@[simp] theorem paddedLength_zero : paddedLength 0 = 0 := rfl

/-- No smaller power of two holds the input: `L - 1 < 2 ^ j` bounds the logarithm of `L - 1`. -/
theorem paddedLength_le_two_pow {L j : Nat} (h : L ≤ 2 ^ j) : paddedLength L ≤ 2 ^ j := by
  unfold paddedLength
  split
  case isTrue => exact Nat.zero_le _
  case isFalse h0 =>
    split
    case isTrue => exact Nat.one_le_two_pow
    case isFalse h1 =>
      have hlog : Nat.log2 (L - 1) < j := (Nat.log2_lt (by omega)).mpr (by omega)
      exact Nat.pow_le_pow_right two_pos hlog

/-! ## FFT.TRANSFORM (45_fft R232 to R236) -/

/-- VIS issues both operations (30_encoding R97). -/
theorem exec_fftTransform_of_vis {s : State} (h : s.port.agent = .vis) :
    exec .fftTransform s = done (transform s.port.ops.x s) := ifOwner_of_owner _ h

theorem exec_fftMag_of_vis {s : State} (h : s.port.agent = .vis) :
    exec .fftMag s = done (magnitudes s) := ifOwner_of_owner _ h

theorem transform_nil (s : State) : transform [] s =
    .ok ((s.withFftN 0).withRes { s.res with fftStatus := 0#1, fftLength := 0, fftX := [] }) := rfl

theorem transform_oversize {x : List Elem} {s : State} (hx : x ≠ [])
    (hN : s.cfg.params.fftMaxN < paddedLength x.length) :
    transform x s = .ok (s.withRes { s.res with fftStatus := 1#1 }) := by
  have hlen : x.length ≠ 0 := mt List.length_eq_zero_iff.mp hx
  simp only [transform, if_neg hlen, if_pos hN]

/-- The values that FFT.TRANSFORM computes with working length `n`: the recursion of R235 on the padded
input. -/
def fftSpectrum (n : Nat) (x : List Elem) : List Complex :=
  fftOfList n (Nat.log2 n) 1 ((padded n x).map Complex.unpack)

theorem fftSpectrum_length {n : Nat} {x : List Elem} (hn : n = 2 ^ Nat.log2 n)
    (hx : x.length ≤ n) :
    (fftSpectrum n x).length = n :=
  (fftOfList_length _ _ _ _ (by rwa [List.length_map, padded_length hx])).trans hn.symm

/-- A run of reads over values that a buffer holds gives those values. -/
theorem readRun_of_holds {p : Params} {m : Memory} {a : ArrayId} {zs : List Complex}
    (h : Holds m a 0 1 zs) (hsize : zs.length ≤ arraySize p a) :
    readRun p m a zs.length 0 = .ok (zs.map Complex.pack) := by
  have hget : ∀ k (hk : k < zs.length), m.get a (0 + k) = some zs[k].pack := fun k hk => by
    simpa using h k zs[k] (List.getElem?_eq_getElem hk)
  obtain ⟨es, hes⟩ := readRun_total (p := p) (m := m) (a := a) zs.length 0 (by omega)
    fun k hk => by rw [hget k hk, Option.isSome_some]
  obtain ⟨hlen, hread⟩ := readRun_ok _ _ hes
  rw [hes, Except.ok.injEq]
  refine List.ext_getElem? fun k => ?_
  by_cases hk : k < zs.length
  · rw [← (hread k hk).1, hget k hk, List.getElem?_map, List.getElem?_eq_getElem hk, Option.map_some]
  · rw [List.getElem?_eq_none (by omega), List.getElem?_eq_none (by simpa using hk)]

/-- The loading and the recursion (R233, R235) complete from any contents of the buffers, leave the
spectrum in `fft.A`, and change the two buffers alone, below the working length. -/
theorem load_fftRec_spec {p : Params} {n : Nat} {x : List Elem} (m : Memory)
    (hn : n = 2 ^ Nat.log2 n) (hx : x.length ≤ n) (hmax : n ≤ p.fftMaxN) :
    ∃ m₁ m₂, loadInput p x n 0 m = .ok m₁ ∧
      fftRec p (Nat.log2 n + 1) .fftA .fftB 0 n 1 m₁ = .ok m₂ ∧
      Holds m₂ .fftA 0 1 (fftSpectrum n x) ∧
      ∀ b i, ¬(isFft b ∧ i < n) → m₂.get b i = m.get b i := by
  obtain ⟨m₁, hload, hloaded, hkept⟩ := loadInput_spec p x n 0 m (by omega)
  have hbuf : ∀ b, isFft b → Holds m₁ b 0 1 ((padded n x).map Complex.unpack) := fun b hb =>
    holds_padded hx fun k hk => hloaded b k hb (Nat.zero_le k) (by omega)
  obtain ⟨m₂, hrec, hspec, hkept'⟩ := fftRec_spec p hmax (Nat.log2 n) (Nat.log2 n + 1) 0
    .fftA .fftB 0 ((padded n x).map Complex.unpack) m₁ (.inl rfl) (.inr rfl) (by simp)
    (by simpa using hn) (Nat.le_succ _) (by simp) (by rwa [List.length_map, padded_length hx])
    (hbuf _ (.inl rfl)) (hbuf _ (.inr rfl))
  refine ⟨m₁, m₂, hload, hrec, hspec, fun b i hbi => ?_⟩
  rw [hkept', hkept]
  · rintro ⟨hb, -, hi⟩
    exact hbi ⟨hb, by omega⟩
  · rintro ⟨hb, k, hk, rfl⟩
    exact hbi ⟨hb, by omega⟩

/-- FFT.TRANSFORM on input that fits (R233 to R236). -/
theorem transform_computes_fftSpectrum {x : List Elem} {s : State} (hx : x ≠ [])
    (hmax : paddedLength x.length ≤ s.cfg.params.fftMaxN) :
    ∃ m, transform x s = .ok (((s.withMem m).withFftN (paddedLength x.length)).withRes
        { s.res with
          fftStatus := 0#1, fftLength := paddedLength x.length
          fftX := (fftSpectrum (paddedLength x.length) x).map Complex.pack }) ∧
      (fftSpectrum (paddedLength x.length) x).length = paddedLength x.length ∧
      Holds m .fftA 0 1 (fftSpectrum (paddedLength x.length) x) ∧
      ∀ b i, ¬(isFft b ∧ i < paddedLength x.length) → m.get b i = s.mem.get b i := by
  have hlen : x.length ≠ 0 := mt List.length_eq_zero_iff.mp hx
  obtain ⟨hpow, hle⟩ := paddedLength_pow hlen
  obtain ⟨m₁, m₂, hload, hrec, hspec, hkept⟩ := load_fftRec_spec s.mem hpow hle hmax
  have hlength := fftSpectrum_length hpow hle
  have hread := readRun_of_holds (p := s.cfg.params) hspec (by rwa [hlength])
  rw [hlength] at hread
  refine ⟨m₂, ?_, hlength, hspec, hkept⟩
  simp only [transform, if_neg hlen, if_neg (not_lt.mpr hmax), hload, hrec, hread]

/-! ## FFT.MAG (45_fft R238) -/

@[simp] theorem binsFrom_length (p : Params) (n k : Nat) (es : List Elem) :
    (binsFrom p n k es).length = es.length := by
  induction es generalizing k with
  | nil => rfl
  | cons e es ih => simp [binsFrom, ih]

theorem binsFrom_getElem? (p : Params) (n k j : Nat) (es : List Elem) :
    (binsFrom p n k es)[j]? = es[j]?.map (binOf p n (k + j)) := by
  induction es generalizing k j with
  | nil => simp [binsFrom]
  | cons e es ih =>
    cases j with
    | zero => simp [binsFrom]
    | succ j => simp [binsFrom, ih, Nat.add_assoc, Nat.add_comm 1 j]

/-- On a readable result FFT.MAG gives the bins of its first half (10_state R41). -/
theorem magnitudes_of_fftInv {s : State} (h : FftInv s) :
    ∃ es, magnitudes s = .ok (s.withRes { s.res with bins := binsFrom s.cfg.params s.fftN 0 es }) ∧
      es.length = s.fftN / 2 ∧
      ∀ k < s.fftN / 2, ∃ e, s.mem.get .fftA k = some e ∧ es[k]? = some e := by
  obtain ⟨t, ht⟩ : ∃ t, magnitudes s = .ok t := by
    cases hm : magnitudes s with
    | error f => exact absurd hm (magnitudes_no_fault h f)
    | ok t => exact ⟨t, rfl⟩
  obtain ⟨es, hread, rfl⟩ := magnitudes_ok ht
  obtain ⟨hlen, hes⟩ := readRun_ok _ _ hread
  refine ⟨es, ht, hlen, fun k hk => ?_⟩
  obtain ⟨hget, hsome⟩ := hes k hk
  obtain ⟨e, he⟩ := Option.isSome_iff_exists.mp hsome
  rw [Nat.zero_add] at hget he
  exact ⟨e, he, hget ▸ he⟩

end Sys2Proof.Machine

namespace Sys2Proof.Proofs
open Sys2Proof Sys2Proof.Machine

/-- Settles O44: the bound below is `paddedLength_pow`, the bound above `paddedLength_le_two_pow`. -/
theorem paddedLengthIsTheNextPowerOfTwo : Obligations.PaddedLengthIsTheNextPowerOfTwo := by
  refine ⟨paddedLength_zero, fun L hL => ?_⟩
  obtain ⟨hpow, hle⟩ := paddedLength_pow (Nat.one_le_iff_ne_zero.mp hL)
  exact ⟨⟨_, hpow⟩, hle, fun _ => paddedLength_le_two_pow⟩

/-- Settles O45: the first two branches of the transform. -/
theorem fftEmptyAndOversize : Obligations.FftEmptyAndOversize := by
  intro s ha
  rw [exec_fftTransform_of_vis ha]
  refine ⟨fun hx => ?_, fun hx hN => ?_⟩
  · rw [hx, transform_nil]
    rfl
  · rw [transform_oversize hx hN]
    rfl

/-- Settles O46: the two-buffer recursion against the recursion over lists, on the padded input. -/
theorem fftTransformComputesTheRecursion : Obligations.FftTransformComputesTheRecursion := by
  intro s ha hx hmax N X
  obtain ⟨m, hrun, hlen, hspec, hkept⟩ := transform_computes_fftSpectrum hx hmax
  refine ⟨m, ?_, (List.length_map _).trans hlen, fun k hk => ?_, fun q i => hkept _ _ ?_,
    fun i hi => ⟨hkept _ _ ?_, hkept _ _ ?_⟩⟩
  · rw [exec_fftTransform_of_vis ha, hrun]
    rfl
  · have hz := List.getElem?_eq_getElem (hk.trans_eq hlen.symm)
    have hget := hspec k _ hz
    rw [Nat.zero_add, Nat.mul_one] at hget
    rw [hget, List.getElem?_map]
    exact (congrArg (Option.map Complex.pack) hz).symm
  · simp [isFft]
  · exact fun h => hi.not_gt h.2
  · exact fun h => hi.not_gt h.2

/-- Settles O47: the bins of the run that was read, one for each element. -/
theorem fftMagGivesTheBins : Obligations.FftMagGivesTheBins := by
  intro s ha hinv
  obtain ⟨es, hrun, hlen, hes⟩ := magnitudes_of_fftInv hinv
  refine ⟨binsFrom s.cfg.params s.fftN 0 es, ?_, (binsFrom_length ..).trans hlen, fun k hk => ?_⟩
  · rw [exec_fftMag_of_vis ha, hrun]
    rfl
  · obtain ⟨e, hget, he⟩ := hes k hk
    refine ⟨e, hget, ?_⟩
    rw [binsFrom_getElem?, he, Nat.zero_add]
    rfl

end Sys2Proof.Proofs
end

section
/-!
PROOFS. The command words that set a register by an id, and START and STOP (46_sequencer_commands R263,
R264, R266, R267, 30_encoding R93 to R96).
-/

namespace Sys2Proof.Machine

/-- `id = arg[7:0]` (30_encoding R93). -/
theorem argId_toNat (arg : BitVec 32) : (argId arg).toNat = arg.toNat % 256 := by
  simp [argId]

/-! ## CHANGE_OSCILLATOR keeps the duty held (R266) -/

/-- The bounds of a duty in `[0,1]` exclude a NaN and leave nothing to clamp (10_state R24,
40_oscillator R122). -/
theorem clampDuty_of_inRange {d : F} (h : dutyInRange d = true) :
    isNaN d = false ∧ clampDuty d = d := by
  simp only [dutyInRange, fge, fle, ordered, Bool.and_eq_true, Bool.not_eq_true',
    decide_eq_true_eq] at h
  obtain ⟨⟨⟨hnan, -⟩, hlow⟩, -, hhigh⟩ := h
  have hnotlow : flt d posZero = false := by simp [flt, hlow]
  have hnothigh : flt one d = false := by simp [flt, hhigh]
  exact ⟨hnan, by simp [clampDuty, hnotlow, hnothigh]⟩

/-- A known id sets the waveform alone, where the duty given is the one held and lies in `[0,1]`. -/
theorem setWaveType_keeps_duty {w : BitVec 8} (h : w.toNat ≤ 4) {s : State}
    (hd : w = 2#8 → dutyInRange s.osc.duty = true) :
    ∃ k : WaveType, k.code.toNat = w.toNat ∧
      setWaveType w s.osc.duty s = .next (s.withOsc { s.osc with waveType := k }) := by
  obtain ⟨k, hk, hcode⟩ := waveOf_of_le h
  refine ⟨k, hcode, ?_⟩
  by_cases hsq : k = .square
  · subst hsq
    have hw : w = 2#8 := BitVec.eq_of_toNat_eq hcode.symm
    obtain ⟨hnan, hclamp⟩ := clampDuty_of_inRange (hd hw)
    rw [setWaveType_square hw hnan, hclamp]
  · exact setWaveType_of_ne_square hk hsq _ s

/-! ## CHANGE_NOISE (R267, 30_encoding R96) -/

/-- The ids above 2 name no selection. -/
theorem noiseOf_of_gt {w : BitVec 8} (h : 2 < w.toNat) : noiseOf w = none := by
  unfold noiseOf
  split
  case h_4 => rfl
  all_goals omega

/-- The ids up to 2 name the selection with that code. -/
theorem noiseOf_of_le {w : BitVec 8} (h : w.toNat ≤ 2) :
    ∃ k : NoiseSel, noiseOf w = some k ∧ k.code.toNat = w.toNat := by
  unfold noiseOf
  interval_cases w.toNat
  · exact ⟨.none, rfl, rfl⟩
  · exact ⟨.uniform, rfl, rfl⟩
  · exact ⟨.gaussian, rfl, rfl⟩

/-! ## The commands -/

/-- CHANGE_OSCILLATOR is OSC.SET_WAVE_TYPE of its id and the duty held (R266). -/
theorem exec_changeOscillator (arg : BitVec 32) (s : State) :
    exec (.changeOscillator arg) s = setWaveType (argId arg) s.osc.duty s := rfl

theorem exec_changeNoise_of_unknown {arg : BitVec 32} (h : noiseOf (argId arg) = none) (s : State) :
    exec (.changeNoise arg) s = .next s := by
  simp only [exec, execChangeNoise, h]

theorem exec_changeNoise_of_known {arg : BitVec 32} {k : NoiseSel} (h : noiseOf (argId arg) = some k)
    (s : State) : exec (.changeNoise arg) s = .next (s.withSyn { s.syn with noiseSel := k }) := by
  simp only [exec, execChangeNoise, h]

end Sys2Proof.Machine

namespace Sys2Proof.Proofs
open Sys2Proof Sys2Proof.Machine

/-- Settles O20. -/
theorem startAndStopSetRunning : Obligations.StartAndStopSetRunning :=
  fun _ _ => ⟨rfl, rfl⟩

/-- Settles O23: an unknown id names no waveform, and for Square the duty held is its own clamp. -/
theorem changeOscillatorSetsTheWave : Obligations.ChangeOscillatorSetsTheWave := by
  intro s arg id
  have hid : (argId arg).toNat = id := argId_toNat arg
  rw [exec_changeOscillator, ← hid]
  refine ⟨fun h => setWaveType_of_unknown (waveOf_of_gt h) _ s, fun h hd => ?_⟩
  exact setWaveType_keeps_duty h fun hw => hd (congrArg BitVec.toNat hw)

/-- Settles O24, by what the id names. -/
theorem changeNoiseSetsTheSelection : Obligations.ChangeNoiseSetsTheSelection := by
  intro s arg id
  have hid : (argId arg).toNat = id := argId_toNat arg
  rw [← hid]
  refine ⟨fun h => exec_changeNoise_of_unknown (noiseOf_of_gt h) s, fun h => ?_⟩
  obtain ⟨k, hk, hcode⟩ := noiseOf_of_le h
  exact ⟨k, hcode, exec_changeNoise_of_known hk s⟩

end Sys2Proof.Proofs
end

section
/-!
PROOFS. SYN in Drain (46_sequencer_commands R261, R262, R272): a word that SYN sees is popped, counted
and executed; at the bound, or where SYN sees none, the drain ends.
-/

namespace Sys2Proof.Machine

/-- SYN's own step, at a core that is not held. -/
theorem step_of_syn {s : State} (h0 : s.cfg.fault = 0#8) (he : nextEvent s = .syn) :
    step s = synStep (takeEvent s) := by
  have hr : ∀ p, nextEvent s ≠ .reset p := fun p => by simp [he]
  rw [step_of_not_held h0 hr, he]
  rfl

theorem step_of_drain {s : State} (h0 : s.cfg.fault = 0#8) (he : nextEvent s = .syn)
    (h : s.syn.phase = .drain) : step s = drainStep (takeEvent s) := by
  rw [step_of_syn h0 he, synStep, takeEvent_syn, h]

/-! ## The three cases of a drain step -/

theorem drainStep_at_bound {s : State} (h : s.syn.drained = s.cfg.params.cmdCap) :
    drainStep s = .next (endDrain s) := if_pos h

/-- Below the bound with no word visible (R262, 44_fifo R209). -/
theorem drainStep_of_empty {s : State} (hd : s.syn.drained ≠ s.cfg.params.cmdCap)
    (he : emptyC (s.cap .cmd) (s.cur .cmd) = true) :
    drainStep s =
      .next (endDrain (spendDraw (drivePopped .cmd false (Config.popData s.draws) s))) := by
  rw [drainStep, if_neg hd, tryPop_of_empty he]
  rfl

/-- The state once SYN has popped the word of element `e`: CMD and its ports as after any pop, and one
more word drained (R261, 44_fifo R208). -/
def afterWordPop (e : Elem) (s : State) : State :=
  { s with
    cmdQ := { s.cmdQ with r := advance (s.cap .cmd) s.cmdQ.r 1 }
    res := { s.res with cmdQ := { s.res.cmdQ with valid := true, data := e.setWidth 40 } }
    syn := { s.syn with drained := s.syn.drained + 1 } }

/-- Below the bound with a word visible (R261). -/
theorem drainStep_of_data {s : State} {e : Elem} (hd : s.syn.drained ≠ s.cfg.params.cmdCap)
    (hC : 0 < s.cap .cmd) (hdata : emptyC (s.cap .cmd) (s.cur .cmd) = false)
    (he : s.mem.get (.ring .cmd) ((s.cur .cmd).r % s.cap .cmd) = some e) :
    drainStep s = executeWord (e.setWidth 40) (afterWordPop e s) := by
  rw [drainStep, if_neg hd, tryPop_of_data hC hdata he]
  rfl

/-! ## EXECUTE (R261, R272) -/

theorem executeWord_of_command {w : CmdWord} {i : Instr} (h : decodeCmd w = .ok i) (s : State) :
    executeWord w s = exec i s := by
  simp only [executeWord, h]

/-- A word whose `op` is 07 or more does nothing (30_encoding R100). -/
theorem executeWord_of_unknown {w : CmdWord} (h : 0x07 ≤ (cmdOp w).toNat) (s : State) :
    executeWord w s = .next s := by
  rcases decodeCmd_cases w with ⟨mk, hrow, -⟩ | ⟨-, herr⟩
  · exact absurd hrow.op_lt (not_lt.mpr h)
  · simp only [executeWord, herr]

/-! ## The step -/

/-- A step of SYN that finds a command word executes it after the pop. -/
theorem step_of_visible_word {s : State} {e : Elem} (h0 : s.cfg.fault = 0#8)
    (he : nextEvent s = .syn) (hphase : s.syn.phase = .drain)
    (hd : s.syn.drained ≠ s.cfg.params.cmdCap) (hC : 0 < s.cfg.params.cmdCap)
    (hdata : availC s.cfg.params.cmdCap s.cmdQ ≠ 0)
    (hword : s.mem.get (.ring .cmd) (s.cmdQ.r % s.cfg.params.cmdCap) = some e) :
    step s = executeWord (e.setWidth 40) (afterWordPop e (takeEvent s)) := by
  rw [step_of_drain h0 he hphase]
  exact drainStep_of_data hd hC (decide_eq_false hdata) hword

end Sys2Proof.Machine

namespace Sys2Proof.Proofs
open Sys2Proof Sys2Proof.Machine

/-- Settles O6. -/
theorem stepRunsPoppedCommand : Obligations.StepRunsPoppedCommand := by
  intro s e i h0 he hphase hd hC hdata hword hi
  rw [step_of_visible_word h0 he hphase hd hC hdata hword]
  exact executeWord_of_command hi _

/-- Settles O7. -/
theorem unknownCommandIgnored : Obligations.UnknownCommandIgnored := by
  intro s e h0 he hphase hd hC hdata hword hop
  rw [ushiftRight_toNat_eq_cmdOp] at hop
  rw [step_of_visible_word h0 he hphase hd hC hdata hword]
  exact executeWord_of_unknown hop _

/-- Settles O8: the bound is tested before the pop. -/
theorem drainEnds : Obligations.DrainEnds := by
  intro s h0 he hphase
  rw [step_of_drain h0 he hphase]
  refine ⟨drainStep_at_bound (s := takeEvent s), fun hd hnone => ⟨Config.popData s.draws, ?_⟩⟩
  exact drainStep_of_empty (s := takeEvent s) hd (decide_eq_true hnone)

end Sys2Proof.Proofs
end

section
/-!
PROOFS. The first part of a sample step (46_sequencer_commands R270): the oscillator, the noise and the
envelope each advanced once and mixed, or silence while stopped, and the metronome in either case.
-/

namespace Sys2Proof.Machine

theorem step_of_gen {s : State} (h0 : s.cfg.fault = 0#8) (he : nextEvent s = .syn)
    (h : s.syn.phase = .gen) : step s = genStep (takeEvent s) := by
  rw [step_of_syn h0 he, synStep, takeEvent_syn, h]

theorem genStep_of_compute {s : State} (h : s.syn.stage = .compute) :
    genStep s = .next (genCompute s) := by
  simp only [genStep, h]

/-! ## The three units, each by what it drives and what it holds afterwards -/

/-- The sample of OSC.RUN: silence at frequency zero (40_oscillator R123, R130). -/
def oscSampleOf (p : Params) (o : Osc) : F :=
  if feq o.frequency posZero then posZero else waveSample p o

/-- The registers after OSC.RUN: the phase is kept at frequency zero (40_oscillator R129, R130). -/
def oscAfterRun (p : Params) (o : Osc) : Osc :=
  { o with phase := if feq o.frequency posZero then o.phase else advancePhase p o }

/-- OSC.RUN in one form for both frequencies. -/
theorem oscRun_eq_oscAfterRun (s : State) :
    oscRun s = (s.withOsc (oscAfterRun s.cfg.params s.osc)).withRes
      { s.res with oscSample := oscSampleOf s.cfg.params s.osc } := by
  cases h : feq s.osc.frequency posZero with
  | true =>
    rw [oscRun_of_zero h, oscAfterRun, oscSampleOf, if_pos h, if_pos h]
    rfl
  | false =>
    rw [oscRun_of_nonzero h, oscAfterRun, oscSampleOf, if_neg (by simp [h]), if_neg (by simp [h])]

/-- The noise terms a selection admits (41_noise R151, R152, R154). -/
def NoiseAdmitted (k : NoiseSel) (n : F) : Prop :=
  (k = .none → n = posZero) ∧
  (k = .uniform → isFinite n = true ∧ fle minusOne n = true ∧ fle n one = true) ∧
  (k = .gaussian → isFinite n = true)

/-- The noise step drives the noise term, where one is selected, and spends draws. -/
theorem noiseStep_eq (s : State) : ∃ n drawn,
    noiseStep s = (s.withRes { s.res with
      noiseSample := if s.syn.noiseSel = .none then s.res.noiseSample else n }).withDraws drawn ∧
    noiseTerm (noiseStep s) = n ∧ NoiseAdmitted s.syn.noiseSel n := by
  have hsel : (noiseStep s).syn.noiseSel = s.syn.noiseSel := by rw [(noiseStep_sameUnits s).syn]
  unfold noiseTerm
  rw [hsel]
  cases h : s.syn.noiseSel with
  | none =>
    have hstep : noiseStep s = s := by simp only [noiseStep, h]
    rw [hstep]
    exact ⟨posZero, s.draws, rfl, rfl, fun _ => rfl, (nomatch ·), (nomatch ·)⟩
  | uniform =>
    have hstep : noiseStep s = noiseUniform s := by simp only [noiseStep, h]
    have hlegal := (legalUniform_iff _).mp (legalUniform_uniformOf (Config.uniformDraw s.draws))
    rw [hstep]
    exact ⟨_, s.draws + 1, rfl, rfl, (nomatch ·), fun _ => hlegal, (nomatch ·)⟩
  | gaussian =>
    have hstep : noiseStep s = noiseGaussian s := by simp only [noiseStep, h]
    have hfinite := isFinite_gaussianOf (Config.gaussianDraw s.draws)
    rw [hstep]
    exact ⟨_, s.draws + 1, rfl, rfl, (nomatch ·), (nomatch ·), fun _ => hfinite⟩

/-- The three units advanced once: what each drives, and the noise term to be mixed (R270). -/
theorem advanceUnits_eq (s : State) :
    let p := s.cfg.params
    ∃ n drawn,
      advanceUnits s = { s with
        osc := oscAfterRun p s.osc
        env := updateEnv p s.env
        res := { s.res with
          oscSample := oscSampleOf p s.osc
          noiseSample := if s.syn.noiseSel = .none then s.res.noiseSample else n
          volume := updateResult s.env (updateEnv p s.env) }
        draws := drawn } ∧
      noiseTerm (advanceUnits s) = n ∧ NoiseAdmitted s.syn.noiseSel n := by
  obtain ⟨n, drawn, hstep, hterm, hn⟩ := noiseStep_eq (oscRun s)
  rw [oscRun_syn] at hn
  refine ⟨n, drawn, ?_, hterm, hn⟩
  rw [advanceUnits, hstep, oscRun_eq_oscAfterRun]
  rfl

/-! ## The metronome (43_metronome R192) -/

/-- The registers after MET.UPDATE, with the beat as a quotient of naturals. -/
theorem updateMet_eq (p : Params) (e : BitVec 64) :
    updateMet p e = ⟨e, BitVec.ofNat 64 (e.toNat / p.tickPeriod.toNat),
      decide (e.toNat % p.tickPeriod.toNat < p.clickWindow.toNat),
      decide (e.toNat / p.tickPeriod.toNat % p.tsNumerator.toNat = 0)⟩ := by
  rw [updateMet, accentFlag, beatOf_toNat]
  rfl

/-! ## The two cases -/

/-- While running, the mix of the three units waits to be pushed (R270). -/
theorem genCompute_of_running {s : State} (h : s.syn.running = true) :
    let p := s.cfg.params
    let vol := updateResult s.env (updateEnv p s.env)
    ∃ n drawn,
      genCompute s = { s with
        osc := oscAfterRun p s.osc
        env := updateEnv p s.env
        met := updateMet p s.syn.sampleCount
        res := { s.res with
          oscSample := oscSampleOf p s.osc
          noiseSample := if s.syn.noiseSel = .none then s.res.noiseSample else n
          volume := vol }
        draws := drawn
        syn := { s.syn with
          stage := .pushOut
            (fmul (fadd (oscSampleOf p s.osc) n) (if p.envGate then vol else one)) } } ∧
      NoiseAdmitted s.syn.noiseSel n := by
  obtain ⟨n, drawn, hunits, hterm, hn⟩ := advanceUnits_eq s
  refine ⟨n, drawn, ?_, hn⟩
  simp only [genCompute, if_pos h, mix, hterm]
  rw [hunits]
  rfl

/-- While stopped, silence waits to be pushed (R270). -/
theorem genCompute_of_stopped {s : State} (h : s.syn.running = false) :
    genCompute s = { s with
      met := updateMet s.cfg.params s.syn.sampleCount
      syn := { s.syn with stage := .pushOut posZero } } := by
  have hnot : ¬ s.syn.running = true := by simp [h]
  simp only [genCompute, if_neg hnot]
  rfl

/-- A step of SYN at the start of a sample. -/
theorem step_of_compute {s : State} (h0 : s.cfg.fault = 0#8) (he : nextEvent s = .syn)
    (hphase : s.syn.phase = .gen) (hstage : s.syn.stage = .compute) :
    step s = .next (genCompute (takeEvent s)) := by
  rw [step_of_gen h0 he hphase]
  exact genStep_of_compute hstage

end Sys2Proof.Machine

namespace Sys2Proof.Proofs
open Sys2Proof Sys2Proof.Machine

/-- Settles O9. -/
theorem runningSampleIsMixed : Obligations.RunningSampleIsMixed := by
  intro s h0 he hphase hstage hrun p silent o env vol b
  obtain ⟨n, drawn, hgen, hn⟩ := genCompute_of_running (s := takeEvent s) hrun
  refine ⟨n, drawn, ?_, hn⟩
  rw [step_of_compute h0 he hphase hstage, hgen, updateMet_eq]
  rfl

/-- Settles O10. -/
theorem stoppedSampleIsSilent : Obligations.StoppedSampleIsSilent := by
  intro s h0 he hphase hstage hrun p b
  rw [step_of_compute h0 he hphase hstage, genCompute_of_stopped (s := takeEvent s) hrun,
    updateMet_eq]
  rfl

end Sys2Proof.Proofs
end

section
/-!
PROOFS. The second and the third part of a sample step (46_sequencer_commands R270): the sample goes to
OUT and then to VIZ, written at the write cursor where there is room, else dropped and counted.
-/

namespace Sys2Proof.Machine

theorem genStep_of_pushOut {s : State} {y : F} (h : s.syn.stage = .pushOut y) :
    genStep s = done (genPushOut y s) := by
  simp only [genStep, h]

theorem genStep_of_pushViz {s : State} {y : F} (h : s.syn.stage = .pushViz y) :
    genStep s = done (genPushViz y s) := by
  simp only [genStep, h]

/-! ## A sample pushed or dropped -/

/-- The arrays after a sample is written to a ring of samples: the one element, whole, and no other
(44_fifo R206). -/
theorem Memory.put_sample (m : Memory) {q : QueueId} (hq : q ≠ .cmd) (i : Nat) (y : F) :
    (m.put (.ring q) i (sampleElem y)).get (.ring q) i = some (y.setWidth 64) ∧
    ∀ a j, ¬(a = .ring q ∧ j = i) → (m.put (.ring q) i (sampleElem y)).get a j = m.get a j := by
  refine ⟨?_, fun a j h => Memory.get_put_other _ _ (not_and_or.mp h)⟩
  rw [Memory.get_put_same, elemMask_ring, if_neg hq, sampleElem_and_mask]

/-- The saturating increment as the spec writes it (10_state R42). -/
theorem satInc_eq (c : BitVec 32) : satInc c = BitVec.ofNat 32 (min (c.toNat + 1) 0xFFFFFFFF) := by
  rw [← satAdd_zero (satInc c), satAdd_satInc]
  rfl

/-- The push on OUT where there is room. -/
theorem genPushOut_of_room {s : State} (y : F) (h : fullP (s.cap .out) s.outQ = false) :
    genPushOut y s = .ok { s with
      mem := s.mem.put (.ring .out) (s.outQ.w % s.cap .out) (sampleElem y)
      outQ := { s.outQ with w := advance (s.cap .out) s.outQ.w 1 }
      res := { s.res with outQ := { s.res.outQ with accepted := true } }
      syn := { s.syn with stage := .pushViz y } } := by
  rw [genPushOut, tryPush_of_room (q := .out) _ h]
  rfl

/-- The push on OUT where there is none: a drop is counted (60_exceptions R310). -/
theorem genPushOut_of_full {s : State} (y : F) (h : fullP (s.cap .out) s.outQ = true) :
    genPushOut y s = .ok { s with
      res := { s.res with outQ := { s.res.outQ with accepted := false } }
      ctr := { s.ctr with outDrops := satInc s.ctr.outDrops }
      syn := { s.syn with stage := .pushViz y } } := by
  rw [genPushOut, tryPush_of_full (q := .out) _ h]
  rfl

/-- The push on VIZ where there is room, and the end of the sample step. -/
theorem genPushViz_of_room {s : State} (y : F) (h : fullP (s.cap .viz) s.vizQ = false) :
    genPushViz y s = .ok { s with
      mem := s.mem.put (.ring .viz) (s.vizQ.w % s.cap .viz) (sampleElem y)
      vizQ := { s.vizQ with w := advance (s.cap .viz) s.vizQ.w 1 }
      res := { s.res with vizQ := { s.res.vizQ with accepted := true } }
      syn := nextSlot s.cfg.params s.syn } := by
  rw [genPushViz, tryPush_of_room (q := .viz) _ h]
  rfl

/-- The push on VIZ where there is none: a drop is counted, and the sample step ends as well. -/
theorem genPushViz_of_full {s : State} (y : F) (h : fullP (s.cap .viz) s.vizQ = true) :
    genPushViz y s = .ok { s with
      res := { s.res with vizQ := { s.res.vizQ with accepted := false } }
      ctr := { s.ctr with vizDrops := satInc s.ctr.vizDrops }
      syn := nextSlot s.cfg.params s.syn } := by
  rw [genPushViz, tryPush_of_full (q := .viz) _ h]
  rfl

/-- The end of a sample step, case by case: the block goes on, or SYN goes back to Drain. -/
theorem nextSlot_eq (p : Params) (x : Syn) :
    nextSlot p x =
      if x.pos + 1 = p.blockSize then
        { x with sampleCount := x.sampleCount + 1#64, phase := .drain, pos := 0, stage := .compute }
      else { x with sampleCount := x.sampleCount + 1#64, pos := x.pos + 1, stage := .compute } := by
  unfold nextSlot
  split <;> rfl

end Sys2Proof.Machine

namespace Sys2Proof.Proofs
open Sys2Proof Sys2Proof.Machine

/-- Settles O11: OUT is full for its producer exactly where nothing is written. -/
theorem sampleGoesToOut : Obligations.SampleGoesToOut := by
  intro s y h0 he hphase hstage hC C
  rw [step_of_gen h0 he hphase, genStep_of_pushOut (s := takeEvent s) hstage]
  refine ⟨fun hroom => ⟨s.mem.put (.ring .out) (s.outQ.w % C) (sampleElem y), ?_⟩, fun hfull => ?_⟩
  · have hnot : fullP C s.outQ = false := decide_eq_false (not_le.mpr hroom)
    obtain ⟨helem, hother⟩ := s.mem.put_sample (q := .out) (by decide) (s.outQ.w % C) y
    refine ⟨helem, hother, ?_⟩
    rw [genPushOut_of_room (s := takeEvent s) y hnot]
    rfl
  · have hyes : fullP C s.outQ = true := decide_eq_true hfull.ge
    rw [genPushOut_of_full (s := takeEvent s) y hyes, satInc_eq]
    rfl

/-- Settles O12: as O11 for VIZ, and in either case the sample step ends. -/
theorem sampleGoesToVizAndStepEnds : Obligations.SampleGoesToVizAndStepEnds := by
  intro s y h0 he hphase hstage hC C syn'
  have hsyn : nextSlot s.cfg.params s.syn = syn' := nextSlot_eq ..
  rw [step_of_gen h0 he hphase, genStep_of_pushViz (s := takeEvent s) hstage,
    ← hsyn]
  refine ⟨fun hroom => ⟨s.mem.put (.ring .viz) (s.vizQ.w % C) (sampleElem y), ?_⟩, fun hfull => ?_⟩
  · have hnot : fullP C s.vizQ = false := decide_eq_false (not_le.mpr hroom)
    obtain ⟨helem, hother⟩ := s.mem.put_sample (q := .viz) (by decide) (s.vizQ.w % C) y
    refine ⟨helem, hother, ?_⟩
    rw [genPushViz_of_room (s := takeEvent s) y hnot]
    rfl
  · have hyes : fullP C s.vizQ = true := decide_eq_true hfull.ge
    rw [genPushViz_of_full (s := takeEvent s) y hyes, satInc_eq]
    rfl

end Sys2Proof.Proofs
end

section
/-!
PROOFS. A block is generated under one setting (46_sequencer_commands R261, R270, R274): the other agents
write no register of SYN's (60_exceptions R320, R321), and SYN in Gen writes the phase, the envelope by
ENV.UPDATE, the metronome and its own place in the block.
-/

namespace Sys2Proof.Machine

/-! ## The other agents -/

/-- The registers of SYN's own, as they stand (10_state R21). -/
def synUnits (s : State) : SynUnits := ⟨s.osc, s.env, s.met, s.syn⟩

theorem tryPush_synUnits {q : QueueId} {v : Elem} {s t : State} (h : tryPush q v s = .ok t) :
    synUnits t = synUnits s := by
  rcases tryPush_ok h with ⟨-, rfl⟩ | ⟨-, -, rfl⟩ <;> simp [synUnits]

theorem tryPop_synUnits {q : QueueId} {s t : State} (h : tryPop q s = .ok t) :
    synUnits t = synUnits s := by
  rcases tryPop_ok h with ⟨-, rfl⟩ | ⟨e, -, -, -, rfl⟩ <;> simp [synUnits]

theorem syncStep_synUnits (q : QueueId) (side : SyncSide) (d : Nat) (s : State) :
    synUnits (syncStep q side d s) = synUnits s := by
  rcases syncStep_cases q side d s with h | ⟨-, -, h⟩ <;> rw [h]
  simp [synUnits]

theorem fillSlot_synUnits {s u : State} (h : fillSlot s = .ok u) : synUnits u = synUnits s := by
  have hframe := fillSlot_frame h
  simp only [synUnits, hframe.osc, hframe.env, hframe.met, hframe.syn]

theorem transform_synUnits {x : List Elem} {s t : State} (h : transform x s = .ok t) :
    synUnits t = synUnits s := by
  rcases transform_ok h with ⟨-, rfl⟩ | ⟨-, -, rfl⟩ | ⟨-, -, m, xs, -, -, rfl⟩ <;> rfl

/-- An operation that SYN owns does not complete for another agent (60_exceptions R320). -/
theorem ifOwner_syn_not_next {s t : State} {r : Result} (ha : s.port.agent ≠ .syn)
    (h : ifOwner .syn s r = .next t) : False :=
  ha ((ifOwner_next_iff ..).mp h).1

/-- No operation that another agent completes writes a register of SYN's (60_exceptions R321). -/
theorem exec_synUnits_of_host {i : Instr} {c : UopCode} {s t : State} (hi : encode i = .uop c)
    (ha : s.port.agent ≠ .syn) (h : exec i s = .next t) : synUnits t = synUnits s := by
  cases i with
  | start | stop | changeFrequency | changeOscillator | changeNoise | pressed | released =>
    exact nomatch hi
  | oscSetFrequency | oscSetWaveType | oscRun | noiseUniform | noiseGaussian | envPress
  | envRelease | envUpdate | metUpdate | metGetBeatIndex | tsAccent =>
    exact (ifOwner_syn_not_next ha h).elim
  | qTryPush =>
    obtain ⟨q, -, -, h⟩ := exec_qTryPush_next h
    exact tryPush_synUnits h
  | qTryPop =>
    obtain ⟨q, -, -, h⟩ := exec_qTryPop_next h
    exact tryPop_synUnits h
  | qFill =>
    obtain ⟨-, h⟩ := (ifOwner_next_iff ..).mp h
    split at h <;> cases h
    rfl
  | fftTransform => exact transform_synUnits ((done_next_iff ..).mp ((ifOwner_next_iff ..).mp h).2)
  | fftMag =>
    obtain ⟨-, h⟩ := (ifOwner_next_iff ..).mp h
    obtain ⟨es, -, rfl⟩ := magnitudes_ok ((done_next_iff ..).mp h)
    rfl
  | ctrRead =>
    simp only [exec, execCtrRead] at h
    split at h
    · cases h
    · split at h <;> cases h <;> rfl

/-- The same for the operation as it is presented, a slot of Q.FILL that comes first included. -/
theorem presentInOrder_synUnits_of_host {a : Agent} {c : UopCode} {ops : Operands} {s t : State}
    (ha : a ≠ .syn) (h : presentInOrder a c ops s = .next t) : synUnits t = synUnits s := by
  rcases presentInOrder_next h with ⟨-, -, hf⟩ | ⟨i, hi, he⟩
  · exact (fillSlot_synUnits hf).trans rfl
  · exact exec_synUnits_of_host (s := s.withPort ⟨a, ops⟩) (decodeUop_eq_ok_iff.mp hi) ha he

/-- A step that is neither a reset nor SYN's leaves the registers of SYN's. -/
theorem step_synUnits_of_host {s t : State} (h : step s = .next t)
    (hreset : ∀ p, nextEvent s ≠ .reset p) (hsyn : nextEvent s ≠ .syn)
    (hown : ∀ c ops, nextEvent s ≠ .uop .syn c ops) : synUnits t = synUnits s := by
  have htake : synUnits (takeEvent s) = synUnits s := rfl
  rw [← htake]
  rcases step_next_cases h with ⟨p, hp, -⟩ | ⟨-, hs⟩
  · exact absurd hp (hreset p)
  · rcases hs with ⟨he, -⟩ | ⟨q, side, d, -, rfl⟩ | ⟨a, c, ops, he, hp⟩ | ⟨-, -, hf⟩ | ⟨-, -, rfl⟩
    · exact absurd he hsyn
    · exact syncStep_synUnits q side d _
    · exact presentInOrder_synUnits_of_host (fun ha => hown c ops (ha ▸ he)) hp
    · exact fillSlot_synUnits hf
    · rfl

/-! ## SYN in Gen -/

/-- The commanded parameters are kept, and the envelope changes only by ENV.UPDATE (R274). -/
def KeepsSetting (s t : State) : Prop :=
  t.osc.frequency = s.osc.frequency ∧ t.osc.waveType = s.osc.waveType ∧
  t.osc.duty = s.osc.duty ∧ t.syn.noiseSel = s.syn.noiseSel ∧ t.syn.running = s.syn.running ∧
  (t.env = s.env ∨ t.env = updateEnv s.cfg.params s.env)

/-- Where the oscillator and the envelope are as before, SYN's switches decide. -/
theorem KeepsSetting.of_eq {s t : State} (hosc : t.osc = s.osc) (henv : t.env = s.env)
    (hnoise : t.syn.noiseSel = s.syn.noiseSel) (hrun : t.syn.running = s.syn.running) :
    KeepsSetting s t := by
  rw [KeepsSetting, hosc]
  exact ⟨rfl, rfl, rfl, hnoise, hrun, .inl henv⟩

theorem KeepsSetting.of_synUnits {s t : State} (h : synUnits t = synUnits s) : KeepsSetting s t := by
  have hsyn : t.syn = s.syn := congrArg SynUnits.syn h
  exact .of_eq (congrArg SynUnits.osc h) (congrArg SynUnits.env h) (congrArg Syn.noiseSel hsyn)
    (congrArg Syn.running hsyn)

theorem genCompute_keepsSetting (s : State) : KeepsSetting s (genCompute s) := by
  cases hrun : s.syn.running with
  | false =>
    rw [genCompute_of_stopped hrun]
    exact .of_eq rfl rfl rfl rfl
  | true =>
    obtain ⟨n, drawn, hgen, -⟩ := genCompute_of_running hrun
    rw [hgen]
    exact ⟨rfl, rfl, rfl, rfl, rfl, .inr rfl⟩

/-- A push writes no register of SYN's, and what follows it in a sample step keeps the switches. -/
theorem genStep_keepsSetting {s t : State} (h : genStep s = .next t) : KeepsSetting s t := by
  rcases genStep_next h with ⟨-, rfl⟩ | ⟨y, -, hg⟩ | ⟨y, -, hg⟩
  · exact genCompute_keepsSetting s
  · obtain ⟨u, hu, hrest⟩ := genPushOut_ok hg
    have hpush : KeepsSetting s u := .of_synUnits (tryPush_synUnits hu)
    rcases hrest with ⟨-, rfl⟩ | ⟨-, rfl⟩ <;> exact hpush
  · obtain ⟨u, hu, hrest⟩ := genPushViz_ok hg
    have hpush : KeepsSetting s u := .of_synUnits (tryPush_synUnits hu)
    rcases hrest with ⟨-, rfl⟩ | ⟨-, rfl⟩ <;> exact hpush

theorem step_keepsSetting_of_syn {s t : State} (h : step s = .next t) (he : nextEvent s = .syn)
    (hgen : s.syn.phase = .gen) : KeepsSetting s t := by
  rcases step_next_cases h with ⟨p, hp, -⟩ | ⟨h0, -⟩
  · exact nomatch he.symm.trans hp
  · rw [step_of_gen h0 he hgen] at h
    exact genStep_keepsSetting (s := takeEvent s) h

end Sys2Proof.Machine

namespace Sys2Proof.Proofs
open Sys2Proof Sys2Proof.Machine

/-- Settles O13: SYN in Gen takes a part of a sample step, and every other step leaves its registers. -/
theorem blockHasOneSetting : Obligations.BlockHasOneSetting := by
  intro s t h hgen hreset hown
  by_cases hsyn : nextEvent s = .syn
  · exact step_keepsSetting_of_syn h hsyn hgen
  · exact KeepsSetting.of_synUnits (step_synUnits_of_host h hreset hsyn hown)

end Sys2Proof.Proofs
end

section
/-!
PROOFS. Reset, the construction check and the core that it holds (60_exceptions R300 to R303,
70_reset_and_hazards R330, R331).
-/

namespace Sys2Proof.Machine

/-! ## Events at any core, and at a core that is held -/

/-- A reset is taken whatever the core holds (70_reset_and_hazards R330). -/
theorem step_of_reset {s : State} {p : Params} (he : nextEvent s = .reset p) :
    step s = .next (resetWith p (takeEvent s)) := by
  rw [step, he]
  rfl

/-- Any other event finds a held core stuck (60_exceptions R302). -/
theorem step_of_held {s : State} (h0 : s.cfg.fault ≠ 0#8) (hr : ∀ p, nextEvent s ≠ .reset p) :
    step s = .fault (.held s.cfg.fault) := by
  have hh : isHeld (takeEvent s) = true := (isHeld_iff _).mpr h0
  unfold step runEvent
  split
  case h_1 p he => exact absurd he (hr p)
  all_goals exact if_pos hh

/-! ## The conditions of the check, as the table of R301 writes them -/

/-- Between values that are no NaN, `fge` is the negation of `flt`. -/
theorem fge_eq_not_flt {a b : F} (ha : isNaN a = false) (hb : isNaN b = false) :
    fge a b = !flt a b := by
  cases h : flt a b with
  | true =>
    simp only [flt, fge, ordered, ha, hb, Bool.not_true, Bool.not_false, Bool.and_self,
      Bool.true_and, decide_eq_true_eq, decide_eq_false_iff_not] at h ⊢
    omega
  | false => exact fge_of_not_flt ha hb h

/-- A value is finite where it is neither a NaN nor an infinity. -/
theorem isFinite_eq (a : F) : isFinite a = !(isNaN a || isInf a) := by
  rw [Bool.eq_iff_iff]
  simp only [isFinite, isNaN, isInf, Bool.not_eq_true', Bool.or_eq_false_iff, decide_eq_true_eq,
    decide_eq_false_iff_not]
  omega

/-- Codes 1 and 9. -/
theorem not_finitePositive (a : F) :
    (!finitePositive a) = (isNaN a || isInf a || !flt posZero a) := by
  rw [finitePositive, isFinite_eq, Bool.not_and, Bool.not_not]

/-- An infinity lies outside the legal durations. -/
theorem outside_durations_of_isInf {d : F} (h : isInf d = true) :
    (flt d one || flt maxDur d) = true := by
  have hmag : fmag d = infMag := of_decide_eq_true h
  have hd : d = ofMag (isNeg d) infMag := by rw [← hmag, ofMag_isNeg_fmag]
  rw [hd]
  cases isNeg d <;> decide

/-- Code 3, for one duration. -/
theorem not_legalDuration (d : F) :
    (!legalDuration d) = (isNaN d || !feq (ffloor d) d || flt d one || flt maxDur d) := by
  rw [legalDuration, isInteger, isFinite_eq]
  cases hnan : isNaN d with
  | true => rfl
  | false =>
    cases hinf : isInf d with
    | true =>
      have hout := outside_durations_of_isInf hinf
      simp only [Bool.or_eq_true] at hout
      rcases hout with h | h <;> simp [h]
    | false =>
      rw [fle_eq_fge, fge_eq_not_flt hnan (by decide), fge_eq_not_flt (by decide) hnan]
      simp

/-- Code 4. -/
theorem not_legalSustain (p : Params) :
    (!legalSustain p) =
      (isNaN p.sustainLevel || flt p.sustainLevel posZero || flt one p.sustainLevel ||
        (decide (p.releaseMode = .forced) && feq p.sustainLevel posZero)) := by
  rw [legalSustain]
  cases hnan : isNaN p.sustainLevel with
  | true => simp [fge, ordered, hnan]
  | false =>
    rw [fle_eq_fge, fge_eq_not_flt hnan (by decide), fge_eq_not_flt (by decide) hnan]
    simp

/-- Code 8. -/
theorem not_isPowerOfTwo (n : Nat) :
    (!isPowerOfTwo n) = (decide (n = 0) || decide (2 ^ Nat.log2 n ≠ n)) := by
  simp [isPowerOfTwo]

/-! ## The check as a search of the table (60_exceptions R301) -/

/-- The causes in the order of the table. -/
def faultTable : List ConfigFault :=
  [.badSampleRate, .badTickPeriod, .badEnvDuration, .badSustainLevel, .badQueueCapacity,
    .badTsNumerator, .badBlockSize, .badFftMaxN, .badSquareAmplitude]

/-- An envelope duration as the table's third condition refuses it. -/
def badDuration (d : F) : Bool := isNaN d || !feq (ffloor d) d || flt d one || flt maxDur d

/-- The condition of each cause, as the table writes it. -/
def causeHolds (p : Params) : ConfigFault → Bool
  | .badSampleRate => isNaN p.sampleRate || isInf p.sampleRate || !flt posZero p.sampleRate
  | .badTickPeriod => decide (p.tickPeriod = 0#64)
  | .badEnvDuration =>
    badDuration p.attackDur || badDuration p.decayDur || badDuration p.releaseDur
  | .badSustainLevel =>
    isNaN p.sustainLevel || flt p.sustainLevel posZero || flt one p.sustainLevel ||
      (decide (p.releaseMode = .forced) && feq p.sustainLevel posZero)
  | .badQueueCapacity => decide (p.outCap = 0) || decide (p.vizCap = 0) || decide (p.cmdCap = 0)
  | .badTsNumerator => decide (p.tsNumerator = 0#32) || decide (p.tsDenominator = 0#32)
  | .badBlockSize => decide (p.blockSize = 0)
  | .badFftMaxN => decide (p.fftMaxN = 0) || decide (2 ^ Nat.log2 p.fftMaxN ≠ p.fftMaxN)
  | .badSquareAmplitude => isNaN p.aSq || isInf p.aSq || !flt posZero p.aSq

theorem find?_cons_eq_ite (holds : ConfigFault → Bool) (c : ConfigFault) (cs : List ConfigFault) :
    (c :: cs).find? holds = if holds c = true then some c else cs.find? holds := by
  cases h : holds c <;> simp [h]

/-- The check raises the first cause of the table whose condition holds. -/
theorem firstFault_eq_find? (p : Params) : firstFault p = faultTable.find? (causeHolds p) := by
  have hdur : (!(legalDuration p.attackDur && legalDuration p.decayDur &&
      legalDuration p.releaseDur)) = causeHolds p .badEnvDuration := by
    simp only [Bool.not_and, not_legalDuration]
    rfl
  simp only [faultTable, find?_cons_eq_ite, List.find?_nil]
  rw [firstFault, hdur, not_finitePositive, not_legalSustain, not_isPowerOfTwo, not_finitePositive]
  simp only [causeHolds, Bool.or_eq_true, decide_eq_true_eq, or_assoc]

/-- The code of a cause is its place in the table, from 1 on. -/
theorem ConfigFault.code_eq_place (c : ConfigFault) :
    ∃ k, faultTable.idxOf? c = some k ∧ c.code = BitVec.ofNat 8 (k + 1) := by
  cases c
  all_goals exact ⟨_, rfl, rfl⟩

/-- The code recorded is the place of the first condition that holds, 0 where none does. -/
theorem faultCode_eq (p : Params) :
    faultCode p = match (faultTable.map (causeHolds p)).findIdx? id with
      | none => 0#8
      | some k => BitVec.ofNat 8 (k + 1) := by
  rw [List.findIdx?_map, Function.id_comp, List.findIdx?_eq_bind_find?_idxOf?,
    ← firstFault_eq_find?, faultCode]
  cases firstFault p with
  | none => rfl
  | some c =>
    obtain ⟨k, hplace, hcode⟩ := c.code_eq_place
    simp only [Option.bind_some, hplace, hcode]

end Sys2Proof.Machine

namespace Sys2Proof.Proofs
open Sys2Proof Sys2Proof.Machine

/-- Settles O16: the check is a search of the table, and a code is a place in it. -/
theorem firstCauseIsRecorded : Obligations.FirstCauseIsRecorded := by
  intro p
  have hcfg : (construct p).cfg.fault = faultCode p := by
    rw [construct_eq]
    rfl
  exact hcfg.trans (faultCode_eq p)

/-- Settles O17. -/
theorem heldCoreIsStuck : Obligations.HeldCoreIsStuck := fun _ => step_of_held

/-- Settles O14: the construction is the reset table with the check's code, and the reset keeps what
lies outside the core. -/
theorem resetConstructs : Obligations.ResetConstructs := by
  intro s p he
  rw [step_of_reset he, resetWith_eq]
  rfl

end Sys2Proof.Proofs
end

section
/-!
PROOFS. Operations issued by an agent that does not own them, and the reserved selector value
(60_exceptions R320, R305, 30_encoding R101).
-/

namespace Sys2Proof.Machine

/-- The operations of OSC, NOISE, ENV, MET and TS, which SYN alone may issue (60_exceptions R320). -/
theorem exec_of_not_syn {s : State} (h : s.port.agent ≠ .syn) :
    ∀ i ∈ [Instr.oscSetFrequency, .oscSetWaveType, .oscRun, .noiseUniform, .noiseGaussian,
      .envPress, .envRelease, .envUpdate, .metUpdate, .metGetBeatIndex, .tsAccent],
    exec i s = .refused (.notOwner s.port.agent) := by
  intro i hi
  fin_cases hi
  all_goals exact ifOwner_of_other _ h

theorem exec_qTryPush_of_not_producer {s : State} {q : QueueId}
    (hq : queueOf s.port.ops.q = some q) (h : s.port.agent ≠ producer q) :
    exec .qTryPush s = .refused (.notOwner s.port.agent) := by
  rw [exec_qTryPush_of_queue hq, ifOwner_of_other _ h]

theorem exec_qTryPop_of_not_consumer {s : State} {q : QueueId}
    (hq : queueOf s.port.ops.q = some q) (h : s.port.agent ≠ consumer q) :
    exec .qTryPop s = .refused (.notOwner s.port.agent) := by
  rw [exec_qTryPop_of_queue hq, ifOwner_of_other _ h]

/-- Every selector value but 3 names a counter (30_encoding R98). -/
theorem counterOf_of_ne_three {c : BitVec 2} (h : c ≠ 3#2) : ∃ k, counterOf c = some k := by
  have hsome : ∀ c : BitVec 2, c ≠ 3#2 → (counterOf c).isSome = true := by decide
  exact Option.isSome_iff_exists.mp (hsome c h)

/-- SYN may not read a counter (60_exceptions R320). -/
theorem exec_ctrRead_of_syn {s : State} {k : CounterId} (hk : counterOf s.port.ops.c = some k)
    (h : s.port.agent = .syn) : exec .ctrRead s = .refused (.notOwner .syn) := by
  simp only [exec, execCtrRead, hk, h]

/-! ## Selector value 3 (30_encoding R101) -/

theorem exec_qTryPush_of_reserved {s : State} (h : s.port.ops.q = 3#2) :
    exec .qTryPush s = .refused .reservedSelector := by
  simp [exec, execQTryPush, queueOf, h]

theorem exec_qTryPop_of_reserved {s : State} (h : s.port.ops.q = 3#2) :
    exec .qTryPop s = .refused .reservedSelector := by
  simp [exec, execQTryPop, queueOf, h]

theorem exec_ctrRead_of_reserved {s : State} (h : s.port.ops.c = 3#2) :
    exec .ctrRead s = .refused .reservedSelector := by
  simp [exec, execCtrRead, counterOf, h]

end Sys2Proof.Machine

namespace Sys2Proof.Proofs
open Sys2Proof Sys2Proof.Machine

/-- Settles O18, line by line of the table of R320. -/
theorem otherAgentsAreRefused : Obligations.OtherAgentsAreRefused := by
  intro s
  refine ⟨exec_of_not_syn, ?pushSamples, ?pushCommand, ?popOut, ?popViz, ?popCommand,
    fun h => ifOwner_of_other _ h, fun h => ⟨ifOwner_of_other _ h, ifOwner_of_other _ h⟩,
    ?readBySyn, fun h => ⟨exec_qTryPush_of_reserved h, exec_qTryPop_of_reserved h⟩,
    exec_ctrRead_of_reserved⟩
  case pushSamples =>
    rintro (hq | hq) h
    · exact exec_qTryPush_of_not_producer (q := .out) (by rw [hq]; rfl) h
    · exact exec_qTryPush_of_not_producer (q := .viz) (by rw [hq]; rfl) h
  case pushCommand =>
    exact fun hq h => exec_qTryPush_of_not_producer (q := .cmd) (by rw [hq]; rfl) h
  case popOut => exact fun hq h => exec_qTryPop_of_not_consumer (q := .out) (by rw [hq]; rfl) h
  case popViz => exact fun hq h => exec_qTryPop_of_not_consumer (q := .viz) (by rw [hq]; rfl) h
  case popCommand => exact fun hq h => exec_qTryPop_of_not_consumer (q := .cmd) (by rw [hq]; rfl) h
  case readBySyn =>
    intro hc h
    obtain ⟨k, hk⟩ := counterOf_of_ne_three hc
    exact exec_ctrRead_of_syn hk h

end Sys2Proof.Proofs
end

section
/-!
PROOFS. The instrumentation counters as a host reads them (60_exceptions R312).
-/

namespace Sys2Proof.Machine

theorem exec_ctrRead_of_aud {s : State} {k : CounterId} (hk : counterOf s.port.ops.c = some k)
    (h : s.port.agent = .aud) : exec .ctrRead s = .next (readByAud k s) := by
  simp only [exec, execCtrRead, hk, h]

theorem exec_ctrRead_of_vis {s : State} {k : CounterId} (hk : counterOf s.port.ops.c = some k)
    (h : s.port.agent = .vis) : exec .ctrRead s = .next (readByVis k s) := by
  simp only [exec, execCtrRead, hk, h]

end Sys2Proof.Machine

namespace Sys2Proof.Proofs
open Sys2Proof Sys2Proof.Machine

/-- Settles O48: the count driven is a stale count, which lies between the two. -/
theorem ctrReadIsBetween : Obligations.CtrReadIsBetween := by
  refine fun s k hk => ⟨fun ha hle => ?aud, fun ha hle => ?vis⟩
  case aud =>
    obtain ⟨hlast, hnow⟩ := staleCount_between (Config.counterDraw s.draws) hle
    exact ⟨_, hlast, hnow, exec_ctrRead_of_aud hk ha⟩
  case vis =>
    obtain ⟨hlast, hnow⟩ := staleCount_between (Config.counterDraw s.draws) hle
    exact ⟨_, hlast, hnow, exec_ctrRead_of_vis hk ha⟩

end Sys2Proof.Proofs
end

section
/-!
PROOFS. The hosts and the synchronisers do not see the registers of SYN (60_exceptions R321): each of
their operations, done with other contents of these registers, is the operation itself with those
contents put in the next state.
-/

namespace Sys2Proof.Machine

/-! ## SYN's registers are apart from all else -/

@[simp] theorem withUnits_mem (s : State) (u : SynUnits) : (s.withUnits u).mem = s.mem := rfl
@[simp] theorem withUnits_fftN (s : State) (u : SynUnits) : (s.withUnits u).fftN = s.fftN := rfl
@[simp] theorem withUnits_ctr (s : State) (u : SynUnits) : (s.withUnits u).ctr = s.ctr := rfl
@[simp] theorem withUnits_cfg (s : State) (u : SynUnits) : (s.withUnits u).cfg = s.cfg := rfl
@[simp] theorem withUnits_aud (s : State) (u : SynUnits) : (s.withUnits u).aud = s.aud := rfl
@[simp] theorem withUnits_port (s : State) (u : SynUnits) : (s.withUnits u).port = s.port := rfl
@[simp] theorem withUnits_res (s : State) (u : SynUnits) : (s.withUnits u).res = s.res := rfl
@[simp] theorem withUnits_agenda (s : State) (u : SynUnits) :
    (s.withUnits u).agenda = s.agenda := rfl
@[simp] theorem withUnits_draws (s : State) (u : SynUnits) : (s.withUnits u).draws = s.draws := rfl
@[simp] theorem withUnits_cap (s : State) (u : SynUnits) (q : QueueId) :
    (s.withUnits u).cap q = s.cap q := rfl
@[simp] theorem withUnits_cur (s : State) (u : SynUnits) (q : QueueId) :
    (s.withUnits u).cur q = s.cur q := by
  cases q <;> rfl

@[simp] theorem withMem_withUnits (s : State) (u : SynUnits) (m : Memory) :
    (s.withUnits u).withMem m = (s.withMem m).withUnits u := rfl
@[simp] theorem withCur_withUnits (s : State) (u : SynUnits) (q : QueueId) (c : Cursors) :
    (s.withUnits u).withCur q c = (s.withCur q c).withUnits u := by
  cases q <;> rfl
@[simp] theorem withFftN_withUnits (s : State) (u : SynUnits) (n : Nat) :
    (s.withUnits u).withFftN n = (s.withFftN n).withUnits u := rfl
@[simp] theorem withCtr_withUnits (s : State) (u : SynUnits) (c : Counters) :
    (s.withUnits u).withCtr c = (s.withCtr c).withUnits u := rfl
@[simp] theorem withAud_withUnits (s : State) (u : SynUnits) (x : AudFill) :
    (s.withUnits u).withAud x = (s.withAud x).withUnits u := rfl
@[simp] theorem withRes_withUnits (s : State) (u : SynUnits) (r : Results) :
    (s.withUnits u).withRes r = (s.withRes r).withUnits u := rfl
@[simp] theorem driveAccepted_withUnits (q : QueueId) (b : Bool) (s : State) (u : SynUnits) :
    driveAccepted q b (s.withUnits u) = (driveAccepted q b s).withUnits u := rfl
@[simp] theorem drivePopped_withUnits (q : QueueId) (b : Bool) (d : BitVec 40) (s : State)
    (u : SynUnits) : drivePopped q b d (s.withUnits u) = (drivePopped q b d s).withUnits u := rfl
@[simp] theorem spendDraw_withUnits (s : State) (u : SynUnits) :
    spendDraw (s.withUnits u) = (spendDraw s).withUnits u := rfl

/-! ## Outcomes -/

theorem done_map (f : State → State) (r : Except Fault State) :
    done (r.map f) = mapNext f (done r) := by
  cases r <;> rfl

/-- Ownership is asked of the port alone, so it commutes with whatever the operation commutes
with. -/
theorem ifOwner_withUnits {a : Agent} {s : State} {u : SynUnits} {r r' : Result}
    (h : r' = mapNext (fun t => t.withUnits u) r) :
    ifOwner a (s.withUnits u) r' = mapNext (fun t => t.withUnits u) (ifOwner a s r) := by
  subst h
  by_cases ha : s.port.agent = a
  · rw [ifOwner_of_owner r ha, ifOwner_of_owner (s := s.withUnits u) _ ha]
  · rw [ifOwner_of_other r ha, ifOwner_of_other (s := s.withUnits u) _ ha]
    rfl

/-! ## The queues -/

theorem tryPush_withUnits (q : QueueId) (v : Elem) (s : State) (u : SynUnits) :
    tryPush q v (s.withUnits u) = (tryPush q v s).map (fun t => t.withUnits u) := by
  cases hfull : fullP (s.cap q) (s.cur q) with
  | true => simp [tryPush_of_full, hfull, Except.map]
  | false => simp [tryPush_of_room, hfull, Except.map]

theorem tryPop_withUnits (q : QueueId) (s : State) (u : SynUnits) :
    tryPop q (s.withUnits u) = (tryPop q s).map (fun t => t.withUnits u) := by
  cases hempty : emptyC (s.cap q) (s.cur q) with
  | true => simp [tryPop_of_empty, hempty, Except.map]
  | false =>
    cases hread : readElem s.cfg.params s.mem (.ring q) ((s.cur q).r % s.cap q) <;>
      simp [tryPop, hempty, hread, Except.map]

theorem fillSlot_withUnits (s : State) (u : SynUnits) :
    fillSlot (s.withUnits u) = (fillSlot s).map (fun t => t.withUnits u) := by
  rw [fillSlot, fillSlot, tryPop_withUnits]
  cases tryPop .out s with
  | error f => rfl
  | ok t => cases hvalid : t.res.outQ.valid <;> simp [Except.map, slotSample, hvalid]

theorem syncStep_withUnits (q : QueueId) (side : SyncSide) (d : Nat) (s : State) (u : SynUnits) :
    syncStep q side d (s.withUnits u) = (syncStep q side d s).withUnits u := by
  by_cases hlag : 1 ≤ d ∧ d ≤ lagOf (s.cap q) (s.cur q) side <;> simp [syncStep, hlag]

/-! ## The FFT and the counters -/

/-- FFT.TRANSFORM reads the operand, the parameters and its two buffers. -/
theorem transform_withUnits (x : List Elem) (s : State) (u : SynUnits) :
    transform x (s.withUnits u) = (transform x s).map (fun t => t.withUnits u) := by
  by_cases hx : x.length = 0
  · simp [transform, hx, Except.map]
  by_cases hN : s.cfg.params.fftMaxN < paddedLength x.length
  · simp [transform, hx, hN, Except.map]
  obtain ⟨m₁, m₂, xs, hload, hrec, hread⟩ :=
    transform_parts_complete s.cfg.params s.mem hx (not_lt.mp hN)
  simp [transform, hx, hN, hload, hrec, hread, Except.map]

theorem magnitudes_withUnits (s : State) (u : SynUnits) :
    magnitudes (s.withUnits u) = (magnitudes s).map (fun t => t.withUnits u) := by
  cases hread : readRun s.cfg.params s.mem .fftA (s.fftN / 2) 0 <;>
    simp [magnitudes, hread, Except.map]

theorem execCtrRead_withUnits (s : State) (u : SynUnits) :
    execCtrRead (s.withUnits u) = mapNext (fun t => t.withUnits u) (execCtrRead s) := by
  cases hk : counterOf s.port.ops.c with
  | none => simp [execCtrRead, hk, mapNext]
  | some k =>
    cases ha : s.port.agent with
    | aud | vis | syn =>
      simp only [execCtrRead, withUnits_port, hk, ha]
      rfl

/-! ## Operations and events -/

/-- An operation that another agent than SYN issues does the same whatever SYN's registers hold
(60_exceptions R320, R321). -/
theorem exec_withUnits_of_host {i : Instr} {c : UopCode} {s : State} (u : SynUnits)
    (hi : encode i = .uop c) (ha : s.port.agent ≠ .syn) :
    exec i (s.withUnits u) = mapNext (fun t => t.withUnits u) (exec i s) := by
  cases i with
  | start | stop | changeFrequency | changeOscillator | changeNoise | pressed | released =>
    exact nomatch hi
  | oscSetFrequency | oscSetWaveType | oscRun | noiseUniform | noiseGaussian | envPress
  | envRelease | envUpdate | metUpdate | metGetBeatIndex | tsAccent =>
    exact (ifOwner_of_other (s := s.withUnits u) _ ha).trans
      (congrArg (mapNext _) (ifOwner_of_other _ ha).symm)
  | qTryPush =>
    cases hq : queueOf s.port.ops.q with
    | none => simp [exec, execQTryPush, hq, mapNext]
    | some q =>
      rw [exec_qTryPush_of_queue hq, exec_qTryPush_of_queue (s := s.withUnits u) hq,
        tryPush_withUnits]
      exact ifOwner_withUnits (done_map ..)
  | qTryPop =>
    cases hq : queueOf s.port.ops.q with
    | none => simp [exec, execQTryPop, hq, mapNext]
    | some q =>
      rw [exec_qTryPop_of_queue hq, exec_qTryPop_of_queue (s := s.withUnits u) hq,
        tryPop_withUnits]
      exact ifOwner_withUnits (done_map ..)
  | qFill =>
    refine ifOwner_withUnits ?_
    by_cases hq : queueOf s.port.ops.q = some .out <;> simp [hq, startFill, mapNext]
  | fftTransform =>
    exact ifOwner_withUnits ((congrArg done (transform_withUnits ..)).trans (done_map ..))
  | fftMag =>
    exact ifOwner_withUnits ((congrArg done (magnitudes_withUnits ..)).trans (done_map ..))
  | ctrRead => exact execCtrRead_withUnits s u

/-- The same for the operation as it is presented: a slot of Q.FILL, the operation, or a refusal. -/
theorem presentInOrder_withUnits_of_host {a : Agent} (ha : a ≠ .syn) (c : UopCode) (ops : Operands)
    (s : State) (u : SynUnits) :
    presentInOrder a c ops (s.withUnits u) =
      mapNext (fun t => t.withUnits u) (presentInOrder a c ops s) := by
  by_cases hb : a = .aud ∧ s.aud.left ≠ 0
  · obtain ⟨rfl, hleft⟩ := hb
    rw [presentInOrder_of_busy c ops hleft, presentInOrder_of_busy (s := s.withUnits u) c ops hleft,
      ← done_map, ← fillSlot_withUnits]
    rfl
  · have hfree : a = .aud → s.aud.left = 0 := fun h => by_contra fun hleft => hb ⟨h, hleft⟩
    rw [presentInOrder_of_not_busy c ops hfree,
      presentInOrder_of_not_busy (s := s.withUnits u) c ops hfree]
    cases hi : decodeUop c with
    | error e => simp [present, hi, mapNext]
    | ok i =>
      rw [present_of_decode a ops s hi, present_of_decode a ops (s.withUnits u) hi]
      exact exec_withUnits_of_host (s := s.withPort ⟨a, ops⟩) u (decodeUop_eq_ok_iff.mp hi) ha

/-- An event that is neither a reset nor SYN's does the same whatever SYN's registers hold. -/
theorem runAgent_withUnits_of_host {e : Event} (hreset : ∀ p, e ≠ .reset p) (hsyn : e ≠ .syn)
    (hown : ∀ c ops, e ≠ .uop .syn c ops) (s : State) (u : SynUnits) :
    runAgent e (s.withUnits u) = mapNext (fun t => t.withUnits u) (runAgent e s) := by
  cases e with
  | reset p => exact absurd rfl (hreset p)
  | syn => exact absurd rfl hsyn
  | sync q side d => exact congrArg Host.Outcome.next (syncStep_withUnits q side d s u)
  | uop a c ops =>
    exact presentInOrder_withUnits_of_host (fun ha => hown c ops (ha ▸ rfl)) c ops s u
  | fillSlot =>
    by_cases hleft : s.aud.left = 0
    · simp [runAgent, audBusy, hleft, mapNext]
    · simp [runAgent, audBusy, hleft, fillSlot_withUnits, done_map]

/-- A step that is neither a reset nor SYN's does the same whatever SYN's registers hold. -/
theorem step_withUnits_of_host {s : State} (u : SynUnits) (hreset : ∀ p, nextEvent s ≠ .reset p)
    (hsyn : nextEvent s ≠ .syn) (hown : ∀ c ops, nextEvent s ≠ .uop .syn c ops) :
    step (s.withUnits u) = mapNext (fun t => t.withUnits u) (step s) := by
  have hevent := nextEvent_withUnits s u
  have hreset' : ∀ p, nextEvent (s.withUnits u) ≠ .reset p := fun p => hevent.symm ▸ hreset p
  by_cases h0 : s.cfg.fault = 0#8
  · rw [step_of_not_held h0 hreset, step_of_not_held (s := s.withUnits u) h0 hreset', hevent,
      takeEvent_withUnits]
    exact runAgent_withUnits_of_host hreset hsyn hown (takeEvent s) u
  · rw [step_of_held h0 hreset, step_of_held (s := s.withUnits u) h0 hreset']
    rfl

end Sys2Proof.Machine

namespace Sys2Proof.Proofs
open Sys2Proof Sys2Proof.Machine

/-- Settles O19: the event is a host's or a synchroniser's, so neither a reset nor SYN's. -/
theorem hostsNeitherReadNorWriteUnits : Obligations.HostsNeitherReadNorWriteUnits := by
  intro s u hevent
  have hreset : ∀ p, nextEvent s ≠ .reset p := by
    rintro p hp
    simp [hp] at hevent
  have hsyn : nextEvent s ≠ .syn := by
    intro hp
    simp [hp] at hevent
  have hown : ∀ c ops, nextEvent s ≠ .uop .syn c ops := by
    intro c ops hp
    simp [hp] at hevent
  refine ⟨step_withUnits_of_host u hreset hsyn hown, fun t ht => ?_⟩
  have hkeep := step_synUnits_of_host ht hreset hsyn hown
  exact ⟨congrArg SynUnits.osc hkeep, congrArg SynUnits.env hkeep, congrArg SynUnits.met hkeep,
    congrArg SynUnits.syn hkeep⟩

end Sys2Proof.Proofs
end
